-- ==== Sys2Proof/Word.lean ====
section
/-! DEFINITION. The two item types of the channels, and the order of the machine's smallest names.
A byte-side item is 8 bits wide (R28). A word-side item is W bits wide with W at most 64 (R29, R5);
it is held zero-extended in 64 bits, and `Safety.lean` states the invariant that it fits in W bits. -/

namespace Sys2Proof

/-- One item of the byte-side channel, `u8` (R28). -/
abbrev Byte := BitVec 8

/-- One item of the word-side channel or the accumulator, `uW`, held zero-extended in 64 bits (R22, R29). -/
abbrev Item := BitVec 64

end Sys2Proof
end

