-- ==== Sys2Proof/Config.lean ====
section
/-! DEFINITION. What the spec leaves open: the free values (each an opaque constant, so that nothing can be
proved of its value) and the named values the model gives a field at reset where the spec gives none. -/

namespace Sys2Proof.Config

/-- `out_data` while `out_valid` is 0 is unspecified, a free draw at every cycle (R129, I9): the draw of the
cycle numbered by the model's own counter `State.tick`. DESIGN CHOICE for the form (log entry 8): equal counts draw
alike, so before and after an edge that no `present` comes between out_data is one draw. -/
opaque freeOutData : Nat → Item

/-- The accumulator before the first reset edge, a free draw (R233, I10): the draw of the power-up that the first
number names, in the cycle that the second names (log entry 9), as in the four that follow. -/
opaque powerUpAcc : Nat → Nat → Item

/-- The phase before the first reset edge, as a number; `Phase.ofDraw` names it (R233, I10). -/
opaque powerUpPhase : Nat → Nat → Nat

/-- The word index before the first reset edge (R233, I10). -/
opaque powerUpI : Nat → Nat → Nat

/-- The byte index before the first reset edge (R233, I10). -/
opaque powerUpJ : Nat → Nat → Nat

/-- The completion pulse before the first reset edge (R233, I10). -/
opaque powerUpDone : Nat → Nat → Bool

/-- The default burst length, 1 (R6, R94): the burst length `State.reset` holds, and the N of the
pseudo-forms. -/
def defaultN : Nat := 1

/-- DESIGN CHOICE, unsafe (log entry 2): the value of the OPEN bound N_MAX that `State.reset` carries. The bound
is part of every configuration, so every statement holds for every value of it. -/
def resetNMax : Nat := 4294967295

end Sys2Proof.Config
end

