-- ==== Sys2Proof/Syntax.lean ====
section
/-! DEFINITION. The configurations of the two converters, which stand in for instructions (R1): one
constructor of `Instr` per row of the opcode table (R91), and the source's own way of naming an instance
by its parameters (R4 to R8), `Request`. -/

namespace Sys2Proof

/-- DIR, which block (R81). -/
inductive Dir where
  | b2w
  | w2b
  deriving DecidableEq, Repr

/-- E, the byte order (R7, R82). -/
inductive Endian where
  | little
  | big
  deriving DecidableEq, Repr

/-- The values of S and of TS (R83, R84). -/
inductive Sign where
  | unsigned
  | signed
  deriving DecidableEq, Repr

/-- The admitted word widths in bytes, K of R5; the WL field of the configuration word (R85). -/
inductive WordLen where
  | k1
  | k2
  | k4
  | k8
  deriving DecidableEq, Repr

/-- A burst length under the OPEN bound N_MAX, with the proof that it is within the bound (R88, R201): a length
above the bound is no term. -/
structure BurstLen where
  nMax : Nat
  n : Nat
  bound : n ≤ nMax
  deriving DecidableEq, Repr

/-- The six instructions of the opcode table (R91). Each takes the WL field and the burst length operand given beside
the configuration word (R88). This is the typed configuration of R201: the constructors admit only what `legal(CW)` of
R87 admits, and the burst length carries the proof of N ≤ N_MAX, so an illegal configuration cannot be built. -/
inductive Instr where
  | b2wLe (wl : WordLen) (b : BurstLen)
  | b2wBe (wl : WordLen) (b : BurstLen)
  | w2bULe (wl : WordLen) (b : BurstLen)
  | w2bUBe (wl : WordLen) (b : BurstLen)
  | w2bSLe (wl : WordLen) (b : BurstLen)
  | w2bSBe (wl : WordLen) (b : BurstLen)
  deriving DecidableEq, Repr

/-- The burst length operand of an instruction, with its bound (R88). -/
def Instr.burst : Instr → BurstLen
  | .b2wLe _ b => b
  | .b2wBe _ b => b
  | .w2bULe _ b => b
  | .w2bUBe _ b => b
  | .w2bSLe _ b => b
  | .w2bSBe _ b => b

/-- The burst length N of an instruction (R88). -/
def Instr.n (i : Instr) : Nat := i.burst.n

/-- The bound N_MAX the instruction was built under (R88). -/
def Instr.nMax (i : Instr) : Nat := i.burst.nMax

/-- The word width operand of an instruction (R85). -/
def Instr.wl : Instr → WordLen
  | .b2wLe wl _ => wl
  | .b2wBe wl _ => wl
  | .w2bULe wl _ => wl
  | .w2bUBe wl _ => wl
  | .w2bSLe wl _ => wl
  | .w2bSBe wl _ => wl

/-- A word type T as an instantiation names it: an integer type of some signedness and byte width, or a
type that is no integer type (R90, R25). -/
inductive WordType where
  | integer (ts : Sign) (bytes : Nat)
  | nonInteger
  deriving DecidableEq, Repr

/-- A request to instantiate a block by its static parameters: direction, endianness, signedness parameter,
word type and burst length (R4 to R9). It may be one that has no instance (R201). -/
structure Request where
  dir : Dir
  endian : Endian
  sign : Sign
  type : WordType
  n : Nat
  deriving DecidableEq, Repr

end Sys2Proof
end

