-- ==== Sys2Proof/WellFormed.lean ====
section
/-! DEFINITION. Which instructions and instantiation requests are well formed (R87, R88, R90, R5). -/

namespace Sys2Proof

/-- An instruction is well formed under an implementation's N_MAX when its burst length is at most that N_MAX (R88).
Under its own bound every term of `Instr` is, and every other legality condition of R87 holds of it by its type
(R201). -/
def Instr.wf (nMax : Nat) (i : Instr) : Bool :=
  decide (i.n ≤ nMax)

/-- The word type is an integer type (R90). -/
def Request.integerType (r : Request) : Bool :=
  match r.type with
  | .integer _ _ => true
  | .nonInteger => false

/-- The word type has an admitted byte width, K in 1, 2, 4, 8 (R5). -/
def Request.widthAdmitted (r : Request) : Bool :=
  match r.type with
  | .integer _ bytes => bytes == 1 || bytes == 2 || bytes == 4 || bytes == 8
  | .nonInteger => false

/-- The signedness contract of R87: B2W takes an unsigned word type and no signedness parameter, and W2B's
signedness parameter is that of its word type. -/
def Request.signsAgree (r : Request) : Bool :=
  match r.type, r.dir with
  | .integer ts _, .b2w => ts == .unsigned && r.sign == .unsigned
  | .integer ts _, .w2b => ts == r.sign
  | .nonInteger, _ => false

/-- A request has an instance exactly when all of these hold (R87, R88, R90, R5). -/
def Request.wf (nMax : Nat) (r : Request) : Bool :=
  r.integerType && r.widthAdmitted && r.signsAgree && decide (r.n ≤ nMax)

end Sys2Proof
end

