-- ==== Sys2Proof/Decode.lean ====
section
/-! DEFINITION. The configuration word CW and its operand N (R80 to R92): field decode, legality, the total
decoder with its named refusals, the encoder, and the instantiation of a request by its parameters. -/

namespace Sys2Proof

/-- The closed list of refusal reasons (R201). -/
inductive ConfigRefusal where
  /-- CW[7:6] is not 00 (R89 reason 1). -/
  | reservedBits
  /-- DIR = 0 with a signed word type (R89 reason 2). -/
  | b2wSignedType
  /-- DIR = 0 with S = 1 (R89 reason 3). -/
  | b2wSignednessParam
  /-- DIR = 1 with S different from TS (R89 reason 4). -/
  | w2bTypeMismatch
  /-- N above N_MAX (R89 reason 5). -/
  | burstTooLong
  /-- A word type that is no integer type (R90). -/
  | nonIntegerType
  /-- A byte width other than 1, 2, 4, 8 (R93, R5). -/
  | widthNotAdmitted
  deriving DecidableEq, Repr

/-- K, the bytes of a word (R4, R85). -/
def WordLen.bytes : WordLen → Nat
  | .k1 => 1
  | .k2 => 2
  | .k4 => 4
  | .k8 => 8

/-- W = 8·K, the bits of a word (R4). -/
def WordLen.bits (wl : WordLen) : Nat := 8 * wl.bytes

/-- The WL field's value (R85). -/
def WordLen.toBits : WordLen → BitVec 2
  | .k1 => 0b00#2
  | .k2 => 0b01#2
  | .k4 => 0b10#2
  | .k8 => 0b11#2

/-- Decoding WL, K = 2^WL (R85). -/
def WordLen.ofBits (wl : BitVec 2) : WordLen :=
  if wl = 0b00#2 then .k1
  else if wl = 0b01#2 then .k2
  else if wl = 0b10#2 then .k4
  else .k8

/-- The byte width of an integer type, where it is an admitted one (R5). -/
def WordLen.ofBytes (bytes : Nat) : Option WordLen :=
  if bytes = 1 then some .k1
  else if bytes = 2 then some .k2
  else if bytes = 4 then some .k4
  else if bytes = 8 then some .k8
  else none

/-- A signedness bit: 0 unsigned, 1 signed (R83, R84). -/
def Sign.ofBit (b : Bool) : Sign := if b then .signed else .unsigned

/-- The signedness bit (R83, R84). -/
def Sign.toBit : Sign → Bool
  | .unsigned => false
  | .signed => true

/-- The endianness bit (R82). -/
def Endian.toBit : Endian → Bool
  | .little => false
  | .big => true

/-- The endianness a bit names (R82). -/
def Endian.ofBit (b : Bool) : Endian := if b then .big else .little

/-- The direction bit (R81). -/
def Dir.toBit : Dir → Bool
  | .b2w => false
  | .w2b => true

/-- The block a direction bit names (R81). -/
def Dir.ofBit (b : Bool) : Dir := if b then .w2b else .b2w

/-- The block of an instruction (R91). -/
def Instr.dir : Instr → Dir
  | .b2wLe _ _ => .b2w
  | .b2wBe _ _ => .b2w
  | .w2bULe _ _ => .w2b
  | .w2bUBe _ _ => .w2b
  | .w2bSLe _ _ => .w2b
  | .w2bSBe _ _ => .w2b

/-- The byte order of an instruction (R91). -/
def Instr.endian : Instr → Endian
  | .b2wLe _ _ => .little
  | .b2wBe _ _ => .big
  | .w2bULe _ _ => .little
  | .w2bUBe _ _ => .big
  | .w2bSLe _ _ => .little
  | .w2bSBe _ _ => .big

/-- The signedness of an instruction; S and TS agree in a legal configuration (R87). B2W is unsigned (R8). -/
def Instr.sign : Instr → Sign
  | .b2wLe _ _ => .unsigned
  | .b2wBe _ _ => .unsigned
  | .w2bULe _ _ => .unsigned
  | .w2bUBe _ _ => .unsigned
  | .w2bSLe _ _ => .signed
  | .w2bSBe _ _ => .signed

/-- RSV, bits 7:6 (R86). -/
def cwRsv (cw : BitVec 8) : BitVec 2 := cw.extractLsb' 6 2

/-- WL, bits 5:4 (R85). -/
def cwWl (cw : BitVec 8) : WordLen := WordLen.ofBits (cw.extractLsb' 4 2)

/-- TS, bit 3 (R84). -/
def cwTs (cw : BitVec 8) : Sign := Sign.ofBit (cw.getLsbD 3)

/-- S, bit 2 (R83). -/
def cwS (cw : BitVec 8) : Sign := Sign.ofBit (cw.getLsbD 2)

/-- E, bit 1 (R82). -/
def cwE (cw : BitVec 8) : Endian := Endian.ofBit (cw.getLsbD 1)

/-- DIR, bit 0 (R81). -/
def cwDir (cw : BitVec 8) : Dir := Dir.ofBit (cw.getLsbD 0)

/-- Legality of a configuration word, the formula of R87. -/
def legal (cw : BitVec 8) : Bool :=
  cwRsv cw == 0b00#2 &&
    ((cwDir cw == .b2w && cwS cw == .unsigned && cwTs cw == .unsigned) ||
      (cwDir cw == .w2b && cwS cw == cwTs cw))

/-- The row of the opcode table that a block, a byte order and a signedness select (R91). -/
def Instr.ofFields (d : Dir) (e : Endian) (s : Sign) (wl : WordLen) (b : BurstLen) : Instr :=
  match d, e, s with
  | .b2w, .little, _ => .b2wLe wl b
  | .b2w, .big, _ => .b2wBe wl b
  | .w2b, .little, .unsigned => .w2bULe wl b
  | .w2b, .big, .unsigned => .w2bUBe wl b
  | .w2b, .little, .signed => .w2bSLe wl b
  | .w2b, .big, .signed => .w2bSBe wl b

/-- The decoder: total on every configuration word and every N, refusing with the first reason of R89 that
applies, in the order R89 gives them. What it answers is a typed configuration, with the proof of N ≤ N_MAX (R201). -/
def decode (nMax : Nat) (cw : BitVec 8) (n : Nat) : Except ConfigRefusal Instr :=
  if cwRsv cw ≠ 0b00#2 then .error .reservedBits
  else if cwDir cw = .b2w ∧ cwTs cw = .signed then .error .b2wSignedType
  else if cwDir cw = .b2w ∧ cwS cw = .signed then .error .b2wSignednessParam
  else if cwDir cw = .w2b ∧ cwS cw ≠ cwTs cw then .error .w2bTypeMismatch
  else if h : n ≤ nMax then .ok (Instr.ofFields (cwDir cw) (cwE cw) (cwS cw) (cwWl cw) ⟨nMax, n, h⟩)
  else .error .burstTooLong

/-- The low four bits TS, S, E, DIR of an instruction's configuration word, from the rows of R91. -/
def Instr.rowBits : Instr → BitVec 4
  | .b2wLe _ _ => 0b0000#4
  | .b2wBe _ _ => 0b0010#4
  | .w2bULe _ _ => 0b0001#4
  | .w2bUBe _ _ => 0b0011#4
  | .w2bSLe _ _ => 0b1101#4
  | .w2bSBe _ _ => 0b1111#4

/-- The encoder: the configuration word `00ww....` of R91 and the operand N beside it (R88). -/
def encode (i : Instr) : BitVec 8 × Nat :=
  (0b00#2 ++ i.wl.toBits ++ i.rowBits, i.n)

/-- The configuration word that the fields of R80 spell, with RSV = 00. -/
def cwOfFields (wl : WordLen) (ts s : Sign) (e : Endian) (d : Dir) : BitVec 8 :=
  0b00#2 ++ wl.toBits ++ BitVec.ofBool ts.toBit ++ BitVec.ofBool s.toBit ++ BitVec.ofBool e.toBit ++
    BitVec.ofBool d.toBit

/-- The typed configuration a request stands for (R89, R90, R201): the type must be an integer type, its width an
admitted one, and then the configuration word decodes. DESIGN CHOICE, safe (log entry 3): the spec orders the five
reasons of R89 only; `nonIntegerType` and `widthNotAdmitted` come before them. -/
def Request.configuration (nMax : Nat) (r : Request) : Except ConfigRefusal Instr :=
  match r.type with
  | .nonInteger => .error .nonIntegerType
  | .integer ts bytes =>
    match WordLen.ofBytes bytes with
    | none => .error .widthNotAdmitted
    | some wl => decode nMax (cwOfFields wl ts r.sign r.endian r.dir) r.n

/-- A configuration as one number (log entry 4): CW in bits 7:0, and N counted on from bit 8. With `nbits` = 8, the
opcode table's own width, N is the operand of all zero bits, 0. -/
def tableWord (nbits w : Nat) : BitVec 8 × Nat :=
  (BitVec.ofNat 8 (w % 2 ^ nbits), (w % 2 ^ nbits) / 256)

/-- The instruction the decoder reads from a table word of `nbits` bits (log entry 4). -/
def decodeTableWord (nbits w : Nat) : Option Instr :=
  match decode Config.resetNMax (tableWord nbits w).1 (tableWord nbits w).2 with
  | .ok i => some i
  | .error _ => none

end Sys2Proof
end

