-- ==== Sys2Proof/Machine/State.lean ====
section
/-! DEFINITION. The state of one instance and of the environment at its two channels, as plain data: the
items of R20, the channels of R30, the input ports of R34 and R35, and the environment's choices to come. -/

namespace Sys2Proof.Machine

/-- Where the sequencer is (R20). -/
inductive Phase where
  | idle
  | rd
  | wr
  deriving DecidableEq, Repr

/-- The phase a power-up draw names; every phase is some draw's (R233). -/
def Phase.ofDraw : Nat → Phase
  | 0 => .idle
  | 1 => .rd
  | _ => .wr

/-- One channel with its environment: a FIFO of items (R30, R63), its capacity (R70; `none` is unbounded), the
items its producer has still to write when the producer is outside, and the items a consumer outside has taken,
both in channel order. -/
structure Chan (α : Type) where
  cap : Option Nat
  waiting : List α
  items : List α
  taken : List α
  deriving DecidableEq, Repr

/-- The input ports of R34 and R35 at one rising edge. `offer` is the producer's readiness to present an item
(in_valid is 1 when one is presented): the head of the input channel, or, while the channel holds nothing, the item
`drive` that the producer itself puts on in_data at this edge, and may change at the next (R120). `accept` is the
consumer's readiness to take (out_ready is 1 when the output channel has room as well). -/
structure Pins where
  rst : Bool
  start : Bool
  offer : Bool
  accept : Bool
  drive : Option Item
  deriving DecidableEq, Repr

/-- The environment's choices for one edge: its pins, how many items the outside producer writes to the input channel
and how many the outside consumer takes from the output channel before the edge. DESIGN CHOICE, unsafe (log entry 19): no
entry clears the input channel, as a partner that shares the reset may (R234). -/
structure EnvEdge where
  pins : Pins
  put : Nat
  take : Nat
  deriving DecidableEq, Repr

/-- The environment beyond the end of its script (log entry 6): it requests nothing, moves nothing, presents what the
input channel holds and takes output while there is room. -/
def EnvEdge.quiet : EnvEdge :=
  ⟨⟨false, false, true, true, none⟩, 0, 0⟩

/-- The whole state: the instance's items (R20), the environment's channels and ports (R30, R34, R35), and the model's
own fields `script` and `tick`. -/
structure State where
  /-- CFG (R20), constant (R21): the typed configuration, which is CW, N and the OPEN bound N_MAX with the proof that
  they are legal (R80, R88, R201); or, where an instance was asked for that does not exist, the reason of the
  refusal. -/
  cfg : Except ConfigRefusal Instr
  /-- The accumulator, W bits (R22), zero-extended. -/
  acc : Item
  /-- The sequencer's phase (R20). -/
  phase : Phase
  /-- The index of the current word in the burst (R20). -/
  i : Nat
  /-- The index of the current byte within the word (R20). -/
  j : Nat
  /-- The completion pulse (R20). -/
  doneR : Bool
  /-- The byte-side channel (R28, R30). -/
  byteCh : Chan Byte
  /-- The word-side channel (R29, R30). -/
  wordCh : Chan Item
  /-- The input ports at the present edge (R34, R35). -/
  pins : Pins
  /-- The environment's choices for the edges to come, one entry an edge. -/
  script : List EnvEdge
  /-- The number of the cycle, which numbers the free draws of out_data (R129) and of the registers before the first reset
  edge (R233). The model's own field. -/
  tick : Nat
  /-- The power-up whose first reset edge has still to come, by its number; `none` once a reset edge has come. While there
  is one, every register is a free draw in every cycle (R233). The model's own field. -/
  unreset : Option Nat
  deriving DecidableEq, Repr

/-- Why a step stops with a fault. R200 gives the hardware no run-time exception; this one marks states outside
the ranges R20 gives the counters, for which R148 and R178 have no row. -/
inductive Fault where
  /-- Raised by the transfer rows of R148 and R178, after a reset edge has come, when j ≥ K, or when a word ends with
  i ≥ N. Safe: R20 says no such state exists, and the model claims nothing of it (log entry 5). -/
  | counterOutOfRange
  deriving DecidableEq, Repr

/-- Why a step is refused. -/
inductive Refusal where
  /-- Raised by `exec`'s arm of an instruction without a meaning; no arm raises it here. Safe: nothing is claimed
  of a refused step. -/
  | notModelled (mnemonic : String)
  /-- Raised by `step` where the instantiation was refused, with the reason (R89, R201). Safe: the spec itself
  refuses. -/
  | config (reason : ConfigRefusal)
  deriving DecidableEq, Repr

/-- A channel holding nothing, unbounded, with nobody's items waiting. -/
def Chan.empty {α : Type} : Chan α := ⟨none, [], [], []⟩

/-- Right after a reset edge: the register values of R33, both channels empty, no environment choices to come.
DESIGN CHOICE, unsafe, where the spec gives no value: the configuration b2w.le.u8 and its bound (log entries 1 and 2), the
channels (log entry 7), and the input ports and the script, which are the quiet environment's: rst = 0, start = 0, the
input offered with nothing driven, the output accepted (log entry 18). The cycle count is log entry 8. -/
def State.reset : State where
  cfg := .ok (.b2wLe .k1 ⟨Config.resetNMax, Config.defaultN, by decide⟩)
  acc := 0#64
  phase := .idle
  i := 0
  j := 0
  doneR := false
  byteCh := .empty
  wordCh := .empty
  pins := EnvEdge.quiet.pins
  script := []
  tick := 0
  unreset := none

/-- Every register of R20 at its free draw for a power-up and the present cycle (R233). The accumulator's draw has the width
of the configuration's word. DESIGN CHOICE, unsafe (log entry 9): the spec does not say whether two power-ups or two cycles
draw alike. Here one power-up number with one cycle number draws the same values, and of different numbers nothing can be
proved. -/
def State.drawRegs (draw : Nat) (s : State) : State :=
  { s with
    acc := match s.cfg with
      | .ok i => ((Config.powerUpAcc draw s.tick).setWidth i.wl.bits).setWidth 64
      | .error _ => Config.powerUpAcc draw s.tick
    phase := .ofDraw (Config.powerUpPhase draw s.tick)
    i := Config.powerUpI draw s.tick
    j := Config.powerUpJ draw s.tick
    doneR := Config.powerUpDone draw s.tick }

/-- Right after power-up, with the first reset edge to come (R233): every register is a free draw, whatever the
configuration, the channels and the environment are. `draw` numbers the power-up, of whichever instance and occasion. -/
def State.powerUp (draw : Nat) (s : State) : State :=
  { s.drawRegs draw with unreset := some draw }

end Sys2Proof.Machine
end

