-- ==== Sys2Proof/Machine/Operands.lean ====
section
/-! DEFINITION. What an instruction's operands are: bytes and words as items of the two channels, lanes of a word
(R54), signed words as patterns (R173, D28), and the two channel primitives (R111, R112). -/

namespace Sys2Proof.Machine

/-- The W-bit value of an item: what the W-bit port carries of it (R29). -/
def ofItem (wl : WordLen) (v : Item) : BitVec wl.bits := v.setWidth wl.bits

/-- A W-bit value as an item, zero-extended. -/
def toItem (wl : WordLen) (v : BitVec wl.bits) : Item := v.setWidth 64

/-- The item fits the word side: it is a W-bit pattern (R29). -/
def fits (wl : WordLen) (v : Item) : Bool := decide (v.toNat < 2 ^ wl.bits)

/-- A byte as an item, zero-extended. -/
def ofByte (b : Byte) : Item := b.setWidth 64

/-- The byte an item of the byte side carries (R28). -/
def toByte (v : Item) : Byte := v.setWidth 8

/-- `pattern_W(v)`, the two's-complement pattern of a signed word (R173, notation of 00_scope). -/
def patternW (wl : WordLen) (v : Int) : Item := toItem wl (BitVec.ofInt wl.bits v)

/-- `signed(p)`, the two's-complement reading of a pattern (R146, R238, notation of 00_scope). -/
def signedOf (wl : WordLen) (p : Item) : Int := (ofItem wl p).toInt

/-- `unsigned(p)`, the magnitude reading of a pattern (R146). -/
def unsignedOf (wl : WordLen) (p : Item) : Nat := (ofItem wl p).toNat

/-- `lane(E, K, s)`, the lane of the byte at serial index s of a word of k bytes (R54). -/
def lane (e : Endian) (k s : Nat) : Nat :=
  match e with
  | .little => s
  | .big => k - 1 - s

/-- Lane m of a word, its bits 8m+7 down to 8m (R54). -/
def laneByte {w : Nat} (v : BitVec w) (m : Nat) : Byte := v.extractLsb' (8 * m) 8

/-- The channel has room for one more item: its length is below its capacity (R112, R70). -/
def Chan.room {α : Type} (c : Chan α) : Bool :=
  match c.cap with
  | none => true
  | some k => decide (c.items.length < k)

/-- `ChanRead`: the head item and the channel without it; `none` is the stall on an empty channel (R111). -/
def Chan.read {α : Type} (c : Chan α) : Option (α × Chan α) :=
  match c.items with
  | [] => none
  | v :: rest => some (v, { c with items := rest })

/-- `ChanWrite`: the channel with the item appended; `none` is the stall on a full channel (R112). -/
def Chan.write {α : Type} (c : Chan α) (v : α) : Option (Chan α) :=
  if c.room then some { c with items := c.items ++ [v] } else none

/-- The channel after a read transfer: its head item is gone (R52, R63). -/
def Chan.pop {α : Type} (c : Chan α) : Chan α := { c with items := c.items.tail }

/-- The channel after a write transfer: the item stands at its tail (R52, R63). -/
def Chan.push {α : Type} (c : Chan α) (v : α) : Chan α := { c with items := c.items ++ [v] }

/-- How many items the outside producer writes when it wants to write k: as many as it has and there is room for,
since a write blocks on a full channel (R112, R70). -/
def Chan.putCount {α : Type} (c : Chan α) (k : Nat) : Nat :=
  match c.cap with
  | none => min k c.waiting.length
  | some m => min (min k c.waiting.length) (m - c.items.length)

/-- The outside producer writes up to k of its items, in order (R63, R71). -/
def Chan.put {α : Type} (c : Chan α) (k : Nat) : Chan α :=
  { c with
    waiting := c.waiting.drop (c.putCount k)
    items := c.items ++ c.waiting.take (c.putCount k) }

/-- The outside consumer takes up to k items, in order (R63, R71). -/
def Chan.drain {α : Type} (c : Chan α) (k : Nat) : Chan α :=
  { c with
    items := c.items.drop k
    taken := c.taken ++ c.items.take k }

end Sys2Proof.Machine
end

