-- ==== Sys2Proof/Machine/Flags.lean ====
section
/-! DEFINITION. The block has no flags (R24). What it reports are the control and handshake outputs of R34 and R35,
each a function of the registers alone (R119, R124), and the handshake inputs the environment answers with (R120). -/

namespace Sys2Proof.Machine

/-- The `idle` output (R34, R121). -/
def State.idle (s : State) : Bool := s.phase == .idle

/-- The `done` output (R34, R122). -/
def State.done (s : State) : Bool := s.doneR

/-- The `in_ready` output (R34, R125). -/
def State.inReady (s : State) : Bool := s.phase == .rd

/-- The `out_valid` output (R34). -/
def State.outValid (s : State) : Bool := s.phase == .wr

/-- The completion pulse after an edge: 1 exactly when the edge ends an invocation (R122). -/
def State.setDone (s : State) (b : Bool) : State := { s with doneR := b }

/-- The head of the input channel's items (R30). A byte is zero-extended. -/
def State.chanHead (d : Dir) (s : State) : Option Item :=
  match d with
  | .b2w => s.byteCh.items.head?.map ofByte
  | .w2b => s.wordCh.items.head?

/-- The item the producer itself drives on the in_data port, 8 bits wide in B2W (R34, R35, R120). -/
def State.driven (d : Dir) (s : State) : Option Item :=
  match d with
  | .b2w => s.pins.drive.map (fun v => ofByte (toByte v))
  | .w2b => s.pins.drive

/-- The item available to a read (R111, R120): the head of the input channel, or, where the channel holds nothing, the
item the producer offers at this edge; `none` when there is neither. -/
def State.inHead (d : Dir) (s : State) : Option Item :=
  (s.chanHead d).or (if s.pins.offer then s.driven d else none)

/-- The `in_data` input (R34, R120): the item presented, or, while none is presented, whatever the producer drives;
`none` where it drives nothing that the script gives. -/
def State.inData (d : Dir) (s : State) : Option Item :=
  if s.pins.offer then s.inHead d else (s.driven d).or (s.chanHead d)

/-- The output channel has room (R112). -/
def State.outRoom (d : Dir) (s : State) : Bool :=
  match d with
  | .b2w => s.wordCh.room
  | .w2b => s.byteCh.room

/-- The `in_valid` input: the producer presents an item (R34, R120). -/
def State.inValid (d : Dir) (s : State) : Bool := s.pins.offer && (s.inHead d).isSome

/-- The `out_ready` input: the consumer takes an item and the output channel has room for it (R34, R112). -/
def State.outReady (d : Dir) (s : State) : Bool := s.pins.accept && s.outRoom d

end Sys2Proof.Machine
end

