-- ==== Sys2Proof/Machine/Ops.lean ====
section
/-! DEFINITION. The operations the meanings share: the accumulator updates (R140, R170), reset (R33, R230), one
rising edge with reset's priority and its handshake (R117, R126, R127), and the environment's moves before an edge
(R70, R71). The block has no memory and takes no exception (R50, R206); reset is its one event that overrides. -/

namespace Sys2Proof.Machine

/-- `step_B2W`: one byte placed into a w-bit accumulator (R140). -/
def stepB2W {w : Nat} (e : Endian) (acc : BitVec w) (b : Byte) : BitVec w :=
  match e with
  | .little => (acc >>> 8) ||| (b.setWidth w <<< (w - 8))
  | .big => (acc <<< 8) ||| b.setWidth w

/-- `emit_W2B`: the next byte of a w-bit accumulator (R170). -/
def emitW2B {w : Nat} (e : Endian) (acc : BitVec w) : Byte :=
  match e with
  | .little => acc.extractLsb' 0 8
  | .big => acc.extractLsb' (w - 8) 8

/-- `shift_W2B`: the emitted byte discarded (R170). -/
def shiftW2B {w : Nat} (e : Endian) (acc : BitVec w) : BitVec w :=
  match e with
  | .little => acc >>> 8
  | .big => acc <<< 8

/-- The accumulator as the W-bit register it is (R22). -/
def State.accW (wl : WordLen) (s : State) : BitVec wl.bits := ofItem wl s.acc

/-- Every register of R20 at its reset value (R33, R230), and no reset edge still to come (R233); configuration, channels and
environment untouched (R21, R234). -/
def State.resetRegs (s : State) : State :=
  { s with acc := 0#64, phase := .idle, i := 0, j := 0, doneR := false, unreset := none }

/-- One of the events of R117 other than Reset, with the item a transfer moves. -/
inductive Event where
  | start
  | read (v : Item)
  | write (v : Item)
  deriving DecidableEq, Repr

/-- The outcome type of a step. -/
abbrev Result := Host.Outcome State Fault Refusal

/-- The event that can happen at this edge (R117, R120, R121): a start accepted in IDLE, a transfer in during RD, a
transfer out of `out` during WR, or none. A start is not accepted at a reset edge (R126). -/
def State.eventAt (d : Dir) (out : Item) (s : State) : Option Event :=
  match s.phase with
  | .idle => if s.pins.start && !s.pins.rst then some .start else none
  | .rd => if s.pins.offer then (s.inHead d).map .read else none
  | .wr => if s.outReady d then some (.write out) else none

/-- What an event does to the two channels: a read consumes the head of the input channel (an item the producer drives
itself stands in no channel, and the channel stays empty), a write appends to the output channel (R52, R111, R112,
R120). -/
def State.move (d : Dir) (ev : Event) (s : State) : State :=
  match ev, d with
  | .start, _ => s
  | .read _, .b2w => { s with byteCh := s.byteCh.pop }
  | .read _, .w2b => { s with wordCh := s.wordCh.pop }
  | .write v, .b2w => { s with wordCh := s.wordCh.push v }
  | .write v, .w2b => { s with byteCh := s.byteCh.push (toByte v) }

/-- The state after the channel transfer of an edge, if it has one (R127). -/
def State.moved (d : Dir) (ev : Option Event) (s : State) : State :=
  match ev with
  | none => s
  | some e => s.move d e

/-- One rising edge (R119): the event's channel transfer happens whether or not the edge is a reset edge (R127); at a
reset edge every register takes its reset value and no done pulse follows (R126, R230). Otherwise, while the first reset
edge since power-up has still to come, every register is unspecified after the edge as it was before, a new free draw,
whatever start and the transfers were (R233); the items move by the handshake of the drawn outputs (DESIGN CHOICE, log
entry 9). After a reset edge the event's row gives the registers (R148, R178), and with no event they are unchanged but for
done_r <- 0. -/
def State.edge (d : Dir) (ev : Option Event) (row : Event → State → Result) (s : State) : Result :=
  if s.pins.rst then .next (s.moved d ev).resetRegs
  else
    match s.unreset, ev with
    | some draw, _ => .next ((s.moved d ev).drawRegs draw)
    | none, none => .next (s.setDone false)
    | none, some e => row e (s.move d e)

/-- The Start rows that R148 and R178 share (R121, R132): with N = 0 the invocation ends at once, otherwise the loop is
entered at (RD, 0, 0) with the accumulator the family gives. -/
def State.startRow (n : Nat) (acc : Item) (s : State) : Result :=
  if n = 0 then .next (s.setDone true)
  else .next { s with phase := .rd, i := 0, j := 0, acc := acc, doneR := false }

/-- The end of word i (R118): the next word is read, or the invocation ends with its done pulse. `j` is the
byte index to leave, `acc` the accumulator. A word index outside R20's range has no row. -/
def State.endWord (n jNext jLast : Nat) (acc accLast : Item) (s : State) : Result :=
  if s.i + 1 < n then .next { s with i := s.i + 1, j := jNext, acc := acc, phase := .rd, doneR := false }
  else if s.i + 1 = n then .next { s with j := jLast, acc := accLast, phase := .idle, doneR := true }
  else .fault .counterOutOfRange

/-- The environment's moves before an edge: the next entry of its script gives the pins, the outside producer writes to
the input channel and the outside consumer takes from the output channel (R70, R71), and the cycle is counted. DESIGN
CHOICE: here the cycle is counted, so an edge's two sides have one count (log entry 8); and nothing is removed from the
input channel but by the instance's reads, so a partner that clears its channel at a reset (R234) is not among these moves
(log entry 19). -/
def State.present (d : Dir) (s : State) : State :=
  let e := s.script.headD EnvEdge.quiet
  let s1 := { s with pins := e.pins, script := s.script.tail, tick := s.tick + 1 }
  match d with
  | .b2w => { s1 with byteCh := s.byteCh.put e.put, wordCh := s.wordCh.drain e.take }
  | .w2b => { s1 with wordCh := s.wordCh.put e.put, byteCh := s.byteCh.drain e.take }

end Sys2Proof.Machine
end

