-- ==== Sys2Proof/Machine/BytesToWord.lean ====
section
/-! DEFINITION. BytesToWordConverter: the state machine of R148 over `step_B2W` (R140), and the two instructions
B2W.LE (R141) and B2W.BE (R142). -/

namespace Sys2Proof.Machine

/-- The event rows of R148, from the state whose channels the event has moved. -/
def b2wRow (e : Endian) (wl : WordLen) (n : Nat) (ev : Event) (s : State) : Result :=
  match ev with
  | .start => s.startRow n 0#64
  | .read v =>
    let acc := toItem wl (stepB2W e (s.accW wl) (toByte v))
    if s.j + 1 < wl.bytes then .next { s with acc := acc, j := s.j + 1, doneR := false }
    else if s.j + 1 = wl.bytes then .next { s with acc := acc, j := 0, phase := .wr, doneR := false }
    else .fault .counterOutOfRange
  | .write _ => s.endWord n s.j s.j 0#64 s.acc

/-- One rising edge of a B2W instance (R148, R230); the word transferred out is acc, as the W-bit port carries
it (R34). -/
def b2wEdge (e : Endian) (wl : WordLen) (n : Nat) (s : State) : Result :=
  s.edge .b2w (s.eventAt .b2w (toItem wl (s.accW wl))) (b2wRow e wl n)

/-- B2W.LE, the little-endian bytes-to-word converter (R141). -/
def execB2wLe (wl : WordLen) (b : BurstLen) (s : State) : Result := b2wEdge .little wl b.n s

/-- B2W.BE, the big-endian bytes-to-word converter (R142). -/
def execB2wBe (wl : WordLen) (b : BurstLen) (s : State) : Result := b2wEdge .big wl b.n s

end Sys2Proof.Machine
end

