-- ==== Sys2Proof/Machine/WordToBytes.lean ====
section
/-! DEFINITION. WordToBytesConverter: the state machine of R178 over `emit_W2B` and `shift_W2B` (R170), and the four
instructions W2B.U.LE (R171), W2B.U.BE (R172), W2B.S.LE (R173) and W2B.S.BE (R174). -/

namespace Sys2Proof.Machine

/-- The event rows of R178, from the state whose channels the event has moved. -/
def w2bRow (e : Endian) (wl : WordLen) (n : Nat) (ev : Event) (s : State) : Result :=
  match ev with
  | .start => s.startRow n s.acc
  | .read v => .next { s with acc := toItem wl (ofItem wl v), j := 0, phase := .wr, doneR := false }
  | .write _ =>
    let acc := toItem wl (shiftW2B e (s.accW wl))
    if s.j + 1 < wl.bytes then .next { s with acc := acc, j := s.j + 1, doneR := false }
    else if s.j + 1 = wl.bytes then s.endWord n 0 s.j acc acc
    else .fault .counterOutOfRange

/-- One rising edge of a W2B instance (R178, R230); the byte transferred out is `emit_W2B(E, acc)` (R35). -/
def w2bEdge (e : Endian) (wl : WordLen) (n : Nat) (s : State) : Result :=
  s.edge .w2b (s.eventAt .w2b (ofByte (emitW2B e (s.accW wl)))) (w2bRow e wl n)

/-- W2B.U.LE, the unsigned little-endian word-to-bytes converter (R171). -/
def execW2bULe (wl : WordLen) (b : BurstLen) (s : State) : Result := w2bEdge .little wl b.n s

/-- W2B.U.BE, the unsigned big-endian word-to-bytes converter (R172). -/
def execW2bUBe (wl : WordLen) (b : BurstLen) (s : State) : Result := w2bEdge .big wl b.n s

/-- W2B.S.LE, the signed little-endian word-to-bytes converter: identical on the word's pattern (R173, R176). -/
def execW2bSLe (wl : WordLen) (b : BurstLen) (s : State) : Result := w2bEdge .little wl b.n s

/-- W2B.S.BE, the signed big-endian word-to-bytes converter: identical on the word's pattern (R174, R176). -/
def execW2bSBe (wl : WordLen) (b : BurstLen) (s : State) : Result := w2bEdge .big wl b.n s

end Sys2Proof.Machine
end

