-- ==== Sys2Proof/Machine/Dispatch.lean ====
section
/-! DEFINITION. The dispatch of the six instructions to their meanings, one rising edge each. -/

namespace Sys2Proof.Machine

/-- One rising edge of an instance configured as i (R117, R148, R178). -/
def exec (i : Instr) (s : State) : Host.Outcome State Fault Refusal :=
  match i with
  | .b2wLe wl b => Sys2Proof.Machine.execB2wLe wl b s
  | .b2wBe wl b => Sys2Proof.Machine.execB2wBe wl b s
  | .w2bULe wl b => Sys2Proof.Machine.execW2bULe wl b s
  | .w2bUBe wl b => Sys2Proof.Machine.execW2bUBe wl b s
  | .w2bSLe wl b => Sys2Proof.Machine.execW2bSLe wl b s
  | .w2bSBe wl b => Sys2Proof.Machine.execW2bSBe wl b s

end Sys2Proof.Machine
end

