-- ==== Sys2Proof/Machine/Step.lean ====
section
/-! DEFINITION. One step of the machine. The configuration stands in for the program (R26, R68) and is decoded when the
instance is built, or refused because there is no such instance (R89, R201). A step is the environment's moves and then
one rising edge of the instance (DESIGN CHOICE, log entries 6 and 11). -/

namespace Sys2Proof.Machine

/-- Building the instance of a configuration word and its N under a bound (R9, R89, R201): the typed configuration, or
the reason for which there is no instance. -/
def State.instantiate (s : State) (nMax : Nat) (cw : BitVec 8) (n : Nat) : State :=
  { s with cfg := decode nMax cw n }

/-- The bound N_MAX of the configuration, and the model's own where there is none (log entry 2). -/
def State.bound (s : State) : Nat :=
  match s.cfg with
  | .ok i => i.nMax
  | .error _ => Config.resetNMax

/-- One rising edge of the whole machine. -/
def step (s : State) : Host.Outcome State Fault Refusal :=
  match s.cfg with
  | .error r => .refused (.config r)
  | .ok i => exec i (s.present i.dir)

/-- s as an instance of the table word's configuration, reset and idle, whose controller requests an invocation at the very next
edge; the environment's choices after that edge are those s had (log entry 4). -/
def State.withFetchWord (s : State) (nbits w : Nat) : State :=
  { s.instantiate s.bound (tableWord nbits w).1 (tableWord nbits w).2 with
    phase := .idle
    unreset := none
    script := ⟨⟨false, true, true, true, none⟩, 0, 0⟩ :: s.script }

end Sys2Proof.Machine
end

