-- ==== Sys2Proof/Machine/Burst.lean ====
section
/-! DEFINITION. One invocation as the source's function call (R110, R113, R114): from the items at the head of the input
channel to the items written and the items left, with `none` for an invocation that starves (R202). The rules'
closed forms are stated against these functions. -/

namespace Sys2Proof.Machine

/-- The accumulator after B2W has taken the bytes of a list, from a start value (R113, R140). -/
def assemble {w : Nat} (e : Endian) (acc : BitVec w) (bs : List Byte) : BitVec w :=
  bs.foldl (fun a b => stepB2W e a b) acc

/-- The word B2W assembles of a word's bytes; the accumulator starts at 0 (R113). -/
def b2wWord (e : Endian) (wl : WordLen) (bs : List Byte) : Item :=
  toItem wl (assemble e (0#wl.bits) bs)

/-- The first t bytes W2B emits of an accumulator (R114, R170). -/
def emitBytes {w : Nat} (e : Endian) : Nat → BitVec w → List Byte
  | 0, _ => []
  | t + 1, acc => emitW2B e acc :: emitBytes e t (shiftW2B e acc)

/-- The accumulator after t emissions (R175). -/
def shiftTimes {w : Nat} (e : Endian) : Nat → BitVec w → BitVec w
  | 0, acc => acc
  | t + 1, acc => shiftTimes e t (shiftW2B e acc)

/-- The K bytes W2B writes for one word (R114). -/
def w2bBytes (e : Endian) (wl : WordLen) (v : Item) : List Byte :=
  emitBytes e wl.bytes (ofItem wl v)

/-- A B2W invocation of n words: the words written and the bytes left in the channel (R113, R53). -/
def b2wBurst (e : Endian) (wl : WordLen) : Nat → List Byte → Option (List Item × List Byte)
  | 0, bs => some ([], bs)
  | n + 1, bs =>
    if bs.length < wl.bytes then none
    else
      match b2wBurst e wl n (bs.drop wl.bytes) with
      | none => none
      | some (ws, rest) => some (b2wWord e wl (bs.take wl.bytes) :: ws, rest)

/-- A W2B invocation of n words: the bytes written and the words left in the channel (R114, R53). -/
def w2bBurst (e : Endian) (wl : WordLen) : Nat → List Item → Option (List Byte × List Item)
  | 0, ws => some ([], ws)
  | _ + 1, [] => none
  | n + 1, v :: ws =>
    match w2bBurst e wl n ws with
    | none => none
    | some (bs, rest) => some (w2bBytes e wl v ++ bs, rest)

/-- The words of a byte stream taken by count from its start, an incomplete last word left out (R54, R60, R61): the
first n of them. -/
def wordsOf (e : Endian) (wl : WordLen) : Nat → List Byte → List Item
  | 0, _ => []
  | n + 1, bs => b2wWord e wl (bs.take wl.bytes) :: wordsOf e wl n (bs.drop wl.bytes)

/-- The byte stream of a list of words (R54). -/
def bytesOf (e : Endian) (wl : WordLen) (ws : List Item) : List Byte :=
  ws.flatMap (w2bBytes e wl)

end Sys2Proof.Machine
end

