-- ==== Sys2Proof/Machine/System.lean ====
section
/-! DEFINITION. Several instances that run side by side and meet only at channels (R66, R71, R210): a system is built
only when each channel has one producer and one consumer, and one of its steps is one edge of one instance. -/

namespace Sys2Proof.Machine

/-- One instance of a system: its typed configuration, so an illegal one is in no system (R201), its registers and
environment, and the channels it is bound to. The configuration and channel fields of `st` are not used. -/
structure Inst where
  cfg : Instr
  st : State
  inId : Nat
  outId : Nat
  deriving DecidableEq, Repr

/-- Instances and the channels of the system (R210, R30). -/
structure System where
  insts : List Inst
  byteChs : List (Chan Byte)
  wordChs : List (Chan Item)
  deriving DecidableEq, Repr

/-- Why a system is not built, or a step of it is refused. -/
inductive SystemRefusal where
  /-- An instance is bound to a channel the system does not have. -/
  | unboundChannel
  /-- A channel has two producers (R71). -/
  | twoProducers
  /-- A channel has two consumers (R71). -/
  | twoConsumers
  /-- The two instances at a word-side channel have different word widths (R29). -/
  | wordTypeMismatch
  /-- The instance named by the schedule does not exist. -/
  | noInstance
  /-- The step of the instance was refused by its machine. -/
  | step (reason : Refusal)
  deriving DecidableEq, Repr

/-- The instance of a configuration word and its N, or the reason for which there is none (R9, R201). -/
def Inst.ofWord (nMax : Nat) (cw : BitVec 8) (n : Nat) (st : State) (inId outId : Nat) : Except ConfigRefusal Inst :=
  match decode nMax cw n with
  | .ok i => .ok ⟨i, st, inId, outId⟩
  | .error r => .error r

/-- The block of an instance (R81). -/
def Inst.dir (x : Inst) : Dir := x.cfg.dir

/-- The word width of an instance (R85). -/
def Inst.wl (x : Inst) : WordLen := x.cfg.wl

/-- The two instances feed one channel (R71): same block, so the same side, and the same output channel. -/
def Inst.sameOut (x y : Inst) : Bool := x.dir == y.dir && x.outId == y.outId

/-- The two instances read one channel (R71). -/
def Inst.sameIn (x y : Inst) : Bool := x.dir == y.dir && x.inId == y.inId

/-- The output channel of x is the input channel of y (R66). -/
def Inst.feeds (x y : Inst) : Bool := x.dir != y.dir && x.outId == y.inId

/-- The state an instance steps from: its registers and environment with its configuration and its two channels
(R30). -/
def System.load (sys : System) (x : Inst) : Option State :=
  match x.dir with
  | .b2w =>
    match sys.byteChs[x.inId]?, sys.wordChs[x.outId]? with
    | some b, some w => some { x.st with cfg := .ok x.cfg, byteCh := b, wordCh := w }
    | _, _ => none
  | .w2b =>
    match sys.wordChs[x.inId]?, sys.byteChs[x.outId]? with
    | some w, some b => some { x.st with cfg := .ok x.cfg, byteCh := b, wordCh := w }
    | _, _ => none

/-- The system after instance number k, bound as x, has stepped to the state t. -/
def System.store (sys : System) (k : Nat) (x : Inst) (t : State) : System :=
  match x.dir with
  | .b2w =>
    { insts := sys.insts.set k { x with st := t }
      byteChs := sys.byteChs.set x.inId t.byteCh
      wordChs := sys.wordChs.set x.outId t.wordCh }
  | .w2b =>
    { insts := sys.insts.set k { x with st := t }
      byteChs := sys.byteChs.set x.outId t.byteCh
      wordChs := sys.wordChs.set x.inId t.wordCh }

/-- One edge of instance number k (R210): the other instances keep their state. -/
def System.stepInst (sys : System) (k : Nat) : Host.Outcome System Fault SystemRefusal :=
  match sys.insts[k]? with
  | none => .refused .noInstance
  | some x =>
    match sys.load x with
    | none => .refused .unboundChannel
    | some s =>
      match step s with
      | .next t => .next (sys.store k x t)
      | .fault f => .fault f
      | .refused r => .refused (.step r)

/-- A run of the system under a schedule: which instance takes each next edge. Any interleaving is some schedule (R208,
R210). -/
def System.run : List Nat → System → Host.Outcome System Fault SystemRefusal
  | [], sys => .next sys
  | k :: ks, sys =>
    match sys.stepInst k with
    | .next sys' => System.run ks sys'
    | .fault f => .fault f
    | .refused r => .refused r

/-- Some two members of a list, at different places, are related. -/
def anyPair (r : Inst → Inst → Bool) : List Inst → Bool
  | [] => false
  | x :: xs => xs.any (r x) || anyPair r xs

/-- No outside producer has items for the input channel of x, nor drives items on its in_data. -/
def System.noOutsideProducer (sys : System) (x : Inst) : Bool :=
  x.st.script.all (fun e => e.pins.drive.isNone) &&
    match sys.load x, x.dir with
    | some s, .b2w => s.byteCh.waiting.isEmpty
    | some s, .w2b => s.wordCh.waiting.isEmpty
    | none, _ => false

/-- No outside consumer takes from the output channel of x. -/
def Inst.noOutsideConsumer (x : Inst) : Bool := x.st.script.all (fun e => e.take == 0)

/-- A channel of the system has two producers: two instances, or an instance and the outside (R71). -/
def System.twoProducers (sys : System) : Bool :=
  anyPair Inst.sameOut sys.insts ||
    sys.insts.any (fun x => sys.insts.any (fun y => x.feeds y && !sys.noOutsideProducer y))

/-- A channel of the system has two consumers: two instances, or an instance and the outside (R71). -/
def System.twoConsumers (sys : System) : Bool :=
  anyPair Inst.sameIn sys.insts ||
    sys.insts.any (fun x => sys.insts.any (fun y => x.feeds y && !x.noOutsideConsumer))

/-- A word-side channel joins instances of different word widths (R29). -/
def System.widthClash (sys : System) : Bool :=
  sys.insts.any (fun x => x.dir == .b2w && sys.insts.any (fun y => x.feeds y && x.wl != y.wl))

/-- Building a system, or refusing to (R71). -/
def System.build (sys : System) : Except SystemRefusal System :=
  if sys.insts.any (fun x => (sys.load x).isNone) then .error .unboundChannel
  else if sys.twoProducers then .error .twoProducers
  else if sys.twoConsumers then .error .twoConsumers
  else if sys.widthClash then .error .wordTypeMismatch
  else .ok sys

end Sys2Proof.Machine
end

