-- ==== Sys2Proof/Machine/Text.lean ====
section
/-! DEFINITION. The textual syntax of a configuration (R93) with its pseudo-forms (R94), over lists of characters. -/

namespace Sys2Proof.Machine

/-- Why a text is refused: by one of the named reasons of R201, or because the grammar of R93 and the table of R94 derive
no such text. -/
inductive TextRefusal where
  | malformed
  | config (reason : ConfigRefusal)
  deriving DecidableEq, Repr

/-- The parts of a text between separators. -/
def splitAtChar (c : Char) : List Char → List (List Char)
  | [] => [[]]
  | x :: xs =>
    if x = c then [] :: splitAtChar c xs
    else
      match splitAtChar c xs with
      | [] => [[x]]
      | p :: ps => (x :: p) :: ps

/-- The value of a decimal digit. -/
def digitOf (c : Char) : Option Nat :=
  if '0'.toNat ≤ c.toNat ∧ c.toNat ≤ '9'.toNat then some (c.toNat - '0'.toNat) else none

/-- The value of the digits of a text, after those already read. -/
def digitsFrom (acc : Nat) : List Char → Option Nat
  | [] => some acc
  | c :: cs =>
    match digitOf c with
    | none => none
    | some d => digitsFrom (10 * acc + d) cs

/-- A decimal natural number, of at least one digit (R93). -/
def parseNat : List Char → Option Nat
  | [] => none
  | c :: cs => digitsFrom 0 (c :: cs)

/-- `endian ::= "le" | "be"` (R93). -/
def parseEndian (t : List Char) : Option Endian :=
  if t = ['l', 'e'] then some .little
  else if t = ['b', 'e'] then some .big
  else none

/-- `width`: the byte width of one of the four texts of R93. Any other decimal number is a width that is not admitted,
for which 0 bytes stands (R5, R93). -/
def parseWidth (t : List Char) : Option Nat :=
  if t = ['8'] then some 1
  else if t = ['1', '6'] then some 2
  else if t = ['3', '2'] then some 4
  else if t = ['6', '4'] then some 8
  else (parseNat t).map (fun _ => 0)

/-- `sign` and width: "u" or "s", then a width (R93). -/
def parseSignWidth : List Char → Option (Sign × Nat)
  | [] => none
  | c :: cs =>
    if c = 'u' then (parseWidth cs).map (fun k => (.unsigned, k))
    else if c = 's' then (parseWidth cs).map (fun k => (.signed, k))
    else none

/-- The request of a text (R93): DIR from the first word, E from `endian`, S = TS from `sign`, and for b2w
S = 0. -/
def textRequest (d : Dir) (e : Endian) (s : Sign) (bytes n : Nat) : Request where
  dir := d
  endian := e
  sign := match d with
    | .b2w => .unsigned
    | .w2b => s
  type := .integer s bytes
  n := n

/-- The full forms of R93, whose N may be absent and is then 1 (R94). -/
def parseFull (d : Dir) (e sw : List Char) (n : Nat) : Option Request :=
  match parseEndian e, parseSignWidth sw with
  | some en, some (s, w) => some (textRequest d en s w n)
  | _, _ => none

/-- The pseudo-forms of R94, which take no N and stand for N = 1: `b2w.u<W>`, `w2b.u<W>`, `w2b.<W>` and
`w2b.<e>.<W>`. DESIGN CHOICE, safe (log entry 14): `b2w.s<W>`, which neither R93 nor R94 derives or names, requests the
signed type in the same way, so it is refused with R93's reason for `b2w.le.s16`; `w2b.s<W>`, `b2w.<W>` and
`b2w.<e>.<W>`, for which the spec gives no reason either, are malformed. -/
def parsePseudo (parts : List (List Char)) : Option Request :=
  match parts with
  | [blk, t] =>
    if blk = ['b', '2', 'w'] then
      (parseSignWidth t).map (fun p => textRequest .b2w .little p.1 p.2 Config.defaultN)
    else if blk = ['w', '2', 'b'] then
      match parseSignWidth t, parseWidth t with
      | some (.unsigned, w), _ => some (textRequest .w2b .little .unsigned w Config.defaultN)
      | none, some w => some (textRequest .w2b .little .unsigned w Config.defaultN)
      | _, _ => none
    else none
  | [blk, e, t] =>
    if blk = ['w', '2', 'b'] then
      match parseEndian e, parseWidth t with
      | some en, some w => some (textRequest .w2b en .unsigned w Config.defaultN)
      | _, _ => none
    else none
  | _ => none

/-- The request of the head of a text and its optional N (R93, R94). -/
def parseHead (parts : List (List Char)) (n : Option Nat) : Option Request :=
  match parts with
  | [blk, e, sw] =>
    let full :=
      if blk = ['b', '2', 'w'] then parseFull .b2w e sw (n.getD Config.defaultN)
      else if blk = ['w', '2', 'b'] then parseFull .w2b e sw (n.getD Config.defaultN)
      else none
    match full, n with
    | some r, _ => some r
    | none, none => parsePseudo parts
    | none, some _ => none
  | _ =>
    match n with
    | none => parsePseudo parts
    | some _ => none

/-- The request a configuration text names (R93, R94): its head, and after one space its N. -/
def parseRequest (t : List Char) : Option Request :=
  match splitAtChar ' ' t with
  | [head] => parseHead (splitAtChar '.' head) none
  | [head, num] =>
    match parseNat num with
    | some n => parseHead (splitAtChar '.' head) (some n)
    | none => none
  | _ => none

/-- The typed configuration of a configuration text, or its refusal by name (R93, R94, R201). -/
def parseConfig (nMax : Nat) (t : List Char) : Except TextRefusal Instr :=
  match parseRequest t with
  | none => .error .malformed
  | some r =>
    match r.configuration nMax with
    | .error e => .error (.config e)
    | .ok i => .ok i

/-- The first word of a configuration text (R93). -/
def dirText : Dir → List Char
  | .b2w => ['b', '2', 'w']
  | .w2b => ['w', '2', 'b']

/-- `endian` (R93). -/
def endianText : Endian → List Char
  | .little => ['l', 'e']
  | .big => ['b', 'e']

/-- `sign` (R93). -/
def signText : Sign → List Char
  | .unsigned => ['u']
  | .signed => ['s']

/-- `width` (R93). -/
def widthText : WordLen → List Char
  | .k1 => ['8']
  | .k2 => ['1', '6']
  | .k4 => ['3', '2']
  | .k8 => ['6', '4']

/-- The full text of an instruction (R93): block, byte order, type, and N in decimal. -/
def textOf (i : Instr) : List Char :=
  dirText i.dir ++ ['.'] ++ endianText i.endian ++ ['.'] ++ signText i.sign ++ widthText i.wl ++ [' '] ++
    Nat.toDigits 10 i.n

end Sys2Proof.Machine
end

