-- ==== Sys2Proof/Machine/Ports.lean ====
section
/-! DEFINITION. The output and input ports of an instance (R34, R35) as functions of the state: the outputs of the
registers alone (R119, R124), with out_data a free draw while out_valid is 0 (R129). -/

namespace Sys2Proof.Machine

/-- The output ports (R34, R35). A W2B byte on out_data is zero-extended. -/
structure OutPorts where
  idle : Bool
  done : Bool
  inReady : Bool
  outValid : Bool
  outData : Item
  deriving DecidableEq, Repr

/-- The input ports other than clk (R34, R35). A B2W byte on in_data is zero-extended. -/
structure InPorts where
  rst : Bool
  start : Bool
  inValid : Bool
  inData : Option Item
  outReady : Bool
  deriving DecidableEq, Repr

/-- The item out_data carries while out_valid is 1: acc for B2W (R34), the next byte of acc for W2B (R35). -/
def State.outItem (i : Instr) (s : State) : Item :=
  match i.dir with
  | .b2w => toItem i.wl (s.accW i.wl)
  | .w2b => ofByte (emitW2B i.endian (s.accW i.wl))

/-- The free draw of out_data in this cycle, of the port's width: W bits for B2W, 8 bits for W2B (R129). -/
def State.freeOut (i : Instr) (s : State) : Item :=
  match i.dir with
  | .b2w => toItem i.wl (ofItem i.wl (Config.freeOutData s.tick))
  | .w2b => ofByte (toByte (Config.freeOutData s.tick))

/-- The output ports of an instance configured as i (R34, R35, R129). -/
def State.outPorts (i : Instr) (s : State) : OutPorts where
  idle := s.idle
  done := s.done
  inReady := s.inReady
  outValid := s.outValid
  outData := if s.outValid then s.outItem i else s.freeOut i

/-- The input ports as the environment drives them at the present edge (R34, R35, R120). -/
def State.inPorts (i : Instr) (s : State) : InPorts where
  rst := s.pins.rst
  start := s.pins.start
  inValid := s.inValid i.dir
  inData := (s.inData i.dir).map (fun v => toItem i.wl (ofItem i.wl v))
  outReady := s.outReady i.dir

/-- A transfer happens on the input port at the present edge: valid and ready are both 1 (R120). -/
def State.transferIn (i : Instr) (s : State) : Bool := s.inValid i.dir && s.inReady

/-- A transfer happens on the output port at the present edge: valid and ready are both 1 (R120). -/
def State.transferOut (i : Instr) (s : State) : Bool := s.outValid && s.outReady i.dir

end Sys2Proof.Machine
end

