-- ==== Sys2Proof/Machine/Transaction.lean ====
section
/-! DEFINITION. The transaction level, which is the normative one (R110 to R118): the four events of R117, when each is
enabled and what it does. It knows channels, a start request and a reset request, and no handshake. -/

namespace Sys2Proof.Machine

/-- The events of R117. -/
inductive TxEvent where
  | start
  | read
  | write
  | reset
  deriving DecidableEq, Repr

/-- When an event is enabled (R117): Start in IDLE when the controller requests an invocation, Read in RD when the input
channel is non-empty or the producer drives an item, Write in WR when the output channel has room, Reset when the controller asserts it. -/
def txEnabled (i : Instr) (s : State) (ev : TxEvent) : Bool :=
  match ev with
  | .start => s.idle && s.pins.start
  | .read => s.inReady && (s.inHead i.dir).isSome
  | .write => s.outValid && s.outRoom i.dir
  | .reset => s.pins.rst

/-- The rows of an instruction's family (R148, R178). -/
def row (i : Instr) (ev : Event) (s : State) : Result :=
  match i.dir with
  | .b2w => b2wRow i.endian i.wl i.n ev s
  | .w2b => w2bRow i.endian i.wl i.n ev s

/-- The event with the item it moves: the item available to the read, or the item written (R117). -/
def txItem (i : Instr) (s : State) (ev : TxEvent) : Option Event :=
  match ev with
  | .start => some .start
  | .read => (s.inHead i.dir).map .read
  | .write => some (.write (s.outItem i))
  | .reset => none

/-- One transaction-level step (R117): `none` when the event is not enabled. -/
def txStep (i : Instr) (ev : TxEvent) (s : State) : Option Result :=
  if txEnabled i s ev then
    match txItem i s ev with
    | some e => some (row i e (s.move i.dir e))
    | none => some (.next s.resetRegs)
  else none

/-- No event other than Reset is enabled: the instance is stalled, or idle with no request (R117, R202, R203). -/
def txNone (i : Instr) (s : State) : Bool :=
  !txEnabled i s .start && !txEnabled i s .read && !txEnabled i s .write

/-- The step carries the Done label: it is the Start of an empty burst or the last Write of a burst (R117, R130). -/
def txDone (i : Instr) (s : State) (ev : TxEvent) : Bool :=
  match ev with
  | .start => txEnabled i s .start && i.n == 0
  | .write =>
    txEnabled i s .write && s.i + 1 == i.n &&
      (match i.dir with
        | .b2w => true
        | .w2b => s.j + 1 == i.wl.bytes)
  | .read => false
  | .reset => false

end Sys2Proof.Machine
end

