-- ==== Sys2Proof/Machine/Trace.lean ====
section
/-! DEFINITION. The run of an instance as the sequence of its invocations and resets (R130): the labels of its edges in
order, with the items they transfer (R133). -/

namespace Sys2Proof.Machine

/-- What an edge shows of a run (R117, R130, R133): its event, the end of an invocation, and reset. -/
inductive Label where
  | event (ev : Event)
  | done
  | reset
  deriving DecidableEq, Repr

/-- The edge ends an invocation: it is without reset, and the step labelled Done (R117, R122, R130). At a reset edge the
Done label of the transfer is dropped (R127). -/
def edgeEnds (i : Instr) (s : State) : Bool :=
  !s.pins.rst && (txDone i s .start || (s.transferOut i && txDone i s .write))

/-- The labels of one edge, in the order of R117 and R127. -/
def edgeLabels (i : Instr) (s : State) : List Label :=
  ((s.eventAt i.dir (s.outItem i)).toList.map .event) ++
    (if edgeEnds i s then [.done] else []) ++ (if s.pins.rst then [.reset] else [])

/-- The labels of the first k steps of the run of an instance configured as i (R130). -/
def runLabels (i : Instr) : Nat → State → List Label
  | 0, _ => []
  | k + 1, s =>
    edgeLabels i (s.present i.dir) ++
      match step s with
      | .next t => runLabels i k t
      | .fault _ => []
      | .refused _ => []

/-- The items of the in-side transfers of a run, in edge order (R133). -/
def readItems (ls : List Label) : List Item :=
  ls.filterMap (fun l => match l with
    | .event (.read v) => some v
    | _ => none)

/-- The items of the out-side transfers of a run, in edge order (R133). -/
def writeItems (ls : List Label) : List Item :=
  ls.filterMap (fun l => match l with
    | .event (.write v) => some v
    | _ => none)

/-- How many invocations a run starts (R121, R130). -/
def startCount (ls : List Label) : Nat := ls.count (.event .start)

/-- How many invocations of a run end (R122, R130). -/
def doneCount (ls : List Label) : Nat := ls.count .done

end Sys2Proof.Machine
end

