-- ==== Sys2Proof/Safety.lean ====
section
/-! DEFINITION. The terms in which claims are made: the ranges of R20, the invariant a run keeps, stalls (R202, R203,
R211), finished runs (R130), and an environment without reset. -/

namespace Sys2Proof.Machine

/-- A reset edge has come since power-up (R233), the counters are in the ranges of R20, an invocation in progress is of a burst that is not empty, the byte index is 0
wherever R148 and R178 leave it 0, and done is seen only in IDLE (R20, R118, R122). -/
def State.InRange (i : Instr) (s : State) : Prop :=
  s.unreset = none ∧ s.i < max i.n 1 ∧ s.j < i.wl.bytes ∧
    (s.phase ≠ .idle → 0 < i.n) ∧
    (i.dir = .b2w → s.phase = .wr → s.j = 0) ∧
    (i.dir = .w2b → s.phase = .rd → s.j = 0) ∧
    (s.doneR = true → s.phase = .idle)

/-- The accumulator and every item of the word side are W-bit patterns (R22, R29). -/
def State.Fits (i : Instr) (s : State) : Prop :=
  fits i.wl s.acc = true ∧
    (∀ v ∈ s.wordCh.items, fits i.wl v = true) ∧
    (∀ v ∈ s.wordCh.waiting, fits i.wl v = true) ∧
    (∀ v ∈ s.wordCh.taken, fits i.wl v = true)

/-- A channel is within its capacity, and the capacity is at least 1 or unbounded (R70, D19). -/
def Chan.InCap {α : Type} (c : Chan α) : Prop :=
  ∀ k, c.cap = some k → 1 ≤ k ∧ c.items.length ≤ k

/-- The invariant under a legal configuration (R20, R22, R29, R70). -/
def State.InvFor (i : Instr) (s : State) : Prop :=
  s.InRange i ∧ s.Fits i ∧ s.byteCh.InCap ∧ s.wordCh.InCap

/-- The invariant of a run: the configuration has an instance (R201) and its state is one R20 allows. -/
def State.Inv (s : State) : Prop :=
  ∃ i, s.cfg = .ok i ∧ s.InvFor i

/-- The instance is stalled (R202, R203, R211): in RD with no item to read, or in WR with no room in the output
channel. -/
def State.Stalled (i : Instr) (s : State) : Prop :=
  (s.phase = .rd ∧ s.inHead i.dir = none) ∨ (s.phase = .wr ∧ s.outRoom i.dir = false)

/-- The environment asserts reset at no edge to come. -/
def State.NoReset (s : State) : Prop := ∀ e ∈ s.script, e.pins.rst = false

/-- The producer of every edge to come presents nothing but the input channel's items. -/
def State.NoDrive (s : State) : Prop := ∀ e ∈ s.script, e.pins.drive = none

/-- What an edge never changes: the configuration with its bound (R21), the ports and the environment's script, and
the count of cycles. -/
def State.SameOutside (s t : State) : Prop :=
  t.cfg = s.cfg ∧ t.pins = s.pins ∧ t.script = s.script ∧ t.tick = s.tick

/-- The registers of R20 are equal. -/
def State.SameRegs (s t : State) : Prop :=
  t.acc = s.acc ∧ t.phase = s.phase ∧ t.i = s.i ∧ t.j = s.j ∧ t.doneR = s.doneR

/-- Every byte still to reach the instance, in order: the byte channel's items, then its producer's (R63). -/
def State.bytesAhead (s : State) : List Byte := s.byteCh.items ++ s.byteCh.waiting

/-- Every word still to reach the instance, in order. -/
def State.wordsAhead (s : State) : List Item := s.wordCh.items ++ s.wordCh.waiting

/-- Every word that has been written to the word channel and is not read by an instance, in order: those its consumer took,
then those it holds (R63). -/
def State.wordsOut (s : State) : List Item := s.wordCh.taken ++ s.wordCh.items

/-- Every byte that has been written to the byte channel and is not read by an instance, in order. -/
def State.bytesOut (s : State) : List Byte := s.byteCh.taken ++ s.byteCh.items

/-- An instance right after reset with the given configuration, whose controller requests one invocation at its first
edge (R235). -/
def State.starter (i : Instr) : State :=
  { State.reset with cfg := .ok i, script := [⟨⟨false, true, true, true, none⟩, 0, 0⟩] }

/-- A W2B instance whose byte channel feeds a B2W instance of the same byte order, width and length (R66, R179), with the
words to carry in its input channel. -/
def System.roundTrip (e : Endian) (sign : Sign) (wl : WordLen) (b : BurstLen) (ws : List Item) : System where
  insts :=
    let i := Instr.ofFields .w2b e sign wl b
    let j := Instr.ofFields .b2w e .unsigned wl b
    [⟨i, .starter i, 0, 0⟩, ⟨j, .starter j, 0, 1⟩]
  byteChs := [.empty]
  wordChs := [{ Chan.empty with items := ws }, .empty]

/-- k steps of the machine from s answer t. -/
def Reaches (k : Nat) (s t : State) : Prop := Sys2Proof.core.run k s = .next t

/-- The run of k steps from s, observed up to t, is finished (R130): it begins after a reset edge and in IDLE,
with no invocation in progress, the instance is in IDLE, and every invocation the run started has ended. One that a reset aborted has not. -/
def RunFinished (i : Instr) (k : Nat) (s t : State) : Prop :=
  s.unreset = none ∧ s.phase = .idle ∧ Reaches k s t ∧ t.phase = .idle ∧
    startCount (runLabels i k s) = doneCount (runLabels i k s)

end Sys2Proof.Machine
end

