-- ==== Sys2Proof/Certificates/Slice0/Obligations.lean ====
section
/-! DEFINITION. The statements for the provers, in the order of OBLIGATIONS.json. -/

open Sys2Proof Sys2Proof.Machine

/-! ### The configuration word -/

/-- Decode and encode agree (R87, R88, R91): a configuration decodes to an instruction exactly when that
instruction was built under the same bound and the configuration is its encoding, with every operand at every value. -/
def Obligations.DecodeIffEncode : Prop :=
  ∀ (nMax : Nat) (cw : BitVec 8) (n : Nat) (i : Instr),
    decode nMax cw n = .ok i ↔ i.nMax = nMax ∧ encode i = (cw, n)

/-- R89: an illegal configuration is refused by the first reason that applies, in R89's order; and of the 256 words 24 are
legal, 192 have RSV ≠ 0, 24 are B2W words with S or TS set and 16 are W2B words with S ≠ TS. That every step of a
machine built with an illegal configuration is refused with the reason, a reset edge among them, is no rule of the spec:
it is the model's reading of R201, log entry 16 (DEDUCED). -/
def Obligations.IllegalConfigurationsRefusedInOrder : Prop :=
  (∀ (nMax : Nat) (cw : BitVec 8) (n : Nat),
    (decode nMax cw n = .error .reservedBits ↔ cw &&& 0xC0#8 ≠ 0#8) ∧
    (decode nMax cw n = .error .b2wSignedType ↔
      cw &&& 0xC0#8 = 0#8 ∧ cw.getLsbD 0 = false ∧ cw.getLsbD 3 = true) ∧
    (decode nMax cw n = .error .b2wSignednessParam ↔
      cw &&& 0xC0#8 = 0#8 ∧ cw.getLsbD 0 = false ∧ cw.getLsbD 3 = false ∧ cw.getLsbD 2 = true) ∧
    (decode nMax cw n = .error .w2bTypeMismatch ↔
      cw &&& 0xC0#8 = 0#8 ∧ cw.getLsbD 0 = true ∧ cw.getLsbD 2 ≠ cw.getLsbD 3) ∧
    (decode nMax cw n = .error .burstTooLong ↔ legal cw = true ∧ nMax < n) ∧
    ((∃ i, decode nMax cw n = .ok i) ↔ legal cw = true ∧ n ≤ nMax)) ∧
  (∀ (s : State) (nMax : Nat) (cw : BitVec 8) (n : Nat) (r : ConfigRefusal), decode nMax cw n = .error r →
    step (s.instantiate nMax cw n) = .refused (.config r)) ∧
  ((List.range 256).filter (fun w => legal (BitVec.ofNat 8 w))).length = 24 ∧
  ((List.range 256).filter (fun w => BitVec.ofNat 8 w &&& 0xC0#8 != 0#8)).length = 192 ∧
  ((List.range 256).filter (fun w => BitVec.ofNat 8 w &&& 0xC1#8 == 0#8 &&
    BitVec.ofNat 8 w &&& 0x0C#8 != 0#8)).length = 24 ∧
  ((List.range 256).filter (fun w => BitVec.ofNat 8 w &&& 0xC1#8 == 1#8 &&
    (BitVec.ofNat 8 w).getLsbD 2 != (BitVec.ofNat 8 w).getLsbD 3)).length = 16

/-- The rows of R91: a configuration whose N is within the bound decodes exactly when CW & 0xCF is a row's match, and then
to that row's instruction with the WL field's width. -/
def Obligations.DecoderFollowsOpcodeRows : Prop :=
  ∀ (nMax : Nat) (cw : BitVec 8) (n : Nat) (h : n ≤ nMax),
    (cw &&& 0xCF#8 = 0x00#8 ↔ decode nMax cw n = .ok (.b2wLe (cwWl cw) ⟨nMax, n, h⟩)) ∧
    (cw &&& 0xCF#8 = 0x02#8 ↔ decode nMax cw n = .ok (.b2wBe (cwWl cw) ⟨nMax, n, h⟩)) ∧
    (cw &&& 0xCF#8 = 0x01#8 ↔ decode nMax cw n = .ok (.w2bULe (cwWl cw) ⟨nMax, n, h⟩)) ∧
    (cw &&& 0xCF#8 = 0x03#8 ↔ decode nMax cw n = .ok (.w2bUBe (cwWl cw) ⟨nMax, n, h⟩)) ∧
    (cw &&& 0xCF#8 = 0x0D#8 ↔ decode nMax cw n = .ok (.w2bSLe (cwWl cw) ⟨nMax, n, h⟩)) ∧
    (cw &&& 0xCF#8 = 0x0F#8 ↔ decode nMax cw n = .ok (.w2bSBe (cwWl cw) ⟨nMax, n, h⟩)) ∧
    ((∃ r, decode nMax cw n = .error r) ↔
      cw &&& 0xCF#8 ∉ [0x00#8, 0x02#8, 0x01#8, 0x03#8, 0x0D#8, 0x0F#8])

/-- Words written out from R91's encodings decode to the instructions they stand for. -/
def Obligations.WrittenOutWordsDecode : Prop :=
  decode 9 0b00000000#8 3 = .ok (.b2wLe .k1 ⟨9, 3, by decide⟩) ∧
  decode 9 0b00010010#8 9 = .ok (.b2wBe .k2 ⟨9, 9, by decide⟩) ∧
  decode 9 0b00100001#8 0 = .ok (.w2bULe .k4 ⟨9, 0, by decide⟩) ∧
  decode 9 0b00110011#8 1 = .ok (.w2bUBe .k8 ⟨9, 1, by decide⟩) ∧
  decode 9 0b00011101#8 2 = .ok (.w2bSLe .k2 ⟨9, 2, by decide⟩) ∧
  decode 9 0b00111111#8 4 = .ok (.w2bSBe .k8 ⟨9, 4, by decide⟩)

/-- An instantiation request has a configuration exactly when it is well formed (R87, R88, R90, R5), and that configuration
is of the requested block, byte order, signedness, width and N under the requested bound. That nonIntegerType and then
widthNotAdmitted are the reasons given whatever else is wrong with the request, before R89's five reasons, is no rule of
the spec: it is the model's choice, log entry 3 (DESIGN CHOICE). -/
def Obligations.RequestInstantiatesIffWellFormed : Prop :=
  ∀ (nMax : Nat) (r : Request),
    ((∃ i, r.configuration nMax = .ok i) ↔ r.wf nMax = true) ∧
    (r.type = .nonInteger → r.configuration nMax = .error .nonIntegerType) ∧
    (∀ ts bytes, r.type = .integer ts bytes → bytes ∉ [1, 2, 4, 8] →
      r.configuration nMax = .error .widthNotAdmitted) ∧
    (∀ i, r.configuration nMax = .ok i →
      i.dir = r.dir ∧ i.endian = r.endian ∧ i.sign = r.sign ∧ r.type = .integer i.sign i.wl.bytes ∧ i.n = r.n ∧
        i.nMax = nMax)

/-- The textual form of R93: under any bound that admits its N, every instruction's text names a configuration with the
instruction's own configuration word and N, and under the bound it was built with the instruction itself. -/
def Obligations.TextNamesItsConfiguration : Prop :=
  ∀ (nMax : Nat) (i : Instr), i.wf nMax = true →
    (∃ j, parseConfig nMax (textOf i) = .ok j ∧ encode j = encode i ∧ j.nMax = nMax) ∧
    parseConfig i.nMax (textOf i) = .ok i

/-- The pseudo-forms of R94 expand to their full forms with N = 1. -/
def Obligations.PseudoFormsExpand : Prop :=
  ∀ (nMax : Nat) (wl : WordLen) (e : Endian) (s : Sign) (h : 1 ≤ nMax),
    parseConfig nMax (dirText .b2w ++ ['.'] ++ signText .unsigned ++ widthText wl) =
      .ok (.b2wLe wl ⟨nMax, 1, h⟩) ∧
    parseConfig nMax (dirText .b2w ++ ['.'] ++ endianText e ++ ['.'] ++ signText .unsigned ++ widthText wl) =
      .ok (Instr.ofFields .b2w e .unsigned wl ⟨nMax, 1, h⟩) ∧
    parseConfig nMax (dirText .w2b ++ ['.'] ++ signText .unsigned ++ widthText wl) =
      .ok (.w2bULe wl ⟨nMax, 1, h⟩) ∧
    parseConfig nMax (dirText .w2b ++ ['.'] ++ widthText wl) = .ok (.w2bULe wl ⟨nMax, 1, h⟩) ∧
    parseConfig nMax (dirText .w2b ++ ['.'] ++ endianText e ++ ['.'] ++ widthText wl) =
      .ok (Instr.ofFields .w2b e .unsigned wl ⟨nMax, 1, h⟩) ∧
    parseConfig nMax (dirText .w2b ++ ['.'] ++ endianText e ++ ['.'] ++ signText s ++ widthText wl) =
      .ok (Instr.ofFields .w2b e s wl ⟨nMax, 1, h⟩)

/-! ### The accumulator -/

/-- R143, for every K: after t little-endian steps from any start value the accumulator is the start value shifted
right by 8t bits, with the bytes read above it; after K steps it is the sum of b_s · 2^(8s), so byte s sits in
lane s.
The spec marks this law, R143, as derived: an inference from its rules. -/
def Obligations.LittleEndianAccumulator : Prop :=
  ∀ (k : Nat) (a0 : BitVec (8 * k)) (bs : List Byte), bs.length ≤ k →
    assemble .little a0 bs =
      (a0 >>> (8 * bs.length)) ||| BitVec.ofNat (8 * k)
        (∑ s ∈ Finset.range bs.length, (bs.getD s 0#8).toNat * 2 ^ (8 * k - 8 * bs.length + 8 * s)) ∧
    (bs.length = k →
      (assemble .little a0 bs).toNat = ∑ s ∈ Finset.range k, (bs.getD s 0#8).toNat * 2 ^ (8 * s) ∧
      ∀ s < k, laneByte (assemble .little a0 bs) (lane .little k s) = bs.getD s 0#8)

/-- R144, for every K: after t big-endian steps from any start value the accumulator is the start value shifted left by 8t
bits and cut to W bits, with the bytes read below it; after K steps byte s sits in lane K - 1 - s.
The spec marks this law, R144, as derived: an inference from its rules. -/
def Obligations.BigEndianAccumulator : Prop :=
  ∀ (k : Nat) (a0 : BitVec (8 * k)) (bs : List Byte), bs.length ≤ k →
    assemble .big a0 bs =
      (a0 <<< (8 * bs.length)) ||| BitVec.ofNat (8 * k)
        (∑ s ∈ Finset.range bs.length, (bs.getD s 0#8).toNat * 2 ^ (8 * (bs.length - 1 - s))) ∧
    (bs.length = k →
      (assemble .big a0 bs).toNat = ∑ s ∈ Finset.range k, (bs.getD s 0#8).toNat * 2 ^ (8 * (k - 1 - s)) ∧
      ∀ s < k, laneByte (assemble .big a0 bs) (lane .big k s) = bs.getD s 0#8)

/-- R145: the word assembled does not depend on what the accumulator held before its first byte.
The spec marks this law, R145, as derived: an inference from its rules. -/
def Obligations.WordIgnoresStartValue : Prop :=
  ∀ (k : Nat) (e : Endian) (a0 a1 : BitVec (8 * k)) (bs : List Byte), bs.length = k →
    assemble e a0 bs = assemble e a1 bs

/-- R175, for every K: after t emissions the accumulator is the word shifted by 8t bits, and the t-th byte emitted is the
lane of R54.
The spec marks this law, R175, as derived: an inference from its rules. -/
def Obligations.EmissionFollowsLanes : Prop :=
  ∀ (k : Nat) (w : BitVec (8 * k)) (t : Nat), t ≤ k →
    shiftTimes .little t w = w >>> (8 * t) ∧ shiftTimes .big t w = w <<< (8 * t) ∧
    (t < k → ∀ e : Endian,
      emitW2B e (shiftTimes e t w) = laneByte w (lane e k t) ∧
      (emitBytes e k w)[t]? = some (laneByte w (lane e k t)))

/-- R177: after the K-th shift of a word the accumulator is 0 in both byte orders, and for K = 1 the one byte emitted is
the word itself.
The spec marks this law, R177, as derived: an inference from its rules. -/
def Obligations.EmissionDrainsAccumulator : Prop :=
  (∀ (k : Nat) (e : Endian) (w : BitVec (8 * k)), shiftTimes e k w = 0#(8 * k)) ∧
  (∀ (e : Endian) (w : BitVec (8 * 1)), emitBytes e 1 w = [w])

/-- R150: for K = 1 the accumulator after the one byte is that byte, in both byte orders and from any start value.
The spec marks this law, R150, as derived: an inference from its rules. -/
def Obligations.SingleByteWordIsPassThrough : Prop :=
  ∀ (e : Endian) (a0 : BitVec (8 * 1)) (b : Byte),
    assemble e a0 [b] = b ∧ b2wWord e .k1 [b] = ofByte b

/-- R180: the little-endian byte sequence of a word is the exact reverse of its big-endian one.
The spec marks this law, R180, as derived: an inference from its rules. -/
def Obligations.EndiannessSymmetry : Prop :=
  ∀ (k : Nat) (w : BitVec (8 * k)), emitBytes .little k w = (emitBytes .big k w).reverse

/-- R179: W2B and then B2W with the same byte order, width and length give the words back exactly; a signed word comes back
as its pattern, which reads as the word.
The spec marks this law, R179, as derived: an inference from its rules. -/
def Obligations.RoundTripGivesWordsBack : Prop :=
  (∀ (e : Endian) (wl : WordLen) (ws : List Item), (∀ v ∈ ws, fits wl v = true) →
    ∃ bs, w2bBurst e wl ws.length ws = some (bs, []) ∧ b2wBurst e wl ws.length bs = some (ws, [])) ∧
  (∀ (e : Endian) (wl : WordLen) (vs : List Int),
    (∀ v ∈ vs, -(2 ^ (wl.bits - 1) : Int) ≤ v ∧ v < (2 ^ (wl.bits - 1) : Int)) →
    ∃ bs, w2bBurst e wl vs.length (vs.map (patternW wl)) = some (bs, []) ∧
      b2wBurst e wl vs.length bs = some (vs.map (patternW wl), []) ∧
      (vs.map (patternW wl)).map (signedOf wl) = vs)

/-- The counts of R53 and the starvation of R202 at the level of an invocation: a burst of N words is exactly N·K bytes, what
lies beyond stays in the channel in order, and a shorter supply gives no burst. -/
def Obligations.BurstMovesExactCounts : Prop :=
  (∀ (e : Endian) (wl : WordLen) (n : Nat) (bs : List Byte),
    (bs.length < n * wl.bytes → b2wBurst e wl n bs = none) ∧
    (n * wl.bytes ≤ bs.length → ∃ ws, b2wBurst e wl n bs = some (ws, bs.drop (n * wl.bytes)) ∧ ws.length = n)) ∧
  (∀ (e : Endian) (wl : WordLen) (n : Nat) (ws : List Item),
    (ws.length < n → w2bBurst e wl n ws = none) ∧
    (n ≤ ws.length → ∃ bs, w2bBurst e wl n ws = some (bs, ws.drop n) ∧ bs.length = n * wl.bytes))

/-- R54: the byte at position p of the byte stream is lane(E, K, p mod K) of word p div K, reading bytes into words and
writing words as bytes alike.
The spec marks this law, R54 (its agreement with the algorithms), as derived: an inference from its rules. -/
def Obligations.StreamPositionSelectsLane : Prop :=
  (∀ (e : Endian) (wl : WordLen) (n : Nat) (bs : List Byte) (p : Nat), n * wl.bytes ≤ bs.length →
    p < n * wl.bytes →
    ((wordsOf e wl n bs)[p / wl.bytes]?).map
        (fun v => laneByte (ofItem wl v) (lane e wl.bytes (p % wl.bytes))) = bs[p]?) ∧
  (∀ (e : Endian) (wl : WordLen) (ws : List Item) (p : Nat),
    (bytesOf e wl ws)[p]? =
      (ws[p / wl.bytes]?).map (fun v => laneByte (ofItem wl v) (lane e wl.bytes (p % wl.bytes))))

/-- The endianness-mismatch hazard of R237: words written in one byte order and read back in the other come back with
their bytes reversed.
The spec marks this law, R237, as derived: an inference from its rules. -/
def Obligations.EndiannessMismatchReversesBytes : Prop :=
  ∀ (e e' : Endian) (wl : WordLen) (v : Item), e ≠ e' →
    w2bBytes e wl (b2wWord e' wl (w2bBytes e wl v)) = (w2bBytes e wl v).reverse

/-- The corner cases of R173, R174 and R141: the bytes of the signed words -1, -2^(W-1) and 2^(W-1) - 1, and the words of K
bytes 0x00 and of K bytes 0xFF, for every width. -/
def Obligations.CornerWordsAndBytes : Prop :=
  ∀ (e : Endian) (wl : WordLen),
    w2bBytes e wl (patternW wl (-1)) = List.replicate wl.bytes 0xFF#8 ∧
    w2bBytes .little wl (patternW wl (-(2 ^ (wl.bits - 1)))) = List.replicate (wl.bytes - 1) 0x00#8 ++ [0x80#8] ∧
    w2bBytes .big wl (patternW wl (-(2 ^ (wl.bits - 1)))) = 0x80#8 :: List.replicate (wl.bytes - 1) 0x00#8 ∧
    w2bBytes .little wl (patternW wl (2 ^ (wl.bits - 1) - 1)) = List.replicate (wl.bytes - 1) 0xFF#8 ++ [0x7F#8] ∧
    w2bBytes .big wl (patternW wl (2 ^ (wl.bits - 1) - 1)) = 0x7F#8 :: List.replicate (wl.bytes - 1) 0xFF#8 ∧
    unsignedOf wl (b2wWord e wl (List.replicate wl.bytes 0x00#8)) = 0 ∧
    unsignedOf wl (b2wWord e wl (List.replicate wl.bytes 0xFF#8)) = 2 ^ wl.bits - 1

/-- R60 and R53: an invocation begins at the channel's head, where the one before it ended. A burst of n + m words is a burst
of n words and then one of m words on what is left. -/
def Obligations.ConsecutiveBurstsSplitTheStream : Prop :=
  (∀ (e : Endian) (wl : WordLen) (n m : Nat) (bs : List Byte),
    b2wBurst e wl (n + m) bs =
      (b2wBurst e wl n bs).bind (fun p => (b2wBurst e wl m p.2).map (fun q => (p.1 ++ q.1, q.2)))) ∧
  (∀ (e : Endian) (wl : WordLen) (n m : Nat) (ws : List Item),
    w2bBurst e wl (n + m) ws =
      (w2bBurst e wl n ws).bind (fun p => (w2bBurst e wl m p.2).map (fun q => (p.1 ++ q.1, q.2))))

/-- The channel primitives of R111 and R112: a read stalls exactly on an empty channel and else removes and returns the head,
a write stalls exactly on a full channel and else appends. -/
def Obligations.ChannelPrimitivesBlock : Prop :=
  ∀ (α : Type) (c : Chan α) (v : α),
    (c.read = none ↔ c.items = []) ∧
    (∀ rest, c.items = v :: rest → c.read = some (v, { c with items := rest })) ∧
    (c.write v = none ↔ ∃ k, c.cap = some k ∧ k ≤ c.items.length) ∧
    ((∀ k, c.cap = some k → c.items.length < k) → c.write v = some { c with items := c.items ++ [v] })

/-! ### One edge of an instance -/

/-- R148, every row of the B2W state machine, for B2W.LE and B2W.BE: the whole next state of an edge without reset. The
byte b read is the byte channel's head, or, while the channel is empty, the byte the producer drives (R120). -/
def Obligations.B2wStateMachine : Prop :=
  ∀ (i : Instr) (s : State), i.dir = .b2w → s.unreset = none → s.pins.rst = false →
    (s.phase = .idle → s.pins.start = false → exec i s = .next { s with doneR := false }) ∧
    (s.phase = .idle → s.pins.start = true → i.n = 0 → exec i s = .next { s with doneR := true }) ∧
    (s.phase = .idle → s.pins.start = true → 0 < i.n →
      exec i s = .next { s with phase := .rd, i := 0, j := 0, acc := 0#64, doneR := false }) ∧
    (s.phase = .rd → s.inValid .b2w = false → exec i s = .next { s with doneR := false }) ∧
    (∀ b, s.phase = .rd → s.inValid .b2w = true → s.inHead .b2w = some (ofByte b) → s.j + 1 < i.wl.bytes →
      exec i s = .next { s with
        byteCh := { s.byteCh with items := s.byteCh.items.tail }
        acc := toItem i.wl (stepB2W i.endian (ofItem i.wl s.acc) b), j := s.j + 1, doneR := false }) ∧
    (∀ b, s.phase = .rd → s.inValid .b2w = true → s.inHead .b2w = some (ofByte b) → s.j + 1 = i.wl.bytes →
      exec i s = .next { s with
        byteCh := { s.byteCh with items := s.byteCh.items.tail }
        acc := toItem i.wl (stepB2W i.endian (ofItem i.wl s.acc) b), j := 0, phase := .wr, doneR := false }) ∧
    (s.phase = .wr → s.outReady .b2w = false → exec i s = .next { s with doneR := false }) ∧
    (s.phase = .wr → s.outReady .b2w = true → fits i.wl s.acc = true → s.i + 1 < i.n →
      exec i s = .next { s with
        wordCh := { s.wordCh with items := s.wordCh.items ++ [s.acc] }
        i := s.i + 1, acc := 0#64, phase := .rd, doneR := false }) ∧
    (s.phase = .wr → s.outReady .b2w = true → fits i.wl s.acc = true → s.i + 1 = i.n →
      exec i s = .next { s with
        wordCh := { s.wordCh with items := s.wordCh.items ++ [s.acc] }
        phase := .idle, doneR := true })

/-- R178, every row of the W2B state machine, for W2B.U.LE, W2B.U.BE, W2B.S.LE and W2B.S.BE: the whole next state of an edge
without reset. The word v read is the word channel's head, or, while the channel is empty, the word the producer drives
(R120); acc takes its W bits. -/
def Obligations.W2bStateMachine : Prop :=
  ∀ (i : Instr) (s : State), i.dir = .w2b → s.unreset = none → s.pins.rst = false →
    (s.phase = .idle → s.pins.start = false → exec i s = .next { s with doneR := false }) ∧
    (s.phase = .idle → s.pins.start = true → i.n = 0 → exec i s = .next { s with doneR := true }) ∧
    (s.phase = .idle → s.pins.start = true → 0 < i.n →
      exec i s = .next { s with phase := .rd, i := 0, j := 0, doneR := false }) ∧
    (s.phase = .rd → s.inValid .w2b = false → exec i s = .next { s with doneR := false }) ∧
    (∀ v, s.phase = .rd → s.inValid .w2b = true → s.inHead .w2b = some v →
      exec i s = .next { s with
        wordCh := { s.wordCh with items := s.wordCh.items.tail }
        acc := toItem i.wl (ofItem i.wl v), j := 0, phase := .wr, doneR := false }) ∧
    (s.phase = .wr → s.outReady .w2b = false → exec i s = .next { s with doneR := false }) ∧
    (s.phase = .wr → s.outReady .w2b = true → s.j + 1 < i.wl.bytes →
      exec i s = .next { s with
        byteCh := { s.byteCh with items := s.byteCh.items ++ [emitW2B i.endian (ofItem i.wl s.acc)] }
        acc := toItem i.wl (shiftW2B i.endian (ofItem i.wl s.acc)), j := s.j + 1, doneR := false }) ∧
    (s.phase = .wr → s.outReady .w2b = true → s.j + 1 = i.wl.bytes → s.i + 1 < i.n →
      exec i s = .next { s with
        byteCh := { s.byteCh with items := s.byteCh.items ++ [emitW2B i.endian (ofItem i.wl s.acc)] }
        acc := toItem i.wl (shiftW2B i.endian (ofItem i.wl s.acc)), j := 0, i := s.i + 1, phase := .rd,
        doneR := false }) ∧
    (s.phase = .wr → s.outReady .w2b = true → s.j + 1 = i.wl.bytes → s.i + 1 = i.n →
      exec i s = .next { s with
        byteCh := { s.byteCh with items := s.byteCh.items ++ [emitW2B i.endian (ofItem i.wl s.acc)] }
        acc := toItem i.wl (shiftW2B i.endian (ofItem i.wl s.acc)), phase := .idle, doneR := true })

/-- R126 with R33's values, for every instruction and in every state, whatever the phase, start and the handshakes are, and
whether or not a reset edge has come before: at a reset edge the registers take their reset values; and a handshake of that
edge still moves its item (R127), but at the first reset edge after power-up, where transfers are outside every claim
(R233). -/
def Obligations.ResetEdgeOverridesEveryUpdate : Prop :=
  ∀ (i : Instr) (s : State), s.pins.rst = true →
    ∃ t, exec i s = .next t ∧
      t.phase = .idle ∧ t.acc = 0#64 ∧ t.i = 0 ∧ t.j = 0 ∧ t.doneR = false ∧ t.unreset = none ∧ s.SameOutside t ∧
      (s.unreset = none →
      (s.transferIn i = false → s.transferOut i = false → t.byteCh = s.byteCh ∧ t.wordCh = s.wordCh) ∧
      (i.dir = .b2w → s.transferIn i = true →
        t.byteCh = { s.byteCh with items := s.byteCh.items.tail } ∧ t.wordCh = s.wordCh) ∧
      (i.dir = .b2w → s.transferOut i = true →
        t.byteCh = s.byteCh ∧ t.wordCh = { s.wordCh with items := s.wordCh.items ++ [(s.outPorts i).outData] }) ∧
      (i.dir = .w2b → s.transferIn i = true →
        t.wordCh = { s.wordCh with items := s.wordCh.items.tail } ∧ t.byteCh = s.byteCh) ∧
      (i.dir = .w2b → s.transferOut i = true →
        t.wordCh = s.wordCh ∧
          t.byteCh = { s.byteCh with items := s.byteCh.items ++ [toByte (s.outPorts i).outData] }))

/-- R33: the registers and the outputs right after reset, from any state; the configuration and the channels are untouched,
and out_data is unspecified, the free draw of R129. -/
def Obligations.ResetValuesAndOutputs : Prop :=
  ∀ (i : Instr) (s : State),
    s.resetRegs.phase = .idle ∧ s.resetRegs.acc = 0#64 ∧ s.resetRegs.i = 0 ∧ s.resetRegs.j = 0 ∧
    s.resetRegs.doneR = false ∧ s.resetRegs.cfg = s.cfg ∧
    s.resetRegs.byteCh = s.byteCh ∧ s.resetRegs.wordCh = s.wordCh ∧
    s.resetRegs.outPorts i = ⟨true, false, false, false, s.resetRegs.freeOut i⟩ ∧
    State.reset.SameRegs s.resetRegs

/-- The frame of every instruction: when an edge answers a next state, the configuration, the bound, the ports, the script
and the cycle count are as before; and, once a reset edge has come since power-up (R233), it is never to come again, and each
channel is as before unless the edge moves an item on it: a transfer in removes the input channel's head, a transfer out
appends out_data to the output channel, and nothing else changes. -/
def Obligations.EdgeFrame : Prop :=
  ∀ (i : Instr) (s t : State), exec i s = .next t →
    s.SameOutside t ∧ (s.unreset = none → t.unreset = none) ∧
    (s.unreset = none → i.dir = .b2w →
      t.byteCh = (if s.transferIn i = true then { s.byteCh with items := s.byteCh.items.tail } else s.byteCh) ∧
      t.wordCh = (if s.transferOut i = true
        then { s.wordCh with items := s.wordCh.items ++ [(s.outPorts i).outData] } else s.wordCh)) ∧
    (s.unreset = none → i.dir = .w2b →
      t.wordCh = (if s.transferIn i = true then { s.wordCh with items := s.wordCh.items.tail } else s.wordCh) ∧
      t.byteCh = (if s.transferOut i = true
        then { s.byteCh with items := s.byteCh.items ++ [toByte (s.outPorts i).outData] } else s.byteCh))

/-- R131: at most one transfer happens at any edge after a reset edge (R233). The two transfers never meet, and
an edge moves at most one item in all. -/
def Obligations.AtMostOneTransferPerEdge : Prop :=
  ∀ (i : Instr) (s : State), s.unreset = none →
    ¬ (s.transferIn i = true ∧ s.transferOut i = true) ∧
    ∀ t, exec i s = .next t →
      (s.byteCh.items.length - t.byteCh.items.length) + (t.byteCh.items.length - s.byteCh.items.length) +
        (s.wordCh.items.length - t.wordCh.items.length) + (t.wordCh.items.length - s.wordCh.items.length) ≤ 1

/-- R122: done is 1 after an edge exactly when the edge ends an invocation: the last transfer out of the burst, or the accepted
start of an empty burst; and 0 after a reset edge. An edge in the ranges of R20 always answers. -/
def Obligations.DonePulseMarksTheEnd : Prop :=
  ∀ (i : Instr) (s : State), s.InRange i →
    ∃ t, exec i s = .next t ∧
      (s.pins.rst = true → (t.outPorts i).done = false) ∧
      (s.pins.rst = false →
        ((t.outPorts i).done = true ↔
          (s.phase = .idle ∧ s.pins.start = true ∧ i.n = 0) ∨
          (s.transferOut i = true ∧ s.i + 1 = i.n ∧ (i.dir = .w2b → s.j + 1 = i.wl.bytes))))

/-- R116: in IDLE, after a reset edge, an edge makes no channel access, whatever the pins are. -/
def Obligations.IdleMakesNoAccess : Prop :=
  ∀ (i : Instr) (s : State), s.unreset = none → s.phase = .idle →
    ∃ t, exec i s = .next t ∧ t.byteCh = s.byteCh ∧ t.wordCh = s.wordCh

/-- R121: start matters only in IDLE. With phase other than IDLE the outcome of an edge is the same whether start is 0 or 1. -/
def Obligations.StartIgnoredWhileBusy : Prop :=
  ∀ (i : Instr) (s t : State) (b : Bool), s.unreset = none → s.phase ≠ .idle → exec i s = .next t →
    exec i { s with pins := { s.pins with start := b } } =
      .next { t with pins := { t.pins with start := b } }

/-- R132 with R115, over whole steps: an instance with N = 0 in IDLE stays in IDLE, its edge makes no transfer, in_ready and
out_valid stay 0, and done follows exactly the accepted start.
The spec marks this law, R132, as derived: an inference from its rules. -/
def Obligations.EmptyBurstMakesNoTransfer : Prop :=
  ∀ (i : Instr) (s : State), s.cfg = .ok i → s.unreset = none → i.n = 0 → s.phase = .idle →
    ∃ t, step s = .next t ∧ t.phase = .idle ∧
      t.byteCh = (s.present i.dir).byteCh ∧ t.wordCh = (s.present i.dir).wordCh ∧
      (t.outPorts i).inReady = false ∧ (t.outPorts i).outValid = false ∧
      (t.doneR = true ↔ (s.present i.dir).pins.start = true ∧ (s.present i.dir).pins.rst = false)

/-- R176: signedness changes no byte. The signed and the unsigned W2B instruction of one byte order do the same on every
state after a reset edge (R233). -/
def Obligations.SignednessChangesNothing : Prop :=
  ∀ (wl : WordLen) (b : BurstLen) (s : State), s.unreset = none →
    exec (.w2bSLe wl b) s = exec (.w2bULe wl b) s ∧ exec (.w2bSBe wl b) s = exec (.w2bUBe wl b) s

/-- R57: at K = 1 both byte orders are the same instruction, and the block passes the byte through.
The spec marks this law, R57, as derived: an inference from its rules. -/
def Obligations.SingleByteIsEndiannessInvariant : Prop :=
  lane .little 1 0 = 0 ∧ lane .big 1 0 = 0 ∧
  (∀ (b : BurstLen) (s : State), s.unreset = none →
    exec (.b2wLe .k1 b) s = exec (.b2wBe .k1 b) s ∧ exec (.w2bULe .k1 b) s = exec (.w2bUBe .k1 b) s ∧
    exec (.w2bSLe .k1 b) s = exec (.w2bSBe .k1 b) s) ∧
  (∀ (e : Endian) (b : Byte), b2wWord e .k1 [b] = ofByte b ∧ w2bBytes e .k1 (ofByte b) = [b])

/-- R34, R35 and R129: the output ports, after a reset edge (R233), as functions of the registers, and R124: in_ready and
out_valid are functions of the phase alone; out_data while out_valid is 1 depends on the registers alone. -/
def Obligations.OutputsAreFunctionsOfRegisters : Prop :=
  (∀ (i : Instr) (s : State), s.unreset = none →
    (s.outPorts i).idle = decide (s.phase = .idle) ∧ (s.outPorts i).done = s.doneR ∧
    (s.outPorts i).inReady = decide (s.phase = .rd) ∧ (s.outPorts i).outValid = decide (s.phase = .wr)) ∧
  (∀ (i : Instr) (s : State), s.unreset = none → s.phase = .wr → i.dir = .b2w → fits i.wl s.acc = true →
    (s.outPorts i).outData = s.acc) ∧
  (∀ (i : Instr) (s : State), s.unreset = none → s.phase = .wr → i.dir = .w2b → i.endian = .little →
    toByte (s.outPorts i).outData = (ofItem i.wl s.acc).extractLsb' 0 8) ∧
  (∀ (i : Instr) (s : State), s.unreset = none → s.phase = .wr → i.dir = .w2b → i.endian = .big →
    toByte (s.outPorts i).outData = (ofItem i.wl s.acc).extractLsb' (i.wl.bits - 8) 8) ∧
  (∀ (i : Instr) (s t : State), s.unreset = none → t.unreset = none → s.phase = .wr → s.SameRegs t →
    s.outPorts i = t.outPorts i)

/-- R123: once out_valid is 1 it stays 1 and out_data stays unchanged over a step without a transfer out and without reset,
whatever the environment does meanwhile.
The spec marks this law, R123, as derived: an inference from its rules. -/
def Obligations.WaitingOutputIsStable : Prop :=
  ∀ (i : Instr) (s : State), s.cfg = .ok i → s.unreset = none → (s.outPorts i).outValid = true →
    (s.present i.dir).pins.rst = false → (s.present i.dir).transferOut i = false →
    ∃ t, step s = .next t ∧ (t.outPorts i).outValid = true ∧ (t.outPorts i).outData = (s.outPorts i).outData

/-- R202, R203 and R204: an instance in an invocation is stalled exactly when no event of R117 but Reset is enabled, and a
stalled instance waits. An edge changes nothing but done; and while the environment does nothing (an exhausted script,
log entry 6) it is stalled at the edge after any number of steps, with every register and channel as it was, and no run
observed up to there is finished. -/
def Obligations.StallWaitsWithoutLimit : Prop :=
  (∀ (i : Instr) (s : State), s.unreset = none → s.phase ≠ .idle → (s.Stalled i ↔ txNone i s = true)) ∧
  (∀ (i : Instr) (s : State), s.unreset = none → s.Stalled i → s.pins.rst = false →
    exec i s = .next { s with doneR := false }) ∧
  (∀ (i : Instr) (s : State) (k : Nat), s.cfg = .ok i → s.unreset = none → (s.present i.dir).Stalled i →
    s.script = [] →
    ∃ t, Reaches k s t ∧ (t.present i.dir).Stalled i ∧ (∀ m r, ¬ RunFinished i m r t) ∧
      t.phase = s.phase ∧ t.acc = s.acc ∧ t.i = s.i ∧ t.j = s.j ∧
      t.byteCh = s.byteCh ∧ t.wordCh = s.wordCh ∧ (0 < k → t.doneR = false))

/-! ### The two levels, the step and its invariants -/

/-- R117: after a reset edge (R233), at most one of the events Start, Read and Write is enabled at any step.
The spec marks this law, R117, as derived: an inference from its rules. -/
def Obligations.AtMostOneEventEnabled : Prop :=
  ∀ (i : Instr) (s : State) (a b : TxEvent), s.unreset = none → a ≠ .reset → b ≠ .reset →
    txEnabled i s a = true → txEnabled i s b = true → a = b

/-- R133 with R127: an edge is the transaction-level step of its handshake. Without reset it is that step, or nothing but
done_r <- 0 when no start is accepted and no transfer happens; at a reset edge it is the transfer's step followed by
Reset, and done carries the Done label of R117 except at a reset edge.
The spec marks this law, R133, as derived: an inference from its rules. -/
def Obligations.CycleLevelRefinesTransactions : Prop :=
  ∀ (i : Instr) (s : State), s.InRange i →
    (s.pins.rst = false → s.phase = .idle → s.pins.start = true → txStep i .start s = some (exec i s)) ∧
    (s.pins.rst = false → s.transferIn i = true → txStep i .read s = some (exec i s)) ∧
    (s.pins.rst = false → s.transferOut i = true → txStep i .write s = some (exec i s)) ∧
    (s.pins.rst = false → ¬ (s.phase = .idle ∧ s.pins.start = true) → s.transferIn i = false →
      s.transferOut i = false → exec i s = .next { s with doneR := false }) ∧
    (s.pins.rst = true → s.transferIn i = true →
      ∃ u, txStep i .read s = some (.next u) ∧ some (exec i s) = txStep i .reset u) ∧
    (s.pins.rst = true → s.transferOut i = true →
      ∃ u, txStep i .write s = some (.next u) ∧ some (exec i s) = txStep i .reset u) ∧
    (s.pins.rst = true → s.transferIn i = false → s.transferOut i = false →
      some (exec i s) = txStep i .reset s) ∧
    (∀ t, s.pins.rst = false → exec i s = .next t →
      (t.doneR = true ↔
        (txDone i s .start = true) ∨ (s.transferOut i = true ∧ txDone i s .write = true)))

/-- A step runs the decoded instruction: where the configuration is i, and where an instance is built from a configuration
word and an N that decode to i, a step is the environment's moves and then one edge of i. That a step has this form is
the model's choice: one edge a step is log entry 11, and moves before the edge are log entry 6 (both DESIGN CHOICE). -/
def Obligations.StepRunsTheDecodedInstruction : Prop :=
  (∀ (s : State) (i : Instr), s.cfg = .ok i → step s = exec i (s.present i.dir)) ∧
  (∀ (s : State) (nMax : Nat) (cw : BitVec 8) (n : Nat) (i : Instr), decode nMax cw n = .ok i →
    step (s.instantiate nMax cw n) = exec i ((s.present i.dir).instantiate nMax cw n))

/-- What a step's environment moves do (the model's choice, log entries 6 and 19): the registers and the configuration stay; the pins
come from the script; the producer's items enter the input channel in order and within its capacity, and the consumer takes
the output channel's items in order. -/
def Obligations.EnvironmentMovesKeepOrder : Prop :=
  ∀ (s : State) (d : Dir),
    s.SameRegs (s.present d) ∧ (s.present d).cfg = s.cfg ∧ (s.present d).unreset = s.unreset ∧
    (s.present d).pins = (s.script.headD EnvEdge.quiet).pins ∧ (s.present d).script = s.script.tail ∧
    (s.present d).tick = s.tick + 1 ∧
    (d = .b2w → (s.present d).bytesAhead = s.bytesAhead ∧ (s.present d).wordsOut = s.wordsOut ∧
      s.byteCh.items <+: (s.present d).byteCh.items ∧ (s.present d).wordCh.items <:+ s.wordCh.items) ∧
    (d = .w2b → (s.present d).wordsAhead = s.wordsAhead ∧ (s.present d).bytesOut = s.bytesOut ∧
      s.wordCh.items <+: (s.present d).wordCh.items ∧ (s.present d).byteCh.items <:+ s.byteCh.items) ∧
    (s.byteCh.InCap → (s.present d).byteCh.InCap) ∧ (s.wordCh.InCap → (s.present d).wordCh.InCap)

/-- The invariant holds right after reset (the configuration, the bound and the channels there are the model's choices, log
entries 1, 2 and 7). -/
def Obligations.ResetStateMeetsInvariant : Prop := State.reset.Inv

/-- Every step keeps the invariant: no first reset edge is to come again, the counters stay in R20's ranges, the accumulator
and the word channel hold W-bit patterns, the channels stay within their capacities, done is seen only in IDLE, and the configuration stays legal. -/
def Obligations.EveryStepKeepsInvariant : Prop :=
  ∀ s t : State, s.Inv → step s = .next t → t.Inv

/-- R200: no input item, count or legal state makes an instance trap. A step from a state that meets the invariant answers a
next state, and so does an edge of every instruction in the ranges of R20. -/
def Obligations.NoRuntimeException : Prop :=
  (∀ s : State, s.Inv → ∃ t, step s = .next t) ∧
  (∀ (i : Instr) (s : State), s.InRange i → ∃ t, exec i s = .next t)

/-- R235 with R230: one reset edge brings an instance with a legal configuration from any registers at all, those of power-up
among them, into IDLE and into the invariant. -/
def Obligations.OneResetEdgeEstablishesInvariant : Prop :=
  ∀ (i : Instr) (s : State), s.cfg = .ok i → (s.present i.dir).pins.rst = true →
    s.byteCh.InCap → s.wordCh.InCap →
    (∀ v ∈ s.wordCh.items ++ s.wordCh.waiting ++ s.wordCh.taken, fits i.wl v = true) →
    (∃ t, step s = .next t ∧ t.Inv ∧ t.phase = .idle ∧ State.reset.SameRegs t) ∧
    (∀ draw, ∃ t, step (s.powerUp draw) = .next t ∧ t.Inv ∧ t.phase = .idle ∧ State.reset.SameRegs t)

/-! ### Whole invocations and whole runs -/

/-- A B2W invocation runs to its end: started in IDLE with N > 0, enough bytes in the byte channel and room for N words, with
partners that are always valid and ready, its run is finished (R130) after 1 + N·(K+1) edges (R242) with its done pulse,
having written exactly the words of R113 and left the other bytes. -/
def Obligations.B2wInvocationCompletes : Prop :=
  ∀ (i : Instr) (s : State) (ws : List Item) (rest : List Byte),
    s.cfg = .ok i → i.dir = .b2w → s.unreset = none → s.phase = .idle → 0 < i.n →
    s.script = [⟨⟨false, true, true, true, none⟩, 0, 0⟩] →
    b2wBurst i.endian i.wl i.n s.byteCh.items = some (ws, rest) →
    (∀ k, s.wordCh.cap = some k → s.wordCh.items.length + i.n ≤ k) →
    ∃ t, RunFinished i (1 + i.n * (i.wl.bytes + 1)) s t ∧ t.doneR = true ∧
      t.byteCh = { s.byteCh with items := rest } ∧
      t.wordCh = { s.wordCh with items := s.wordCh.items ++ ws }

/-- A W2B invocation's run is finished after the same number of edges, having written exactly the bytes of R114 and left the other
words. -/
def Obligations.W2bInvocationCompletes : Prop :=
  ∀ (i : Instr) (s : State) (bs : List Byte) (rest : List Item),
    s.cfg = .ok i → i.dir = .w2b → s.unreset = none → s.phase = .idle → 0 < i.n →
    s.script = [⟨⟨false, true, true, true, none⟩, 0, 0⟩] →
    w2bBurst i.endian i.wl i.n s.wordCh.items = some (bs, rest) →
    (∀ k, s.byteCh.cap = some k → s.byteCh.items.length + i.n * i.wl.bytes ≤ k) →
    ∃ t, RunFinished i (1 + i.n * (i.wl.bytes + 1)) s t ∧ t.doneR = true ∧
      t.wordCh = { s.wordCh with items := rest } ∧
      t.byteCh = { s.byteCh with items := s.byteCh.items ++ bs }

/-- R149 under any environment without reset, over any number of invocations, whatever the producer presents and when: the
words a B2W instance has put out since it was in IDLE are exactly the words of the bytes its in-side transfers have taken
since, by count, but for a complete word still waiting in acc; and where the producer drives no item of its own those
bytes are the first ones that lay ahead in the channel.
The spec marks this law, R149, as derived: an inference from its rules. -/
def Obligations.B2wOutputIsFunctionOfInput : Prop :=
  ∀ (i : Instr) (s t : State) (k : Nat),
    s.cfg = .ok i → i.dir = .b2w → s.InvFor i → s.phase = .idle → s.NoReset → Reaches k s t →
    let c := (readItems (runLabels i k s)).map toByte
    let w := writeItems (runLabels i k s)
    (s.NoDrive → s.bytesAhead = c ++ t.bytesAhead) ∧ t.wordsOut = s.wordsOut ++ w ∧
      (t.phase ≠ .wr → w = wordsOf i.endian i.wl (c.length / i.wl.bytes) c) ∧
      (t.phase = .wr → w ++ [t.acc] = wordsOf i.endian i.wl (c.length / i.wl.bytes) c)

/-- The same for W2B (R175, R65): the bytes put out are exactly the bytes of the words its in-side transfers have taken, but
for the bytes of the current word still waiting in acc.
The spec marks this law, R175, as derived: an inference from its rules. -/
def Obligations.W2bOutputIsFunctionOfInput : Prop :=
  ∀ (i : Instr) (s t : State) (k : Nat),
    s.cfg = .ok i → i.dir = .w2b → s.InvFor i → s.phase = .idle → s.NoReset → Reaches k s t →
    let c := readItems (runLabels i k s)
    let w := (writeItems (runLabels i k s)).map toByte
    (s.NoDrive → s.wordsAhead = c ++ t.wordsAhead) ∧ t.bytesOut = s.bytesOut ++ w ∧
      (t.phase ≠ .wr → w = bytesOf i.endian i.wl c) ∧
      (t.phase = .wr →
        w ++ emitBytes i.endian (i.wl.bytes - t.j) (ofItem i.wl t.acc) = bytesOf i.endian i.wl c)

/-- R65: timing, backpressure and capacity decide nothing. Two runs of one configuration from IDLE, under any two environments
without reset and with any capacities, that have taken the same items and are both in IDLE, have put out the same items;
so too two runs on channels with the same items ahead that have equally much still ahead, where the producers drive no
items of their own. -/
def Obligations.OutputIgnoresTiming : Prop :=
  ∀ (i : Instr) (s s' t t' : State) (k k' : Nat),
    s.cfg = .ok i → s'.cfg = .ok i → s.InvFor i → s'.InvFor i → s.phase = .idle → s'.phase = .idle →
    s.NoReset → s'.NoReset → Reaches k s t → Reaches k' s' t' → t.phase = .idle → t'.phase = .idle →
    (readItems (runLabels i k s) = readItems (runLabels i k' s') →
      writeItems (runLabels i k s) = writeItems (runLabels i k' s')) ∧
    (i.dir = .b2w → s.NoDrive → s'.NoDrive → s.bytesAhead = s'.bytesAhead → t.bytesAhead = t'.bytesAhead →
      s.wordsOut = s'.wordsOut → t.wordsOut = t'.wordsOut) ∧
    (i.dir = .w2b → s.NoDrive → s'.NoDrive → s.wordsAhead = s'.wordsAhead → t.wordsAhead = t'.wordsAhead →
      s.bytesOut = s'.bytesOut → t.bytesOut = t'.bytesOut)

/-- R32: no state is carried between invocations. Two states in IDLE, after a reset edge, that differ only in acc, i and j behave
alike in every environment: after any number of steps the phase, done, both channels and a valid out_data are the same. -/
def Obligations.NothingCarriedBetweenInvocations : Prop :=
  ∀ (i : Instr) (s t : State) (acc : Item) (i' j' k : Nat),
    s.cfg = .ok i → s.unreset = none → s.phase = .idle → Reaches k s t →
    ∃ t', Reaches k { s with acc := acc, i := i', j := j' } t' ∧
      t'.phase = t.phase ∧ t'.doneR = t.doneR ∧ t'.byteCh = t.byteCh ∧ t'.wordCh = t.wordCh ∧
      ((t.outPorts i).outValid = true → (t'.outPorts i).outData = (t.outPorts i).outData)

/-! ### Several instances -/

/-- R210: one edge of an instance leaves every other instance as it was, and every channel it is not bound to. -/
def Obligations.InstancesAreIndependent : Prop :=
  ∀ (sys sys' : System) (k : Nat) (x : Inst), sys.insts[k]? = some x → sys.stepInst k = .next sys' →
    sys'.insts.length = sys.insts.length ∧
    (∀ m, m ≠ k → sys'.insts[m]? = sys.insts[m]?) ∧
    (∀ b, b ≠ (match x.dir with | .b2w => x.inId | .w2b => x.outId) → sys'.byteChs[b]? = sys.byteChs[b]?) ∧
    (∀ w, w ≠ (match x.dir with | .b2w => x.outId | .w2b => x.inId) → sys'.wordChs[w]? = sys.wordChs[w]?)

/-- R71: a system is built only when no two instances write one channel and no two read one channel. -/
def Obligations.BuiltSystemHasSinglePartners : Prop :=
  ∀ (sys sys' : System) (a b : Nat) (x y : Inst), sys.build = .ok sys' → a ≠ b →
    sys.insts[a]? = some x → sys.insts[b]? = some y → x.dir = y.dir →
    x.outId ≠ y.outId ∧ x.inId ≠ y.inId

/-- R179 on the machines: a W2B instance and then a B2W instance of the same byte order, width and length, joined by a byte
channel, carry any words of the width from the one word channel to the other unchanged, whatever the signedness, and both
end in IDLE.
The spec marks this law, R179, as derived: an inference from its rules. -/
def Obligations.JoinedInstancesCarryWords : Prop :=
  ∀ (e : Endian) (sign : Sign) (wl : WordLen) (b : BurstLen) (ws : List Item), b.n = ws.length →
    (∀ v ∈ ws, fits wl v = true) →
    System.build (System.roundTrip e sign wl b ws) = .ok (System.roundTrip e sign wl b ws) ∧
    ∃ sys', System.run
        (List.replicate (1 + ws.length * (wl.bytes + 1)) 0 ++ List.replicate (1 + ws.length * (wl.bytes + 1)) 1)
        (System.roundTrip e sign wl b ws) = .next sys' ∧
      sys'.byteChs = [.empty] ∧ sys'.wordChs = [.empty, { Chan.empty with items := ws }] ∧
      (∀ x ∈ sys'.insts, x.st.phase = .idle)

/-! ### What a producer drives, and finished runs -/

/-- R120: a producer may change in_data between transfers as it likes. An instance whose input channel is empty, with a
producer that drives items of its own, takes at an edge the item driven at that very edge, whatever was driven before:
in RD, without reset, it does what it would do with that item alone in its channel, and the channel stays empty. That such
an item stands in no channel is the model's form of the environment, log entry 6 (DESIGN CHOICE). -/
def Obligations.DrivenItemIsTaken : Prop :=
  ∀ (i : Instr) (s : State) (v : Item), s.InRange i → s.phase = .rd → s.pins.rst = false → s.pins.offer = true →
    s.pins.drive = some v →
    (i.dir = .b2w → s.byteCh.items = [] →
      (s.inPorts i).inValid = true ∧ (s.inPorts i).inData = some (ofByte (toByte v)) ∧ s.transferIn i = true ∧
        exec i s = exec i { s with byteCh := { s.byteCh with items := [toByte v] } } ∧
        ∃ t, exec i s = .next t ∧ t.byteCh = s.byteCh) ∧
    (i.dir = .w2b → s.wordCh.items = [] →
      (s.inPorts i).inValid = true ∧ (s.inPorts i).inData = some (toItem i.wl (ofItem i.wl v)) ∧
        s.transferIn i = true ∧
        exec i s = exec i { s with wordCh := { s.wordCh with items := [v] } } ∧
        ∃ t, exec i s = .next t ∧ t.wordCh = s.wordCh)

/-- R130 with R117 and R122: over a run without reset that begins in IDLE every invocation started has ended, but for the
one in progress outside IDLE; so such a run is finished exactly when the instance is in IDLE. -/
def Obligations.RunWithoutResetFinishesInIdle : Prop :=
  ∀ (i : Instr) (s t : State) (k : Nat),
    s.cfg = .ok i → s.InvFor i → s.phase = .idle → s.NoReset → Reaches k s t →
    startCount (runLabels i k s) =
      doneCount (runLabels i k s) + (if t.phase = .idle then 0 else 1) ∧
    (RunFinished i k s t ↔ t.phase = .idle)

/-- R130 with R231: an invocation that a reset edge aborts has started and never ends, so no run that holds it is finished,
at the reset edge or at any number of steps after it, although the instance is in IDLE again. -/
def Obligations.AbortedInvocationNeverFinishes : Prop :=
  ∀ (i : Instr) (s u t : State) (k m : Nat),
    s.cfg = .ok i → s.InvFor i → s.phase = .idle → Reaches k s u → u.phase ≠ .idle →
    (u.present i.dir).pins.rst = true → Reaches (m + 1) u t →
    Reaches (k + (m + 1)) s t ∧ ¬ RunFinished i (k + (m + 1)) s t ∧ (m = 0 → t.phase = .idle)

/-! ### Before the first reset edge -/

/-- R233: until the first reset edge after power-up every register is a free draw in every cycle, and done with it. After a
step without reset the registers are the draws of the new cycle, whatever they were, whatever start was and whatever moved;
the reset edge gives them their reset values. Nothing is claimed of a start or a transfer there. How the draws are numbered
is the model's choice, log entry 9 (DESIGN CHOICE), and this holds for every number. -/
def Obligations.BeforeFirstResetRegistersAreFree : Prop :=
  (∀ (draw : Nat) (s : State), (s.powerUp draw).unreset = some draw ∧
    (s.powerUp draw).SameRegs (s.drawRegs draw) ∧ s.SameOutside (s.powerUp draw)) ∧
  (∀ (i : Instr) (s : State) (draw : Nat), s.cfg = .ok i → s.unreset = some draw →
    ∃ t, step s = .next t ∧ t.tick = s.tick + 1 ∧ t.cfg = s.cfg ∧
      ((s.present i.dir).pins.rst = false →
        t.unreset = some draw ∧ (t.drawRegs draw).SameRegs t ∧
        (t.outPorts i).done = Config.powerUpDone draw t.tick) ∧
      ((s.present i.dir).pins.rst = true → t.unreset = none ∧ State.reset.SameRegs t))
end

