-- ==== Sys2Proof/Laws/Items.lean ====
section
/-! SUPPORT. Items, bytes and widths: the conversions between an item and the W-bit value it carries. -/

namespace Sys2Proof.Machine

/-- A word has at least one byte and at most eight. -/
theorem WordLen_bytes_pos (wl : WordLen) : 0 < wl.bytes := by
  cases wl <;> decide

theorem WordLen_bytes_le (wl : WordLen) : wl.bytes ≤ 8 := by
  cases wl <;> decide

/-- W is at most the 64 bits of an item. -/
theorem WordLen_bits_le (wl : WordLen) : wl.bits ≤ 64 := by
  cases wl <;> decide

/-- A W-bit value read back from its item is itself. -/
@[simp] theorem ofItem_toItem (wl : WordLen) (v : BitVec wl.bits) : ofItem wl (toItem wl v) = v := by
  have h := WordLen_bits_le wl
  apply BitVec.eq_of_toNat_eq
  have hv := v.isLt
  have h64 : v.toNat < 2 ^ 64 := lt_of_lt_of_le hv (Nat.pow_le_pow_right (by decide) h)
  simp only [ofItem, toItem, BitVec.toNat_setWidth]
  rw [Nat.mod_eq_of_lt h64, Nat.mod_eq_of_lt hv]

/-- An item that fits is the item of the W-bit value it carries. -/
theorem toItem_ofItem {wl : WordLen} {v : Item} (h : fits wl v = true) : toItem wl (ofItem wl v) = v := by
  have hw := WordLen_bits_le wl
  have hv : v.toNat < 2 ^ wl.bits := by simpa [fits] using h
  apply BitVec.eq_of_toNat_eq
  simp only [ofItem, toItem, BitVec.toNat_setWidth]
  rw [Nat.mod_eq_of_lt hv, Nat.mod_eq_of_lt v.isLt]

/-- The item of a W-bit value fits. -/
@[simp] theorem fits_toItem (wl : WordLen) (v : BitVec wl.bits) : fits wl (toItem wl v) = true := by
  have h := WordLen_bits_le wl
  have hv := v.isLt
  have h64 : v.toNat < 2 ^ 64 := lt_of_lt_of_le hv (Nat.pow_le_pow_right (by decide) h)
  simp only [fits, toItem, BitVec.toNat_setWidth, decide_eq_true_eq]
  rw [Nat.mod_eq_of_lt h64]
  exact hv

/-- The zero accumulator fits every width. -/
@[simp] theorem fits_zero (wl : WordLen) : fits wl 0#64 = true := by
  cases wl <;> decide

/-- A byte read back from its item is itself. -/
@[simp] theorem toByte_ofByte (b : Byte) : toByte (ofByte b) = b := by
  apply BitVec.eq_of_toNat_eq
  simp only [toByte, ofByte, BitVec.toNat_setWidth]
  have := b.isLt
  omega

end Sys2Proof.Machine
end

