-- ==== Sys2Proof/Laws/Burst.lean ====
section
/-! SUPPORT. The small lemmas of an invocation's functions: the accumulator byte by byte, and the lengths of bursts. -/

namespace Sys2Proof.Machine

@[simp] theorem assemble_nil {w : Nat} (e : Endian) (acc : BitVec w) : assemble e acc [] = acc := rfl

/-- The accumulator after one byte more at the front of the list (R140). -/
@[simp] theorem assemble_cons {w : Nat} (e : Endian) (acc : BitVec w) (b : Byte) (bs : List Byte) :
    assemble e acc (b :: bs) = assemble e (stepB2W e acc b) bs := rfl

/-- The accumulator after two lists of bytes. -/
theorem assemble_append {w : Nat} (e : Endian) (acc : BitVec w) (bs cs : List Byte) :
    assemble e acc (bs ++ cs) = assemble e (assemble e acc bs) cs := by
  simp [assemble, List.foldl_append]

@[simp] theorem shiftTimes_zero {w : Nat} (e : Endian) (acc : BitVec w) : shiftTimes e 0 acc = acc := rfl
@[simp] theorem shiftTimes_succ {w : Nat} (e : Endian) (t : Nat) (acc : BitVec w) :
    shiftTimes e (t + 1) acc = shiftTimes e t (shiftW2B e acc) := rfl

/-- One emission more, taken at the end (R175). -/
theorem shiftTimes_succ' {w : Nat} (e : Endian) (t : Nat) (acc : BitVec w) :
    shiftTimes e (t + 1) acc = shiftW2B e (shiftTimes e t acc) := by
  induction t generalizing acc with
  | zero => rfl
  | succ t ih => exact ih (shiftW2B e acc)

@[simp] theorem emitBytes_zero {w : Nat} (e : Endian) (acc : BitVec w) : emitBytes e 0 acc = [] := rfl
@[simp] theorem emitBytes_succ {w : Nat} (e : Endian) (t : Nat) (acc : BitVec w) :
    emitBytes e (t + 1) acc = emitW2B e acc :: emitBytes e t (shiftW2B e acc) := rfl

/-- t emissions give t bytes. -/
@[simp] theorem emitBytes_length {w : Nat} (e : Endian) (t : Nat) (acc : BitVec w) :
    (emitBytes e t acc).length = t := by
  induction t generalizing acc with
  | zero => rfl
  | succ t ih => simp [ih]

/-- The t-th byte emitted is the one the accumulator shows after t shifts. -/
theorem emitBytes_getElem? {w : Nat} (e : Endian) (k t : Nat) (acc : BitVec w) (h : t < k) :
    (emitBytes e k acc)[t]? = some (emitW2B e (shiftTimes e t acc)) := by
  induction k generalizing t acc with
  | zero => omega
  | succ k ih =>
    cases t with
    | zero => simp
    | succ t => simpa using ih t (shiftW2B e acc) (by omega)

/-- A word is K bytes (R54). -/
@[simp] theorem w2bBytes_length (e : Endian) (wl : WordLen) (v : Item) : (w2bBytes e wl v).length = wl.bytes := by
  simp [w2bBytes]

@[simp] theorem bytesOf_nil (e : Endian) (wl : WordLen) : bytesOf e wl [] = [] := rfl
@[simp] theorem bytesOf_cons (e : Endian) (wl : WordLen) (v : Item) (ws : List Item) :
    bytesOf e wl (v :: ws) = w2bBytes e wl v ++ bytesOf e wl ws := by
  simp [bytesOf]

/-- The bytes of two lists of words. -/
theorem bytesOf_append (e : Endian) (wl : WordLen) (vs ws : List Item) :
    bytesOf e wl (vs ++ ws) = bytesOf e wl vs ++ bytesOf e wl ws := by
  simp [bytesOf]

/-- N words are N·K bytes. -/
theorem bytesOf_length (e : Endian) (wl : WordLen) (ws : List Item) :
    (bytesOf e wl ws).length = ws.length * wl.bytes := by
  induction ws with
  | nil => simp
  | cons v ws ih =>
    simp only [bytesOf_cons, List.length_append, w2bBytes_length, ih, List.length_cons, Nat.succ_mul]
    omega

@[simp] theorem wordsOf_zero (e : Endian) (wl : WordLen) (bs : List Byte) : wordsOf e wl 0 bs = [] := rfl
@[simp] theorem wordsOf_succ (e : Endian) (wl : WordLen) (n : Nat) (bs : List Byte) :
    wordsOf e wl (n + 1) bs = b2wWord e wl (bs.take wl.bytes) :: wordsOf e wl n (bs.drop wl.bytes) := rfl

/-- n words are n words. -/
@[simp] theorem wordsOf_length (e : Endian) (wl : WordLen) (n : Nat) (bs : List Byte) :
    (wordsOf e wl n bs).length = n := by
  induction n generalizing bs with
  | zero => rfl
  | succ n ih => simp [ih]

/-- Every word B2W assembles fits its width (R29). -/
@[simp] theorem fits_b2wWord (e : Endian) (wl : WordLen) (bs : List Byte) : fits wl (b2wWord e wl bs) = true := by
  simp [b2wWord]

end Sys2Proof.Machine
end

