-- ==== Sys2Proof/Laws/Channel.lean ====
section
/-! SUPPORT. What each channel operation does: to the items in flight, to the capacity, and to the total order. -/

namespace Sys2Proof.Machine

variable {α : Type}

@[simp] theorem Chan.pop_cap (c : Chan α) : c.pop.cap = c.cap := rfl
@[simp] theorem Chan.pop_waiting (c : Chan α) : c.pop.waiting = c.waiting := rfl
@[simp] theorem Chan.pop_items (c : Chan α) : c.pop.items = c.items.tail := rfl
@[simp] theorem Chan.pop_taken (c : Chan α) : c.pop.taken = c.taken := rfl
@[simp] theorem Chan.push_cap (c : Chan α) (v : α) : (c.push v).cap = c.cap := rfl
@[simp] theorem Chan.push_waiting (c : Chan α) (v : α) : (c.push v).waiting = c.waiting := rfl
@[simp] theorem Chan.push_items (c : Chan α) (v : α) : (c.push v).items = c.items ++ [v] := rfl
@[simp] theorem Chan.push_taken (c : Chan α) (v : α) : (c.push v).taken = c.taken := rfl
@[simp] theorem Chan.put_cap (c : Chan α) (k : Nat) : (c.put k).cap = c.cap := rfl
@[simp] theorem Chan.put_items (c : Chan α) (k : Nat) :
    (c.put k).items = c.items ++ c.waiting.take (c.putCount k) := rfl
@[simp] theorem Chan.put_waiting (c : Chan α) (k : Nat) : (c.put k).waiting = c.waiting.drop (c.putCount k) := rfl
@[simp] theorem Chan.put_taken (c : Chan α) (k : Nat) : (c.put k).taken = c.taken := rfl
@[simp] theorem Chan.drain_cap (c : Chan α) (k : Nat) : (c.drain k).cap = c.cap := rfl
@[simp] theorem Chan.drain_items (c : Chan α) (k : Nat) : (c.drain k).items = c.items.drop k := rfl
@[simp] theorem Chan.drain_waiting (c : Chan α) (k : Nat) : (c.drain k).waiting = c.waiting := rfl
@[simp] theorem Chan.drain_taken (c : Chan α) (k : Nat) : (c.drain k).taken = c.taken ++ c.items.take k := rfl

/-- `ChanRead` answers exactly with the head item and the popped channel (R111). -/
theorem Chan.read_eq_some {c c' : Chan α} {v : α} :
    c.read = some (v, c') ↔ c.items = v :: c'.items ∧ c' = c.pop := by
  unfold Chan.read Chan.pop
  cases h : c.items with
  | nil => simp
  | cons x xs =>
    simp only [Option.some.injEq, Prod.mk.injEq, List.cons.injEq, List.tail_cons]
    constructor
    · rintro ⟨rfl, rfl⟩
      exact ⟨⟨rfl, rfl⟩, rfl⟩
    · rintro ⟨⟨rfl, -⟩, rfl⟩
      exact ⟨rfl, rfl⟩

/-- `ChanWrite` answers exactly when there is room, with the pushed channel (R112). -/
theorem Chan.write_eq_some {c c' : Chan α} {v : α} : c.write v = some c' ↔ c.room = true ∧ c' = c.push v := by
  unfold Chan.write Chan.push
  cases h : c.room <;> simp [eq_comm]

/-- The producer writes no more than it has. -/
theorem Chan.putCount_le_waiting (c : Chan α) (k : Nat) : c.putCount k ≤ c.waiting.length := by
  unfold Chan.putCount
  cases c.cap <;> simp only <;> omega

/-- The producer writes no more than there is room for. -/
theorem Chan.putCount_room (c : Chan α) (k m : Nat) (h : c.cap = some m) : c.putCount k ≤ m - c.items.length := by
  unfold Chan.putCount
  simp only [h]
  omega

/-- A producer's writes leave the order of its items unchanged (R63). -/
theorem Chan.put_ahead (c : Chan α) (k : Nat) :
    (c.put k).items ++ (c.put k).waiting = c.items ++ c.waiting := by
  simp [List.append_assoc]

/-- A consumer's takes leave the order of the items unchanged (R63). -/
theorem Chan.drain_out (c : Chan α) (k : Nat) : (c.drain k).taken ++ (c.drain k).items = c.taken ++ c.items := by
  simp [List.append_assoc]

/-- A read keeps the channel within its capacity. -/
theorem Chan.pop_inCap {c : Chan α} (h : c.InCap) : c.pop.InCap := by
  intro k hk
  have := h k hk
  simp only [pop_items, List.length_tail]
  omega

/-- A write with room keeps the channel within its capacity. -/
theorem Chan.push_inCap {c : Chan α} (h : c.InCap) (hr : c.room = true) (v : α) : (c.push v).InCap := by
  intro k hk
  have hk' : c.cap = some k := hk
  have := h k hk'
  simp only [Chan.room, hk', decide_eq_true_eq] at hr
  simp only [push_items, List.length_append, List.length_singleton]
  omega

/-- A producer's writes keep the channel within its capacity. -/
theorem Chan.put_inCap {c : Chan α} (h : c.InCap) (k : Nat) : (c.put k).InCap := by
  intro m hm
  have hm' : c.cap = some m := hm
  have := h m hm'
  have := c.putCount_room k m hm'
  simp only [put_items, List.length_append, List.length_take]
  omega

/-- A consumer's takes keep the channel within its capacity. -/
theorem Chan.drain_inCap {c : Chan α} (h : c.InCap) (k : Nat) : (c.drain k).InCap := by
  intro m hm
  have := h m hm
  simp only [drain_items, List.length_drop]
  omega

/-- A quiet producer writes nothing. -/
@[simp] theorem Chan.put_zero (c : Chan α) : c.put 0 = c := by
  have h : c.putCount 0 = 0 := by
    unfold Chan.putCount
    cases c.cap <;> simp
  simp [Chan.put, h]

/-- A quiet consumer takes nothing. -/
@[simp] theorem Chan.drain_zero (c : Chan α) : c.drain 0 = c := by
  simp [Chan.drain]

end Sys2Proof.Machine
end

