-- ==== Sys2Proof/Laws/State.lean ====
section
/-! SUPPORT. One lemma per field per named update of the state: `resetRegs`, `setDone`, `move`, `moved`,
`drawRegs`, `powerUp`, `present` and `instantiate`. -/

namespace Sys2Proof.Machine

@[simp] theorem State.resetRegs_cfg (s : State) : s.resetRegs.cfg = s.cfg := rfl
@[simp] theorem State.resetRegs_acc (s : State) : s.resetRegs.acc = 0#64 := rfl
@[simp] theorem State.resetRegs_phase (s : State) : s.resetRegs.phase = .idle := rfl
@[simp] theorem State.resetRegs_i (s : State) : s.resetRegs.i = 0 := rfl
@[simp] theorem State.resetRegs_j (s : State) : s.resetRegs.j = 0 := rfl
@[simp] theorem State.resetRegs_doneR (s : State) : s.resetRegs.doneR = false := rfl
@[simp] theorem State.resetRegs_byteCh (s : State) : s.resetRegs.byteCh = s.byteCh := rfl
@[simp] theorem State.resetRegs_wordCh (s : State) : s.resetRegs.wordCh = s.wordCh := rfl
@[simp] theorem State.resetRegs_pins (s : State) : s.resetRegs.pins = s.pins := rfl
@[simp] theorem State.resetRegs_script (s : State) : s.resetRegs.script = s.script := rfl
@[simp] theorem State.resetRegs_tick (s : State) : s.resetRegs.tick = s.tick := rfl
@[simp] theorem State.resetRegs_unreset (s : State) : s.resetRegs.unreset = none := rfl

@[simp] theorem State.setDone_cfg (s : State) (b : Bool) : (s.setDone b).cfg = s.cfg := rfl
@[simp] theorem State.setDone_acc (s : State) (b : Bool) : (s.setDone b).acc = s.acc := rfl
@[simp] theorem State.setDone_phase (s : State) (b : Bool) : (s.setDone b).phase = s.phase := rfl
@[simp] theorem State.setDone_i (s : State) (b : Bool) : (s.setDone b).i = s.i := rfl
@[simp] theorem State.setDone_j (s : State) (b : Bool) : (s.setDone b).j = s.j := rfl
@[simp] theorem State.setDone_doneR (s : State) (b : Bool) : (s.setDone b).doneR = b := rfl
@[simp] theorem State.setDone_byteCh (s : State) (b : Bool) : (s.setDone b).byteCh = s.byteCh := rfl
@[simp] theorem State.setDone_wordCh (s : State) (b : Bool) : (s.setDone b).wordCh = s.wordCh := rfl
@[simp] theorem State.setDone_pins (s : State) (b : Bool) : (s.setDone b).pins = s.pins := rfl
@[simp] theorem State.setDone_script (s : State) (b : Bool) : (s.setDone b).script = s.script := rfl
@[simp] theorem State.setDone_tick (s : State) (b : Bool) : (s.setDone b).tick = s.tick := rfl
@[simp] theorem State.setDone_unreset (s : State) (b : Bool) : (s.setDone b).unreset = s.unreset := rfl

@[simp] theorem State.move_cfg (s : State) (d : Dir) (ev : Event) : (s.move d ev).cfg = s.cfg := by
  cases ev <;> cases d <;> rfl
@[simp] theorem State.move_acc (s : State) (d : Dir) (ev : Event) : (s.move d ev).acc = s.acc := by
  cases ev <;> cases d <;> rfl
@[simp] theorem State.move_phase (s : State) (d : Dir) (ev : Event) : (s.move d ev).phase = s.phase := by
  cases ev <;> cases d <;> rfl
@[simp] theorem State.move_i (s : State) (d : Dir) (ev : Event) : (s.move d ev).i = s.i := by
  cases ev <;> cases d <;> rfl
@[simp] theorem State.move_j (s : State) (d : Dir) (ev : Event) : (s.move d ev).j = s.j := by
  cases ev <;> cases d <;> rfl
@[simp] theorem State.move_doneR (s : State) (d : Dir) (ev : Event) : (s.move d ev).doneR = s.doneR := by
  cases ev <;> cases d <;> rfl
@[simp] theorem State.move_pins (s : State) (d : Dir) (ev : Event) : (s.move d ev).pins = s.pins := by
  cases ev <;> cases d <;> rfl
@[simp] theorem State.move_script (s : State) (d : Dir) (ev : Event) : (s.move d ev).script = s.script := by
  cases ev <;> cases d <;> rfl
@[simp] theorem State.move_tick (s : State) (d : Dir) (ev : Event) : (s.move d ev).tick = s.tick := by
  cases ev <;> cases d <;> rfl
@[simp] theorem State.move_unreset (s : State) (d : Dir) (ev : Event) : (s.move d ev).unreset = s.unreset := by
  cases ev <;> cases d <;> rfl
@[simp] theorem State.move_start (s : State) (d : Dir) : s.move d .start = s := by
  cases d <;> rfl
@[simp] theorem State.move_read_b2w (s : State) (v : Item) :
    s.move .b2w (.read v) = { s with byteCh := s.byteCh.pop } := rfl
@[simp] theorem State.move_read_w2b (s : State) (v : Item) :
    s.move .w2b (.read v) = { s with wordCh := s.wordCh.pop } := rfl
@[simp] theorem State.move_write_b2w (s : State) (v : Item) :
    s.move .b2w (.write v) = { s with wordCh := s.wordCh.push v } := rfl
@[simp] theorem State.move_write_w2b (s : State) (v : Item) :
    s.move .w2b (.write v) = { s with byteCh := s.byteCh.push (toByte v) } := rfl

@[simp] theorem State.drawRegs_cfg (s : State) (k : Nat) : (s.drawRegs k).cfg = s.cfg := rfl
@[simp] theorem State.drawRegs_byteCh (s : State) (k : Nat) : (s.drawRegs k).byteCh = s.byteCh := rfl
@[simp] theorem State.drawRegs_wordCh (s : State) (k : Nat) : (s.drawRegs k).wordCh = s.wordCh := rfl
@[simp] theorem State.drawRegs_pins (s : State) (k : Nat) : (s.drawRegs k).pins = s.pins := rfl
@[simp] theorem State.drawRegs_script (s : State) (k : Nat) : (s.drawRegs k).script = s.script := rfl
@[simp] theorem State.drawRegs_tick (s : State) (k : Nat) : (s.drawRegs k).tick = s.tick := rfl
@[simp] theorem State.drawRegs_unreset (s : State) (k : Nat) : (s.drawRegs k).unreset = s.unreset := rfl
@[simp] theorem State.drawRegs_phase (s : State) (k : Nat) : (s.drawRegs k).phase = .ofDraw (Config.powerUpPhase k s.tick) := rfl
@[simp] theorem State.drawRegs_i (s : State) (k : Nat) : (s.drawRegs k).i = Config.powerUpI k s.tick := rfl
@[simp] theorem State.drawRegs_j (s : State) (k : Nat) : (s.drawRegs k).j = Config.powerUpJ k s.tick := rfl
@[simp] theorem State.drawRegs_doneR (s : State) (k : Nat) : (s.drawRegs k).doneR = Config.powerUpDone k s.tick := rfl
@[simp] theorem State.powerUp_unreset (s : State) (k : Nat) : (s.powerUp k).unreset = some k := rfl
@[simp] theorem State.powerUp_cfg (s : State) (k : Nat) : (s.powerUp k).cfg = s.cfg := rfl
@[simp] theorem State.powerUp_byteCh (s : State) (k : Nat) : (s.powerUp k).byteCh = s.byteCh := rfl
@[simp] theorem State.powerUp_wordCh (s : State) (k : Nat) : (s.powerUp k).wordCh = s.wordCh := rfl
@[simp] theorem State.powerUp_script (s : State) (k : Nat) : (s.powerUp k).script = s.script := rfl
@[simp] theorem State.moved_none (s : State) (d : Dir) : s.moved d none = s := rfl
@[simp] theorem State.moved_some (s : State) (d : Dir) (ev : Event) : s.moved d (some ev) = s.move d ev := rfl

@[simp] theorem State.present_cfg (s : State) (d : Dir) : (s.present d).cfg = s.cfg := by cases d <;> rfl
@[simp] theorem State.present_acc (s : State) (d : Dir) : (s.present d).acc = s.acc := by cases d <;> rfl
@[simp] theorem State.present_phase (s : State) (d : Dir) : (s.present d).phase = s.phase := by cases d <;> rfl
@[simp] theorem State.present_i (s : State) (d : Dir) : (s.present d).i = s.i := by cases d <;> rfl
@[simp] theorem State.present_j (s : State) (d : Dir) : (s.present d).j = s.j := by cases d <;> rfl
@[simp] theorem State.present_doneR (s : State) (d : Dir) : (s.present d).doneR = s.doneR := by cases d <;> rfl
@[simp] theorem State.present_pins (s : State) (d : Dir) :
    (s.present d).pins = (s.script.headD EnvEdge.quiet).pins := by cases d <;> rfl
@[simp] theorem State.present_script (s : State) (d : Dir) : (s.present d).script = s.script.tail := by
  cases d <;> rfl
@[simp] theorem State.present_tick (s : State) (d : Dir) : (s.present d).tick = s.tick + 1 := by cases d <;> rfl
@[simp] theorem State.present_unreset (s : State) (d : Dir) : (s.present d).unreset = s.unreset := by cases d <;> rfl
@[simp] theorem State.present_byteCh_b2w (s : State) :
    (s.present .b2w).byteCh = s.byteCh.put (s.script.headD EnvEdge.quiet).put := rfl
@[simp] theorem State.present_wordCh_b2w (s : State) :
    (s.present .b2w).wordCh = s.wordCh.drain (s.script.headD EnvEdge.quiet).take := rfl
@[simp] theorem State.present_byteCh_w2b (s : State) :
    (s.present .w2b).byteCh = s.byteCh.drain (s.script.headD EnvEdge.quiet).take := rfl
@[simp] theorem State.present_wordCh_w2b (s : State) :
    (s.present .w2b).wordCh = s.wordCh.put (s.script.headD EnvEdge.quiet).put := rfl

@[simp] theorem State.instantiate_cfg (s : State) (nMax : Nat) (cw : BitVec 8) (n : Nat) :
    (s.instantiate nMax cw n).cfg = decode nMax cw n := rfl
@[simp] theorem State.instantiate_acc (s : State) (nMax : Nat) (cw : BitVec 8) (n : Nat) :
    (s.instantiate nMax cw n).acc = s.acc := rfl
@[simp] theorem State.instantiate_phase (s : State) (nMax : Nat) (cw : BitVec 8) (n : Nat) :
    (s.instantiate nMax cw n).phase = s.phase := rfl
@[simp] theorem State.instantiate_i (s : State) (nMax : Nat) (cw : BitVec 8) (n : Nat) :
    (s.instantiate nMax cw n).i = s.i := rfl
@[simp] theorem State.instantiate_j (s : State) (nMax : Nat) (cw : BitVec 8) (n : Nat) :
    (s.instantiate nMax cw n).j = s.j := rfl
@[simp] theorem State.instantiate_doneR (s : State) (nMax : Nat) (cw : BitVec 8) (n : Nat) :
    (s.instantiate nMax cw n).doneR = s.doneR := rfl
@[simp] theorem State.instantiate_byteCh (s : State) (nMax : Nat) (cw : BitVec 8) (n : Nat) :
    (s.instantiate nMax cw n).byteCh = s.byteCh := rfl
@[simp] theorem State.instantiate_wordCh (s : State) (nMax : Nat) (cw : BitVec 8) (n : Nat) :
    (s.instantiate nMax cw n).wordCh = s.wordCh := rfl
@[simp] theorem State.instantiate_pins (s : State) (nMax : Nat) (cw : BitVec 8) (n : Nat) :
    (s.instantiate nMax cw n).pins = s.pins := rfl
@[simp] theorem State.instantiate_script (s : State) (nMax : Nat) (cw : BitVec 8) (n : Nat) :
    (s.instantiate nMax cw n).script = s.script := rfl
@[simp] theorem State.instantiate_tick (s : State) (nMax : Nat) (cw : BitVec 8) (n : Nat) :
    (s.instantiate nMax cw n).tick = s.tick := rfl
@[simp] theorem State.instantiate_unreset (s : State) (nMax : Nat) (cw : BitVec 8) (n : Nat) :
    (s.instantiate nMax cw n).unreset = s.unreset := rfl
/-- Building an instance and the environment's moves are independent (R21). -/
theorem State.present_instantiate (s : State) (d : Dir) (nMax : Nat) (cw : BitVec 8) (n : Nat) :
    (s.instantiate nMax cw n).present d = (s.present d).instantiate nMax cw n := by cases d <;> rfl

end Sys2Proof.Machine
end

