-- ==== Sys2Proof/Laws/Ops.lean ====
section
/-! SUPPORT. What each shared operation can do, said once: the events of an edge, the edge, the rows, and the one
equation that puts all six meanings over them. -/

namespace Sys2Proof.Machine

/-- Every meaning is one edge of its block, with its family's rows (R148, R178). -/
theorem exec_eq_edge (i : Instr) (s : State) :
    exec i s = s.edge i.dir (s.eventAt i.dir (s.outItem i)) (row i) := by
  cases i <;> rfl

/-- A start is the event exactly when it is accepted (R121, R126). -/
theorem eventAt_start {d : Dir} {out : Item} {s : State} :
    s.eventAt d out = some .start ↔ s.phase = .idle ∧ s.pins.start = true ∧ s.pins.rst = false := by
  unfold State.eventAt
  cases hp : s.phase with
  | idle => simp
  | rd => cases s.pins.offer <;> cases s.inHead d <;> simp
  | wr => cases s.outReady d <;> simp

/-- A read is the event exactly when its item is transferred in (R120). -/
theorem eventAt_read {d : Dir} {out v : Item} {s : State} :
    s.eventAt d out = some (.read v) ↔ s.phase = .rd ∧ s.pins.offer = true ∧ s.inHead d = some v := by
  unfold State.eventAt
  cases hp : s.phase with
  | idle => simp
  | rd => cases s.pins.offer <;> cases s.inHead d <;> simp
  | wr => cases s.outReady d <;> simp

/-- A write is the event exactly when the output item is transferred out (R120). -/
theorem eventAt_write {d : Dir} {out v : Item} {s : State} :
    s.eventAt d out = some (.write v) ↔ s.phase = .wr ∧ s.outReady d = true ∧ v = out := by
  unfold State.eventAt
  cases hp : s.phase with
  | idle => simp
  | rd => cases s.pins.offer <;> cases s.inHead d <;> simp
  | wr => cases s.outReady d <;> simp [eq_comm]

/-- The item available to a B2W read: the channel's head first (R111). -/
@[simp] theorem inHead_b2w_cons {s : State} {b : Byte} {bs : List Byte} (h : s.byteCh.items = b :: bs) :
    s.inHead .b2w = some (ofByte b) := by
  simp [State.inHead, State.chanHead, h]

/-- The item available to a B2W read on an empty channel: what the producer offers at this edge (R120). -/
theorem inHead_b2w_nil {s : State} (h : s.byteCh.items = []) :
    s.inHead .b2w = if s.pins.offer then s.pins.drive.map (fun v => ofByte (toByte v)) else none := by
  simp [State.inHead, State.chanHead, State.driven, h]

/-- The item available to a W2B read: the channel's head first (R111). -/
@[simp] theorem inHead_w2b_cons {s : State} {v : Item} {vs : List Item} (h : s.wordCh.items = v :: vs) :
    s.inHead .w2b = some v := by
  simp [State.inHead, State.chanHead, h]

/-- The item available to a W2B read on an empty channel: what the producer offers at this edge (R120). -/
theorem inHead_w2b_nil {s : State} (h : s.wordCh.items = []) :
    s.inHead .w2b = if s.pins.offer then s.pins.drive else none := by
  simp [State.inHead, State.chanHead, State.driven, h]

/-- A transfer in is exactly a read event (R120, R133). -/
theorem transferIn_iff {i : Instr} {out : Item} {s : State} :
    s.transferIn i = true ↔ ∃ v, s.eventAt i.dir out = some (.read v) := by
  simp only [eventAt_read]
  cases hp : s.phase <;> cases ho : s.pins.offer <;> cases hh : s.inHead i.dir <;>
    simp [State.transferIn, State.inValid, State.inReady, hp, ho, hh]

/-- A transfer out is exactly a write event, of the output item (R120, R133). -/
theorem transferOut_iff {i : Instr} {s : State} :
    s.transferOut i = true ↔ s.eventAt i.dir (s.outItem i) = some (.write (s.outItem i)) := by
  rw [eventAt_write]
  cases hp : s.phase <;> simp [State.transferOut, State.outValid, hp]

/-- There is no event exactly when no start is accepted and no transfer happens. -/
theorem eventAt_none {d : Dir} {out : Item} {s : State} :
    s.eventAt d out = none ↔
      (s.phase = .idle → (s.pins.start && !s.pins.rst) = false) ∧
      (s.phase = .rd → s.inValid d = false) ∧ (s.phase = .wr → s.outReady d = false) := by
  unfold State.eventAt State.inValid
  cases hp : s.phase with
  | idle => simp
  | rd => cases s.pins.offer <;> cases s.inHead d <;> simp
  | wr => cases s.outReady d <;> simp

/-- Everything an edge can do when it answers a next state (R126, R127, R119, R233). -/
theorem edge_cases {d : Dir} {ev : Option Event} {r : Event → State → Result} {s t : State}
    (h : s.edge d ev r = .next t) :
    (s.pins.rst = true ∧ t = (s.moved d ev).resetRegs) ∨
    (s.pins.rst = false ∧ ∃ draw, s.unreset = some draw ∧ t = (s.moved d ev).drawRegs draw) ∨
    (s.pins.rst = false ∧ s.unreset = none ∧ ev = none ∧ t = s.setDone false) ∨
    (s.pins.rst = false ∧ s.unreset = none ∧ ∃ e, ev = some e ∧ r e (s.move d e) = .next t) := by
  unfold State.edge at h
  cases hr : s.pins.rst with
  | true => exact .inl ⟨rfl, by simpa [hr, eq_comm] using h⟩
  | false =>
    cases hu : s.unreset with
    | some draw => exact .inr (.inl ⟨rfl, draw, rfl, by simpa [hr, hu, eq_comm] using h⟩)
    | none =>
      cases ev with
      | none => exact .inr (.inr (.inl ⟨rfl, rfl, rfl, by simpa [hr, hu, eq_comm] using h⟩))
      | some e => exact .inr (.inr (.inr ⟨rfl, rfl, e, rfl, by simpa [hr, hu] using h⟩))

/-- After a reset edge has come, an edge without reset and without an event only clears done_r (R148, R178). -/
theorem edge_quiet {d : Dir} {r : Event → State → Result} {s : State} (hu : s.unreset = none)
    (hr : s.pins.rst = false) : s.edge d none r = .next (s.setDone false) := by
  simp [State.edge, hu, hr]

/-- After a reset edge has come, an edge without reset is its event's row (R148, R178). -/
theorem edge_row {d : Dir} {e : Event} {r : Event → State → Result} {s : State} (hu : s.unreset = none)
    (hr : s.pins.rst = false) : s.edge d (some e) r = r e (s.move d e) := by
  simp [State.edge, hu, hr]

/-- Everything the shared Start row can do (R121, R132). -/
theorem startRow_eq (n : Nat) (acc : Item) (s : State) :
    (n = 0 ∧ s.startRow n acc = .next (s.setDone true)) ∨
    (0 < n ∧ s.startRow n acc = .next { s with phase := .rd, i := 0, j := 0, acc := acc, doneR := false }) := by
  unfold State.startRow
  rcases Nat.eq_zero_or_pos n with h | h
  · exact .inl ⟨h, by simp [h]⟩
  · exact .inr ⟨h, by simp [Nat.pos_iff_ne_zero.mp h]⟩

/-- Everything the end of a word can do (R118). -/
theorem endWord_cases {n jNext jLast : Nat} {acc accLast : Item} {s t : State}
    (h : s.endWord n jNext jLast acc accLast = .next t) :
    (s.i + 1 < n ∧ t = { s with i := s.i + 1, j := jNext, acc := acc, phase := .rd, doneR := false }) ∨
    (s.i + 1 = n ∧ t = { s with j := jLast, acc := accLast, phase := .idle, doneR := true }) := by
  unfold State.endWord at h
  split at h
  · rename_i hlt
    simp only [Host.Outcome.next.injEq] at h
    exact .inl ⟨hlt, h.symm⟩
  · split at h
    · rename_i heq
      simp only [Host.Outcome.next.injEq] at h
      exact .inr ⟨heq, h.symm⟩
    · cases h

/-- Everything a B2W row can do when it answers a next state (R148). -/
theorem b2wRow_cases {e : Endian} {wl : WordLen} {n : Nat} {ev : Event} {s t : State}
    (h : b2wRow e wl n ev s = .next t) :
    (ev = .start ∧ n = 0 ∧ t = s.setDone true) ∨
    (ev = .start ∧ 0 < n ∧ t = { s with phase := .rd, i := 0, j := 0, acc := 0#64, doneR := false }) ∨
    (∃ v, ev = .read v ∧ s.j + 1 < wl.bytes ∧
      t = { s with acc := toItem wl (stepB2W e (s.accW wl) (toByte v)), j := s.j + 1, doneR := false }) ∨
    (∃ v, ev = .read v ∧ s.j + 1 = wl.bytes ∧
      t = { s with acc := toItem wl (stepB2W e (s.accW wl) (toByte v)), j := 0, phase := .wr, doneR := false }) ∨
    (∃ v, ev = .write v ∧ s.i + 1 < n ∧
      t = { s with i := s.i + 1, acc := 0#64, phase := .rd, doneR := false }) ∨
    (∃ v, ev = .write v ∧ s.i + 1 = n ∧ t = { s with phase := .idle, doneR := true }) := by
  cases ev with
  | start =>
    rcases startRow_eq n 0#64 s with ⟨h0, hs⟩ | ⟨h0, hs⟩ <;>
      (simp only [b2wRow] at h; rw [hs] at h; simp only [Host.Outcome.next.injEq] at h)
    · exact .inl ⟨rfl, h0, h.symm⟩
    · exact .inr (.inl ⟨rfl, h0, h.symm⟩)
  | read v =>
    simp only [b2wRow] at h
    split at h
    · rename_i hj
      simp only [Host.Outcome.next.injEq] at h
      exact .inr (.inr (.inl ⟨v, rfl, hj, h.symm⟩))
    · split at h
      · rename_i hj
        simp only [Host.Outcome.next.injEq] at h
        exact .inr (.inr (.inr (.inl ⟨v, rfl, hj, h.symm⟩)))
      · cases h
  | write v =>
    rcases endWord_cases h with ⟨hi, ht⟩ | ⟨hi, ht⟩
    · exact .inr (.inr (.inr (.inr (.inl ⟨v, rfl, hi, ht⟩))))
    · exact .inr (.inr (.inr (.inr (.inr ⟨v, rfl, hi, ht⟩))))

/-- Everything a W2B row can do when it answers a next state (R178). -/
theorem w2bRow_cases {e : Endian} {wl : WordLen} {n : Nat} {ev : Event} {s t : State}
    (h : w2bRow e wl n ev s = .next t) :
    (ev = .start ∧ n = 0 ∧ t = s.setDone true) ∨
    (ev = .start ∧ 0 < n ∧ t = { s with phase := .rd, i := 0, j := 0, doneR := false }) ∨
    (∃ v, ev = .read v ∧
      t = { s with acc := toItem wl (ofItem wl v), j := 0, phase := .wr, doneR := false }) ∨
    (∃ v, ev = .write v ∧ s.j + 1 < wl.bytes ∧
      t = { s with acc := toItem wl (shiftW2B e (s.accW wl)), j := s.j + 1, doneR := false }) ∨
    (∃ v, ev = .write v ∧ s.j + 1 = wl.bytes ∧ s.i + 1 < n ∧
      t = { s with acc := toItem wl (shiftW2B e (s.accW wl)), j := 0, i := s.i + 1, phase := .rd, doneR := false }) ∨
    (∃ v, ev = .write v ∧ s.j + 1 = wl.bytes ∧ s.i + 1 = n ∧
      t = { s with acc := toItem wl (shiftW2B e (s.accW wl)), phase := .idle, doneR := true }) := by
  cases ev with
  | start =>
    rcases startRow_eq n s.acc s with ⟨h0, hs⟩ | ⟨h0, hs⟩ <;>
      (simp only [w2bRow] at h; rw [hs] at h; simp only [Host.Outcome.next.injEq] at h)
    · exact .inl ⟨rfl, h0, h.symm⟩
    · exact .inr (.inl ⟨rfl, h0, h.symm⟩)
  | read v =>
    simp only [w2bRow, Host.Outcome.next.injEq] at h
    exact .inr (.inr (.inl ⟨v, rfl, h.symm⟩))
  | write v =>
    simp only [w2bRow] at h
    split at h
    · rename_i hj
      simp only [Host.Outcome.next.injEq] at h
      exact .inr (.inr (.inr (.inl ⟨v, rfl, hj, h.symm⟩)))
    · split at h
      · rename_i hj
        rcases endWord_cases h with ⟨hi, ht⟩ | ⟨hi, ht⟩
        · exact .inr (.inr (.inr (.inr (.inl ⟨v, rfl, hj, hi, ht⟩))))
        · exact .inr (.inr (.inr (.inr (.inr ⟨v, rfl, hj, hi, ht⟩))))
      · cases h

/-- The environment's moves change no register (R20, R30). -/
theorem present_sameRegs (s : State) (d : Dir) : s.SameRegs (s.present d) := by
  simp [State.SameRegs]

end Sys2Proof.Machine
end

