-- ==== Sys2Proof/Laws/PerInstr.lean ====
section
/-! SUPPORT. The statements made per instruction, one lemma for each constructor of `Instr`: every instruction's encoding
is a legal configuration word, in its row of the opcode table. -/

namespace Sys2Proof.Laws.EncodingLegal

/-- The encoding is legal (R87), has RSV = 00 and gives back WL and N. -/
def Statement (i : Instr) : Prop :=
  legal (encode i).1 = true ∧ (encode i).1 &&& 0xC0#8 = 0#8 ∧ cwWl (encode i).1 = i.wl ∧ (encode i).2 = i.n

/-- The RSV bits of a configuration word `00ww....` are 0 (R86). -/
theorem rsv_of_encoding (wl : WordLen) : ∀ r : BitVec 4, (0b00#2 ++ wl.toBits ++ r) &&& 0xC0#8 = 0#8 := by
  cases wl <;> decide

/-- The WL field of a configuration word `00ww....` is its WL (R85). -/
theorem wl_of_encoding (wl : WordLen) : ∀ r : BitVec 4, cwWl (0b00#2 ++ wl.toBits ++ r) = wl := by
  cases wl <;> decide

/-- A configuration word whose low bits are a row of R91 is legal, whatever its WL. -/
theorem legal_of_row (wl : WordLen) :
    ∀ r : BitVec 4, r = 0b0000#4 ∨ r = 0b0010#4 ∨ r = 0b0001#4 ∨ r = 0b0011#4 ∨ r = 0b1101#4 ∨ r = 0b1111#4 →
      legal (0b00#2 ++ wl.toBits ++ r) = true := by
  cases wl <;> decide

theorem b2wLe (wl : WordLen) (b : BurstLen) : Statement (.b2wLe wl b) := by
  exact ⟨legal_of_row wl _ (by simp [Instr.rowBits]), rsv_of_encoding _ _, wl_of_encoding _ _, rfl⟩
theorem b2wBe (wl : WordLen) (b : BurstLen) : Statement (.b2wBe wl b) := by
  exact ⟨legal_of_row wl _ (by simp [Instr.rowBits]), rsv_of_encoding _ _, wl_of_encoding _ _, rfl⟩
theorem w2bULe (wl : WordLen) (b : BurstLen) : Statement (.w2bULe wl b) := by
  exact ⟨legal_of_row wl _ (by simp [Instr.rowBits]), rsv_of_encoding _ _, wl_of_encoding _ _, rfl⟩
theorem w2bUBe (wl : WordLen) (b : BurstLen) : Statement (.w2bUBe wl b) := by
  exact ⟨legal_of_row wl _ (by simp [Instr.rowBits]), rsv_of_encoding _ _, wl_of_encoding _ _, rfl⟩
theorem w2bSLe (wl : WordLen) (b : BurstLen) : Statement (.w2bSLe wl b) := by
  exact ⟨legal_of_row wl _ (by simp [Instr.rowBits]), rsv_of_encoding _ _, wl_of_encoding _ _, rfl⟩
theorem w2bSBe (wl : WordLen) (b : BurstLen) : Statement (.w2bSBe wl b) := by
  exact ⟨legal_of_row wl _ (by simp [Instr.rowBits]), rsv_of_encoding _ _, wl_of_encoding _ _, rfl⟩

end Sys2Proof.Laws.EncodingLegal
end

