-- ==== Sys2Proof/Laws/Run.lean ====
section
/-! SUPPORT. Runs of the machine, one step at a time, and the environment past the end of its script. -/

namespace Sys2Proof.Machine

/-- No step answers the state itself. -/
theorem reaches_zero {s t : State} : Reaches 0 s t ↔ s = t :=
  ⟨fun h => Host.Outcome.next.inj h, fun h => h ▸ rfl⟩

/-- A run of k + 1 steps of any core is one step and then a run of k. -/
theorem core_run_succ (M : Host.Core) (k : Nat) (s t : M.State) :
    M.run (k + 1) s = .next t ↔ ∃ u, M.step s = .next u ∧ M.run k u = .next t := by
  simp only [Host.Core.run]
  cases hs : M.step s with
  | next u => simp
  | fault r => simp
  | refused r => simp

/-- A run of k + 1 steps is one step and then a run of k. -/
theorem reaches_succ {k : Nat} {s t : State} :
    Reaches (k + 1) s t ↔ ∃ u, step s = .next u ∧ Reaches k u t :=
  core_run_succ Sys2Proof.core k s t

/-- A run made of two runs. -/
theorem reaches_add {k m : Nat} {s u t : State} (h1 : Reaches k s u) (h2 : Reaches m u t) :
    Reaches (k + m) s t := by
  induction k generalizing s with
  | zero =>
    rw [reaches_zero] at h1
    subst h1
    simpa using h2
  | succ k ih =>
    obtain ⟨v, hv, hk⟩ := reaches_succ.mp h1
    have hadd : k + 1 + m = (k + m) + 1 := by omega
    rw [hadd]
    exact reaches_succ.mpr ⟨v, hv, ih hk⟩

/-- Past the end of its script the environment leaves both channels as they are. -/
theorem present_quiet_channels {s : State} (h : s.script = []) (d : Dir) :
    (s.present d).byteCh = s.byteCh ∧ (s.present d).wordCh = s.wordCh := by
  cases d <;> simp [h, EnvEdge.quiet]

/-- Past the end of its script the environment asserts neither reset nor start, and offers and accepts. -/
theorem present_quiet_pins {s : State} (h : s.script = []) (d : Dir) :
    (s.present d).pins = ⟨false, false, true, true, none⟩ := by
  simp [h, EnvEdge.quiet]

/-- A step of a legal configuration is the environment's moves and one edge of its instruction. -/
theorem step_ok {s : State} {i : Instr} (h : s.cfg = .ok i) : step s = exec i (s.present i.dir) := by
  simp [step, h]

/-- The labels of a run of k + 1 steps are those of its first edge and then those of the rest. -/
theorem runLabels_succ {i : Instr} {s u : State} (k : Nat) (h : step s = .next u) :
    runLabels i (k + 1) s = edgeLabels i (s.present i.dir) ++ runLabels i k u := by
  simp [runLabels, h]

/-- The labels of an edge without an event: reset's or none (R119). -/
theorem edgeLabels_none {i : Instr} {s : State} (h : s.eventAt i.dir (s.outItem i) = none) :
    edgeLabels i s = if s.pins.rst then [.reset] else [] := by
  have h' := eventAt_none.mp h
  cases hp : s.phase <;> cases hr : s.pins.rst <;>
    simp_all [edgeLabels, edgeEnds, txDone, txEnabled, State.idle, State.transferOut, State.outValid]

/-- The labels of a start: it ends at once when the burst is empty (R115, R132). -/
theorem edgeLabels_start {i : Instr} {s : State} (h : s.eventAt i.dir (s.outItem i) = some .start) :
    edgeLabels i s = .event .start :: (if i.n = 0 then [.done] else []) := by
  have h' := eventAt_start.mp h
  simp [edgeLabels, edgeEnds, h, h', txDone, txEnabled, State.idle, State.transferOut, State.outValid]

/-- The labels of a read: no read ends an invocation. -/
theorem edgeLabels_read {i : Instr} {s : State} {v : Item}
    (h : s.eventAt i.dir (s.outItem i) = some (.read v)) :
    edgeLabels i s = .event (.read v) :: (if s.pins.rst then [.reset] else []) := by
  have h' := eventAt_read.mp h
  simp [edgeLabels, edgeEnds, h, h', txDone, txEnabled, State.idle, State.transferOut, State.outValid]

/-- The labels of a write: without reset the last one of the burst ends the invocation, and at a reset edge none does
(R127, R130). -/
theorem edgeLabels_write {i : Instr} {s : State} {v : Item}
    (h : s.eventAt i.dir (s.outItem i) = some (.write v)) :
    edgeLabels i s = .event (.write v) ::
      (if s.pins.rst then [.reset] else if txDone i s .write then [.done] else []) := by
  have h' := eventAt_write.mp h
  cases hr : s.pins.rst <;>
    simp [edgeLabels, edgeEnds, h, h', hr, txDone, txEnabled, State.idle, State.transferOut, State.outValid]

@[simp] theorem runLabels_zero (i : Instr) (s : State) : runLabels i 0 s = [] := rfl
@[simp] theorem readItems_append (ls ms : List Label) : readItems (ls ++ ms) = readItems ls ++ readItems ms := by
  simp [readItems]
@[simp] theorem writeItems_append (ls ms : List Label) : writeItems (ls ++ ms) = writeItems ls ++ writeItems ms := by
  simp [writeItems]
@[simp] theorem startCount_append (ls ms : List Label) : startCount (ls ++ ms) = startCount ls + startCount ms := by
  simp [startCount]
@[simp] theorem doneCount_append (ls ms : List Label) : doneCount (ls ++ ms) = doneCount ls + doneCount ms := by
  simp [doneCount]

end Sys2Proof.Machine
end

