-- ==== Sys2Proof/Laws/System.lean ====
section
/-! SUPPORT. What one edge of a system can do, runs of a system, and what a successful decode says. -/

namespace Sys2Proof.Machine

/-- Everything one edge of a system can do when it answers a next system (R210). -/
theorem stepInst_cases {sys sys' : System} {k : Nat} (h : sys.stepInst k = .next sys') :
    ∃ x s t, sys.insts[k]? = some x ∧ sys.load x = some s ∧ step s = .next t ∧ sys' = sys.store k x t := by
  unfold System.stepInst at h
  cases hx : sys.insts[k]? with
  | none => simp [hx] at h
  | some x =>
    cases hl : sys.load x with
    | none => simp [hx, hl] at h
    | some s =>
      cases hs : step s with
      | next t =>
        simp only [hx, hl, hs, Host.Outcome.next.injEq] at h
        exact ⟨x, s, t, rfl, hl, hs, h.symm⟩
      | fault f => simp [hx, hl, hs] at h
      | refused r => simp [hx, hl, hs] at h

@[simp] theorem run_nil (sys : System) : System.run [] sys = .next sys := rfl

/-- A run is its first edge and then the rest. -/
theorem run_cons {k : Nat} {ks : List Nat} {sys sys' : System} :
    System.run (k :: ks) sys = .next sys' ↔ ∃ u, sys.stepInst k = .next u ∧ System.run ks u = .next sys' := by
  simp only [System.run]
  cases hs : sys.stepInst k <;> simp

/-- A run of two schedules, one after the other. -/
theorem run_append {ks ms : List Nat} {sys u sys' : System} (h1 : System.run ks sys = .next u)
    (h2 : System.run ms u = .next sys') : System.run (ks ++ ms) sys = .next sys' := by
  induction ks generalizing sys with
  | nil =>
    simp only [run_nil, Host.Outcome.next.injEq] at h1
    subst h1
    exact h2
  | cons k ks ih =>
    obtain ⟨v, hv, hk⟩ := run_cons.mp h1
    exact run_cons.mpr ⟨v, hv, ih hk⟩

/-- A successful decode: N is within the bound, and the instruction is the one the fields select (R88, R91). -/
theorem decode_ok {nMax n : Nat} {cw : BitVec 8} {i : Instr} (h : decode nMax cw n = .ok i) :
    ∃ hn : n ≤ nMax, i = Instr.ofFields (cwDir cw) (cwE cw) (cwS cw) (cwWl cw) ⟨nMax, n, hn⟩ := by
  unfold decode at h
  split at h
  · cases h
  split at h
  · cases h
  split at h
  · cases h
  split at h
  · cases h
  split at h
  · rename_i hn
    simp only [Except.ok.injEq] at h
    exact ⟨hn, h.symm⟩
  · cases h

end Sys2Proof.Machine
end

