-- ==== Sys2Proof/Tests/Slice0.lean ====
section
/-! SUPPORT. The model's own tests: ill-formed terms the checks refuse, configuration words written out from R91,
vectors of spec/95_test_vectors.md one step at a time, and for every statement with hypotheses a state that meets
them. -/

namespace Sys2Proof.Tests

open Sys2Proof Sys2Proof.Machine

/-- The burst length n under the bound 9. -/
def up (n : Nat) (h : n ≤ 9 := by decide) : BurstLen := ⟨9, n, h⟩

/-! ### Well-formedness: one ill-formed term for each check -/

theorem test_wf_instr_accepts_bound : Instr.wf 5 (.b2wLe .k1 ⟨9, 5, by decide⟩) = true := by decide
theorem test_wf_instr_refuses_long_burst : Instr.wf 5 (.b2wLe .k1 ⟨9, 6, by decide⟩) = false := by decide
theorem test_wf_request_accepts : Request.wf 5 ⟨.w2b, .big, .signed, .integer .signed 8, 5⟩ = true := by decide
theorem test_wf_request_refuses_non_integer :
    Request.integerType ⟨.w2b, .big, .signed, .nonInteger, 1⟩ = false := by decide
theorem test_wf_request_refuses_width :
    Request.widthAdmitted ⟨.w2b, .little, .unsigned, .integer .unsigned 3, 1⟩ = false := by decide
theorem test_wf_request_refuses_signed_b2w :
    Request.signsAgree ⟨.b2w, .little, .unsigned, .integer .signed 2, 1⟩ = false := by decide
theorem test_wf_request_refuses_mismatch :
    Request.signsAgree ⟨.w2b, .little, .signed, .integer .unsigned 2, 1⟩ = false := by decide
theorem test_wf_request_refuses_long_burst :
    Request.wf 5 ⟨.b2w, .little, .unsigned, .integer .unsigned 2, 6⟩ = false := by decide

/-! ### Decoding: words written out bit by bit from the encodings of R91 -/

theorem test_decode_b2wLe : decode 9 0b00000000#8 3 = .ok (.b2wLe .k1 (up 3)) := by decide
theorem test_decode_b2wBe : decode 9 0b00010010#8 9 = .ok (.b2wBe .k2 (up 9)) := by decide
theorem test_decode_w2bULe : decode 9 0b00100001#8 0 = .ok (.w2bULe .k4 (up 0)) := by decide
theorem test_decode_w2bUBe : decode 9 0b00110011#8 1 = .ok (.w2bUBe .k8 (up 1)) := by decide
theorem test_decode_w2bSLe : decode 9 0b00011101#8 2 = .ok (.w2bSLe .k2 (up 2)) := by decide
theorem test_decode_w2bSBe : decode 9 0b00111111#8 4 = .ok (.w2bSBe .k8 (up 4)) := by decide

/-- The refusals of 95_test_vectors section 2. -/
theorem test_decode_refusals :
    decode 9 0x40#8 1 = .error .reservedBits ∧ decode 9 0xCD#8 1 = .error .reservedBits ∧
    decode 9 0x08#8 1 = .error .b2wSignedType ∧ decode 9 0x0C#8 1 = .error .b2wSignedType ∧
    decode 9 0x04#8 1 = .error .b2wSignednessParam ∧ decode 9 0x05#8 1 = .error .w2bTypeMismatch ∧
    decode 9 0x09#8 1 = .error .w2bTypeMismatch ∧ decode 9 0x3B#8 1 = .error .w2bTypeMismatch ∧
    decode 9 0x00#8 10 = .error .burstTooLong := by decide

theorem test_decodeTableWord : decodeTableWord 8 0x3F = some (.w2bSBe .k8 ⟨Config.resetNMax, 0, by decide⟩) := by decide
theorem test_decodeTableWord_refuses : decodeTableWord 8 0x40 = none := by decide

/-- Texts of 95_test_vectors section 2: `b2w.u32`, `b2w.le.s16` and `w2b.le.u24`. -/
theorem test_text_pseudo : parseConfig 9 ['b', '2', 'w', '.', 'u', '3', '2'] = .ok (.b2wLe .k4 (up 1)) := by decide
theorem test_text_signed_b2w :
    parseConfig 9 ['b', '2', 'w', '.', 'l', 'e', '.', 's', '1', '6'] = .error (.config .b2wSignedType) := by
  decide
/-- `b2w.s16` without its byte order is refused as `b2w.le.s16` is (log entry 14), and `b2w.16` is malformed. -/
theorem test_text_signed_b2w_short :
    parseConfig 9 ['b', '2', 'w', '.', 's', '1', '6'] = .error (.config .b2wSignedType) ∧
      parseConfig 9 ['b', '2', 'w', '.', '1', '6'] = .error .malformed := by decide
theorem test_text_width :
    parseConfig 9 ['w', '2', 'b', '.', 'l', 'e', '.', 'u', '2', '4'] = .error (.config .widthNotAdmitted) := by
  decide

/-! ### One step at a time -/

/-- An idle instance with the given configuration and channel items, unbounded channels. -/
def st (cw : BitVec 8) (n : Nat) (bs : List Byte) (ws : List Item) : State :=
  { State.reset with
    cfg := decode 9 cw n
    byteCh := ⟨none, [], bs, []⟩
    wordCh := ⟨none, [], ws, []⟩
    pins := ⟨false, true, true, true, none⟩ }

/-- The state a step answers. -/
def nextOf (r : Result) : Option State :=
  match r with
  | .next t => some t
  | .fault _ => none
  | .refused _ => none

/-- B8 of 95_test_vectors: the accumulator after the second byte of 78 56 34 12. -/
theorem test_b2wLe_second_byte :
    (nextOf (exec (.b2wLe .k4 (up 1))
      { st 0x20#8 1 [0x56#8] [] with phase := .rd, j := 1, acc := 0x78000000#64 })).map (fun t => (t.acc, t.j)) =
      some (0x56780000#64, 2) := by decide
/-- Case (a) of section 5, edge 6: the last word goes out and the invocation ends with its pulse. -/
theorem test_b2wLe_last_word :
    (nextOf (exec (.b2wLe .k2 (up 2))
      { st 0x10#8 2 [] [0x0001#64] with phase := .wr, i := 1, acc := 0x0203#64 })).map
        (fun t => (t.phase, t.doneR, t.wordCh.items)) =
      some (.idle, true, [0x0001#64, 0x0203#64]) := by decide
/-- B9: the accumulator after the last byte of 12 34 56 78. -/
theorem test_b2wBe_last_byte :
    (nextOf (exec (.b2wBe .k4 (up 1))
      { st 0x22#8 1 [0x78#8] [] with phase := .rd, j := 3, acc := 0x00123456#64 })).map
        (fun t => (t.acc, t.phase)) = some (0x12345678#64, .wr) := by decide
/-- W1: the first byte out of 12345678 and the accumulator after it. -/
theorem test_w2bULe_first_byte :
    (nextOf (exec (.w2bULe .k4 (up 1))
      { st 0x21#8 1 [] [] with phase := .wr, acc := 0x12345678#64 })).map (fun t => (t.acc, t.byteCh.items)) =
      some (0x00123456#64, [0x78#8]) := by decide
/-- W2: the first byte out of 12345678 in big-endian order. -/
theorem test_w2bUBe_first_byte :
    (nextOf (exec (.w2bUBe .k4 (up 1))
      { st 0x23#8 1 [] [] with phase := .wr, acc := 0x12345678#64 })).map (fun t => (t.acc, t.byteCh.items)) =
      some (0x34567800#64, [0x12#8]) := by decide
/-- W10: the second and last byte of -32768 is 80. -/
theorem test_w2bSLe_last_byte :
    (nextOf (exec (.w2bSLe .k2 (up 1))
      { st 0x1D#8 1 [0x00#8] [] with phase := .wr, j := 1, acc := 0x0080#64 })).map
        (fun t => (t.phase, t.byteCh.items)) = some (.idle, [0x00#8, 0x80#8]) := by decide
/-- W9: the first byte of -2 in big-endian order is FF; the word is carried as its pattern. -/
theorem test_w2bSBe_first_byte :
    (nextOf (exec (.w2bSBe .k2 (up 1))
      { st 0x1F#8 1 [] [] with phase := .wr, acc := patternW .k2 (-2) })).map
        (fun t => (t.acc, t.byteCh.items)) = some (0xFE00#64, [0xFF#8]) := by decide
/-- Case (c) of section 5: at the reset edge byte 03 is consumed and discarded. -/
theorem test_reset_edge_discards :
    (nextOf (exec (.b2wLe .k2 (up 2))
      { st 0x10#8 2 [0x03#8, 0x02#8] [0x0001#64] with
        phase := .rd, i := 1, pins := ⟨true, false, true, true, none⟩ })).map
        (fun t => (t.phase, t.acc, t.i, t.byteCh.items, t.wordCh.items)) =
      some (.idle, 0#64, 0, [0x02#8], [0x0001#64]) := by decide
/-- A table word runs as the first instruction after reset: an empty burst ends at its start edge (R132). -/
theorem test_withFetchWord_runs :
    (nextOf (step (State.reset.withFetchWord 8 0x22))).map (fun t => (t.phase, t.doneR)) = some (.idle, true) := by
  decide
/-- The same with N = 2 counted on above the configuration word: the loop is entered. -/
theorem test_withFetchWord_burst :
    (nextOf (step (State.reset.withFetchWord 16 0x0222))).map (fun t => (t.phase, t.cfg)) =
      some (.rd, .ok (.b2wBe .k4 ⟨Config.resetNMax, 2, by decide⟩)) := by
  decide
/-- A step of a configuration without an instance is refused. -/
theorem test_step_refuses_illegal :
    (match step (st 0x04#8 1 [] []) with
      | .refused (.config r) => some r
      | _ => none) = some .b2wSignednessParam := by decide

/-! ### Witnesses: a state and operands that meet the hypotheses of each statement -/

/-- What a run of k steps answers. -/
def runOf (k : Nat) (s : State) : Option State := nextOf (Sys2Proof.core.run k s)

theorem reaches_of_runOf {k : Nat} {s t : State} (h : runOf k s = some t) : Reaches k s t := by
  unfold runOf nextOf at h
  unfold Reaches
  split at h
  · rename_i u hu
    rw [hu]
    exact congrArg _ (Option.some.inj h)
  · cases h
  · cases h

/-- A run that answers a state with a property. -/
theorem reaches_with {k : Nat} {s : State} {P : State → Bool} (h : (runOf k s).any P = true) :
    ∃ t, Reaches k s t ∧ P t = true := by
  cases hr : runOf k s with
  | none => simp [hr] at h
  | some t => exact ⟨t, reaches_of_runOf hr, by simpa [hr] using h⟩

theorem witness_refused : decode 9 0x40#8 1 = .error .reservedBits ∧ decode 9 0x00#8 10 = .error .burstTooLong := by
  decide
theorem witness_rows : (9 : Nat) ≤ 9 ∧ (0x3F#8 &&& 0xCF#8 = 0x0F#8) ∧ (0x40#8 &&& 0xCF#8 ≠ 0x00#8) := by decide
theorem witness_request_nonInteger : (⟨.b2w, .little, .unsigned, .nonInteger, 1⟩ : Request).type = .nonInteger := rfl
theorem witness_request_width :
    (⟨.b2w, .little, .unsigned, .integer .unsigned 3, 1⟩ : Request).type = .integer .unsigned 3 ∧
      3 ∉ [1, 2, 4, 8] := by decide
theorem witness_request_configuration :
    Request.configuration 9 ⟨.b2w, .big, .unsigned, .integer .unsigned 8, 9⟩ = .ok (.b2wBe .k8 (up 9)) := by decide
theorem witness_text_wf : Instr.wf 9 (.w2bSBe .k8 (up 9)) = true := by decide
theorem witness_pseudo_bound : 1 ≤ 1 := le_refl 1
theorem witness_bytes_of_a_word :
    [0x01#8, 0x02#8].length ≤ 4 ∧ [0x01#8, 0x02#8, 0x03#8, 0x04#8].length = 4 ∧ (3 : Nat) < 4 := by decide
theorem witness_emission_index : (4 : Nat) ≤ 4 ∧ (3 : Nat) < 4 := by decide
theorem witness_fitting_words : ∀ v ∈ [0xFFFF#64, 0x0000#64], fits .k2 v = true := by
  simp [fits, WordLen.bits, WordLen.bytes]
theorem witness_signed_words :
    ∀ v ∈ [(-32768 : Int), 32767], -(2 ^ (WordLen.k2.bits - 1) : Int) ≤ v ∧ v < (2 ^ (WordLen.k2.bits - 1) : Int) := by
  decide
theorem witness_burst_lengths :
    [0x01#8].length < 1 * WordLen.k2.bytes ∧ 1 * WordLen.k2.bytes ≤ [0x01#8, 0x02#8].length ∧
      ([] : List Item).length < 1 ∧ 1 ≤ [0x0001#64].length := by decide
theorem witness_stream_position :
    2 * WordLen.k2.bytes ≤ [0x01#8, 0x02#8, 0x03#8, 0x04#8].length ∧ 3 < 2 * WordLen.k2.bytes := by decide
theorem witness_endian_mismatch : Endian.little ≠ Endian.big := by decide

/-! The nine rows of R148, for `.b2wLe .k2 2`, and of R178, for `.w2bUBe .k2 2`. -/

theorem witness_b2w_dirs : (Instr.b2wLe .k2 (up 2)).dir = .b2w ∧ (Instr.b2wBe .k2 (up 2)).dir = .b2w := by decide
theorem witness_b2w_idle : let s := { st 0x10#8 2 [] [] with pins := ⟨false, false, true, true, none⟩ }
    s.pins.rst = false ∧ s.phase = .idle ∧ s.pins.start = false := by decide
theorem witness_b2w_start_empty : let s := st 0x10#8 0 [] []
    s.pins.rst = false ∧ s.phase = .idle ∧ s.pins.start = true ∧ (Instr.b2wLe .k2 (up 0)).n = 0 := by decide
theorem witness_b2w_start : let s := st 0x10#8 1 [] []
    s.pins.rst = false ∧ s.phase = .idle ∧ s.pins.start = true ∧ 0 < (Instr.b2wLe .k2 (up 1)).n := by decide
theorem witness_b2w_starved : let s := { st 0x10#8 2 [] [] with phase := .rd }
    s.pins.rst = false ∧ s.phase = .rd ∧ s.inValid .b2w = false := by decide
theorem witness_b2w_byte : let s := { st 0x10#8 2 [0x05#8] [] with phase := .rd }
    s.pins.rst = false ∧ s.phase = .rd ∧ s.inValid .b2w = true ∧ s.inHead .b2w = some (ofByte 0x05#8) ∧
      s.j + 1 < WordLen.k2.bytes := by decide
theorem witness_b2w_last_byte : let s := { st 0x10#8 2 [0x05#8] [] with phase := .rd, j := 1 }
    s.pins.rst = false ∧ s.phase = .rd ∧ s.inValid .b2w = true ∧ s.inHead .b2w = some (ofByte 0x05#8) ∧
      s.j + 1 = WordLen.k2.bytes := by decide
theorem witness_b2w_backpressure :
    let s := { st 0x10#8 2 [] [] with phase := .wr, wordCh := ⟨some 1, [], [0x0001#64], []⟩ }
    s.pins.rst = false ∧ s.phase = .wr ∧ s.outReady .b2w = false := by decide
theorem witness_b2w_word : let s := { st 0x10#8 2 [] [] with phase := .wr, acc := 0xFFFF#64 }
    s.pins.rst = false ∧ s.phase = .wr ∧ s.outReady .b2w = true ∧ fits .k2 s.acc = true ∧ s.i + 1 < 2 := by decide
theorem witness_b2w_last_word : let s := { st 0x10#8 2 [] [] with phase := .wr, i := 1, acc := 0xFFFF#64 }
    s.pins.rst = false ∧ s.phase = .wr ∧ s.outReady .b2w = true ∧ fits .k2 s.acc = true ∧ s.i + 1 = 2 := by decide

theorem witness_w2b_dirs :
    (Instr.w2bULe .k2 (up 2)).dir = .w2b ∧ (Instr.w2bUBe .k2 (up 2)).dir = .w2b ∧ (Instr.w2bSLe .k2 (up 2)).dir = .w2b ∧
      (Instr.w2bSBe .k2 (up 2)).dir = .w2b := by decide
theorem witness_w2b_idle : let s := { st 0x13#8 2 [] [] with pins := ⟨false, false, true, true, none⟩ }
    s.pins.rst = false ∧ s.phase = .idle ∧ s.pins.start = false := by decide
theorem witness_w2b_start_empty : let s := st 0x13#8 0 [] []
    s.pins.rst = false ∧ s.phase = .idle ∧ s.pins.start = true ∧ (Instr.w2bUBe .k2 (up 0)).n = 0 := by decide
theorem witness_w2b_start : let s := st 0x13#8 1 [] []
    s.pins.rst = false ∧ s.phase = .idle ∧ s.pins.start = true ∧ 0 < (Instr.w2bUBe .k2 (up 1)).n := by decide
theorem witness_w2b_starved : let s := { st 0x13#8 2 [] [] with phase := .rd }
    s.pins.rst = false ∧ s.phase = .rd ∧ s.inValid .w2b = false := by decide
theorem witness_w2b_word : let s := { st 0x13#8 2 [] [0xFFFF#64] with phase := .rd }
    s.pins.rst = false ∧ s.phase = .rd ∧ s.inValid .w2b = true ∧ s.inHead .w2b = some 0xFFFF#64 := by decide
theorem witness_w2b_backpressure :
    let s := { st 0x13#8 2 [] [] with phase := .wr, byteCh := ⟨some 1, [], [0x01#8], []⟩ }
    s.pins.rst = false ∧ s.phase = .wr ∧ s.outReady .w2b = false := by decide
theorem witness_w2b_byte : let s := { st 0x13#8 2 [] [] with phase := .wr, acc := 0x1234#64 }
    s.pins.rst = false ∧ s.phase = .wr ∧ s.outReady .w2b = true ∧ s.j + 1 < WordLen.k2.bytes := by decide
theorem witness_w2b_last_byte : let s := { st 0x13#8 2 [] [] with phase := .wr, j := 1, acc := 0x3400#64 }
    s.pins.rst = false ∧ s.phase = .wr ∧ s.outReady .w2b = true ∧ s.j + 1 = WordLen.k2.bytes ∧ s.i + 1 < 2 := by
  decide
theorem witness_w2b_last_byte_of_burst :
    let s := { st 0x13#8 2 [] [] with phase := .wr, i := 1, j := 1, acc := 0x3400#64 }
    s.pins.rst = false ∧ s.phase = .wr ∧ s.outReady .w2b = true ∧ s.j + 1 = WordLen.k2.bytes ∧ s.i + 1 = 2 := by
  decide

/-! The reset edge, with a transfer in, with a transfer out, and with neither, in each block. -/

theorem witness_reset_b2w_in :
    let s := { st 0x10#8 2 [0x03#8] [] with phase := .rd, pins := ⟨true, true, true, true, none⟩ }
    s.pins.rst = true ∧ s.transferIn (.b2wLe .k2 (up 2)) = true := by decide
theorem witness_reset_b2w_out :
    let s := { st 0x10#8 2 [] [] with phase := .wr, i := 1, pins := ⟨true, true, true, true, none⟩ }
    s.pins.rst = true ∧ s.transferOut (.b2wLe .k2 (up 2)) = true := by decide
theorem witness_reset_w2b_in :
    let s := { st 0x13#8 2 [] [0x1234#64] with phase := .rd, pins := ⟨true, true, true, true, none⟩ }
    s.pins.rst = true ∧ s.transferIn (.w2bUBe .k2 (up 2)) = true := by decide
theorem witness_reset_w2b_out :
    let s := { st 0x13#8 2 [] [] with phase := .wr, pins := ⟨true, true, true, true, none⟩ }
    s.pins.rst = true ∧ s.transferOut (.w2bUBe .k2 (up 2)) = true := by decide
theorem witness_reset_neither :
    let s := { st 0x13#8 2 [] [] with pins := ⟨true, true, true, true, none⟩ }
    s.pins.rst = true ∧ s.transferIn (.w2bUBe .k2 (up 2)) = false ∧ s.transferOut (.w2bUBe .k2 (up 2)) = false := by decide

/-- Edges that answer a next state, for the frame, one-transfer, start-ignored and done statements. -/
theorem witness_edge_answers :
    ∃ t, exec (.b2wLe .k2 (up 2)) { st 0x10#8 2 [0x05#8] [] with phase := .rd } = .next t := ⟨_, rfl⟩
theorem witness_edge_answers_w2b :
    ∃ t, exec (.w2bSBe .k2 (up 2)) { st 0x1F#8 2 [] [0x1234#64] with phase := .rd } = .next t := ⟨_, rfl⟩
theorem witness_busy : ({ st 0x10#8 2 [0x05#8] [] with phase := .rd } : State).phase ≠ .idle := by decide

/-- A state in the ranges of R20 at their upper ends, in WR, for each block. -/
theorem witness_inRange :
    State.InRange (.w2bULe .k2 (up 2)) { st 0x11#8 2 [] [] with phase := .wr, i := 1, j := 1 } ∧
    State.InRange (.b2wLe .k2 (up 2)) { st 0x10#8 2 [] [] with phase := .wr, i := 1 } := by
  unfold State.InRange
  decide
/-- States for each clause of the done and refinement statements. -/
theorem witness_transaction_start : let s := st 0x10#8 0 [] []
    s.pins.rst = false ∧ s.phase = .idle ∧ s.pins.start = true ∧ (Instr.b2wLe .k2 (up 0)).n = 0 := by decide
theorem witness_transaction_read : let s := { st 0x10#8 2 [0x05#8] [] with phase := .rd }
    s.pins.rst = false ∧ s.transferIn (.b2wLe .k2 (up 2)) = true := by decide
theorem witness_transaction_write : let s := { st 0x10#8 2 [] [] with phase := .wr, i := 1 }
    s.pins.rst = false ∧ s.transferOut (.b2wLe .k2 (up 2)) = true ∧ s.i + 1 = 2 := by decide
theorem witness_transaction_none : let s := { st 0x10#8 2 [] [] with phase := .rd }
    s.pins.rst = false ∧ ¬ (s.phase = .idle ∧ s.pins.start = true) ∧ s.transferIn (.b2wLe .k2 (up 2)) = false ∧
      s.transferOut (.b2wLe .k2 (up 2)) = false := by decide

theorem witness_idle : (st 0x10#8 2 [0x05#8] []).phase = .idle := rfl
theorem witness_empty_burst :
    (st 0x10#8 0 [0x01#8] []).cfg = .ok (.b2wLe .k2 (up 0)) ∧ (Instr.b2wLe .k2 (up 0)).n = 0 ∧
      (st 0x10#8 0 [0x01#8] []).phase = .idle := by decide
theorem witness_wr_ports : let s := { st 0x10#8 2 [] [] with phase := .wr, acc := 0xFFFF#64 }
    s.phase = .wr ∧ (Instr.b2wLe .k2 (up 2)).dir = .b2w ∧ fits .k2 s.acc = true ∧
      (Instr.w2bSLe .k2 (up 2)).dir = .w2b ∧ (Instr.w2bSLe .k2 (up 2)).endian = .little ∧
      (Instr.w2bSBe .k2 (up 2)).dir = .w2b ∧ (Instr.w2bSBe .k2 (up 2)).endian = .big := by decide +kernel
theorem witness_sameRegs :
    State.SameRegs { st 0x10#8 2 [] [] with phase := .wr } { st 0x10#8 2 [0x01#8] [] with phase := .wr } := by
  unfold State.SameRegs
  decide
theorem witness_waiting_output :
    let s := { st 0x10#8 2 [] [] with phase := .wr, wordCh := ⟨some 1, [], [0x0001#64], []⟩ }
    s.cfg = .ok (.b2wLe .k2 (up 2)) ∧ (s.outPorts (.b2wLe .k2 (up 2))).outValid = true ∧
      (s.present .b2w).pins.rst = false ∧ (s.present .b2w).transferOut (.b2wLe .k2 (up 2)) = false := by decide
/-- Both stalls of R202 and R203, with an environment that does nothing. -/
theorem witness_starved : let s := { st 0x10#8 2 [] [] with phase := .rd, pins := ⟨false, false, true, true, none⟩ }
    s.cfg = .ok (.b2wLe .k2 (up 2)) ∧ s.script = [] ∧ s.pins.rst = false ∧ s.phase = .rd ∧ s.inHead .b2w = none ∧
      (s.present .b2w).inHead .b2w = none := by decide
theorem witness_full :
    let s := { st 0x10#8 2 [] [] with phase := .wr, wordCh := ⟨some 1, [], [0x0001#64], []⟩ }
    s.cfg = .ok (.b2wLe .k2 (up 2)) ∧ s.script = [] ∧ s.pins.rst = false ∧ s.phase = .wr ∧ s.outRoom .b2w = false ∧
      (s.present .b2w).outRoom .b2w = false := by decide
theorem witness_one_event :
    txEnabled (.b2wLe .k2 (up 2)) { st 0x10#8 2 [0x05#8] [] with phase := .rd } .read = true := by decide
theorem witness_step_decodes :
    (st 0x10#8 2 [] []).cfg = .ok (.b2wLe .k2 (up 2)) ∧ decode 9 0x10#8 2 = .ok (.b2wLe .k2 (up 2)) := by decide
theorem witness_environment :
    let s := { st 0x10#8 2 [] [] with
      byteCh := ⟨some 1, [0x02#8], [0x01#8], []⟩
      script := [⟨⟨false, false, true, true, none⟩, 1, 1⟩] }
    (s.present .b2w).byteCh.items = [0x01#8] ∧ s.byteCh.cap = some 1 ∧ s.byteCh.items.length ≤ 1 := by decide

/-- A state that meets the invariant: a B2W instance in the middle of a word of its second burst. -/
theorem witness_invFor (s : State)
    (h : s = { st 0x10#8 2 [0x01#8, 0x02#8] [0x0001#64] with phase := .rd, i := 1, j := 1, acc := 0x0300#64 }) :
    s.InvFor (.b2wLe .k2 (up 2)) := by
  subst h
  unfold State.InvFor State.InRange State.Fits Chan.InCap
  refine ⟨by decide, ⟨by decide +kernel, ?_, ?_, ?_⟩, ?_, ?_⟩ <;>
    simp [st, fits, Instr.wl, WordLen.bits, WordLen.bytes]
theorem witness_inv :
    State.Inv { st 0x10#8 2 [0x01#8, 0x02#8] [0x0001#64] with phase := .rd, i := 1, j := 1, acc := 0x0300#64 } :=
  ⟨.b2wLe .k2 (up 2), by decide, witness_invFor _ rfl⟩
theorem witness_inv_step :
    ∃ t, Reaches 1 { st 0x10#8 2 [0x01#8, 0x02#8] [0x0001#64] with
      phase := .rd, i := 1, j := 1, acc := 0x0300#64 } t ∧ (t.phase == .wr) = true :=
  reaches_with (by decide)
theorem witness_reset_edge_from_anywhere :
    let s := { st 0x10#8 2 [0x01#8] [0x0001#64] with script := [⟨⟨true, false, true, true, none⟩, 0, 0⟩] }
    s.cfg = .ok (.b2wLe .k2 (up 2)) ∧ (s.present .b2w).pins.rst = true ∧
      (∀ v ∈ s.wordCh.items ++ s.wordCh.waiting ++ s.wordCh.taken, fits .k2 v = true) := by
  refine ⟨by decide, by decide, ?_⟩
  simp [st, fits, WordLen.bits, WordLen.bytes]

/-- Channels without a capacity are within it. -/
theorem witness_inCap : (st 0x10#8 2 [0x01#8] [0x0001#64]).byteCh.InCap ∧
    (st 0x10#8 2 [0x01#8] [0x0001#64]).wordCh.InCap ∧ (⟨some 1, [], [0x01#8], []⟩ : Chan Byte).InCap := by
  refine ⟨?_, ?_, ?_⟩ <;> simp [Chan.InCap, st]

theorem witness_b2w_invocation :
    let s := { st 0x10#8 1 [0x01#8, 0x02#8, 0x03#8] [] with script := [⟨⟨false, true, true, true, none⟩, 0, 0⟩] }
    s.cfg = .ok (.b2wLe .k2 (up 1)) ∧ s.phase = .idle ∧ 0 < (Instr.b2wLe .k2 (up 1)).n ∧
      b2wBurst .little .k2 1 s.byteCh.items = some ([0x0201#64], [0x03#8]) ∧ s.wordCh.cap = none := by decide
theorem witness_w2b_invocation :
    let s := { st 0x1F#8 1 [] [0x1234#64, 0x5678#64] with script := [⟨⟨false, true, true, true, none⟩, 0, 0⟩] }
    s.cfg = .ok (.w2bSBe .k2 (up 1)) ∧ s.phase = .idle ∧ 0 < (Instr.w2bSBe .k2 (up 1)).n ∧
      w2bBurst .big .k2 1 s.wordCh.items = some ([0x12#8, 0x34#8], [0x5678#64]) ∧ s.byteCh.cap = none := by decide

/-- An idle instance of each block whose environment starts it, and never resets. -/
def b2wRunner : State :=
  { st 0x10#8 1 [0x01#8, 0x02#8] [] with script := [⟨⟨false, true, true, true, none⟩, 0, 0⟩] }
def w2bRunner : State :=
  { st 0x1F#8 1 [] [0x1234#64] with script := [⟨⟨false, true, true, true, none⟩, 0, 0⟩] }

theorem witness_runner_b2w :
    b2wRunner.cfg = .ok (.b2wLe .k2 (up 1)) ∧ b2wRunner.phase = .idle ∧ b2wRunner.NoReset ∧
      b2wRunner.InvFor (.b2wLe .k2 (up 1)) := by
  refine ⟨by decide, rfl, ?_, ?_⟩
  · simp [State.NoReset, b2wRunner]
  · unfold State.InvFor State.InRange State.Fits Chan.InCap
    refine ⟨by decide, ⟨by decide +kernel, ?_, ?_, ?_⟩, ?_, ?_⟩ <;>
    simp [b2wRunner, st, fits, Instr.wl, WordLen.bits, WordLen.bytes]
theorem witness_runner_w2b :
    w2bRunner.cfg = .ok (.w2bSBe .k2 (up 1)) ∧ w2bRunner.phase = .idle ∧ w2bRunner.NoReset ∧
      w2bRunner.InvFor (.w2bSBe .k2 (up 1)) := by
  refine ⟨by decide, rfl, ?_, ?_⟩
  · simp [State.NoReset, w2bRunner]
  · unfold State.InvFor State.InRange State.Fits Chan.InCap
    refine ⟨by decide, ⟨by decide +kernel, ?_, ?_, ?_⟩, ?_, ?_⟩ <;>
    simp [w2bRunner, st, fits, Instr.wl, WordLen.bits, WordLen.bytes]
/-- Runs that reach RD, WR and, at the end of the burst, IDLE. -/
theorem witness_runner_b2w_rd : ∃ t, Reaches 2 b2wRunner t ∧ (t.phase == .rd) = true := reaches_with (by decide)
theorem witness_runner_b2w_wr : ∃ t, Reaches 3 b2wRunner t ∧ (t.phase == .wr) = true := reaches_with (by decide)
theorem witness_runner_b2w_idle : ∃ t, Reaches 4 b2wRunner t ∧ (t.phase == .idle) = true := reaches_with (by decide)
theorem witness_runner_w2b_rd : ∃ t, Reaches 1 w2bRunner t ∧ (t.phase == .rd) = true := reaches_with (by decide)
theorem witness_runner_w2b_wr : ∃ t, Reaches 3 w2bRunner t ∧ (t.phase == .wr) = true := reaches_with (by decide)
theorem witness_runner_w2b_idle : ∃ t, Reaches 4 w2bRunner t ∧ (t.phase == .idle) = true := reaches_with (by decide)

/-- The same instance in a slower environment: the bytes come one at a time and the consumer makes it wait. -/
def slowRunner : State :=
  { st 0x10#8 1 [] [] with
    byteCh := ⟨some 1, [0x01#8, 0x02#8], [], []⟩
    script := [⟨⟨false, true, true, true, none⟩, 0, 0⟩, ⟨⟨false, false, true, false, none⟩, 1, 0⟩,
      ⟨⟨false, true, true, false, none⟩, 1, 0⟩, ⟨⟨false, false, true, false, none⟩, 0, 0⟩] }

theorem witness_timing :
    slowRunner.cfg = .ok (.b2wLe .k2 (up 1)) ∧ slowRunner.phase = .idle ∧ slowRunner.NoReset ∧
      b2wRunner.bytesAhead = slowRunner.bytesAhead ∧ b2wRunner.wordsOut = slowRunner.wordsOut := by
  refine ⟨by decide, rfl, ?_, by decide, by decide⟩
  simp [State.NoReset, slowRunner]
theorem witness_timing_inv : slowRunner.InvFor (.b2wLe .k2 (up 1)) := by
  unfold State.InvFor State.InRange State.Fits Chan.InCap
  refine ⟨by decide, ⟨by decide +kernel, ?_, ?_, ?_⟩, ?_, ?_⟩ <;>
    simp [slowRunner, st]
theorem witness_timing_runs :
    (∃ t, Reaches 4 b2wRunner t ∧ (t.phase == .idle && t.bytesAhead == []) = true) ∧
    (∃ t, Reaches 5 slowRunner t ∧ (t.phase == .idle && t.bytesAhead == []) = true) :=
  ⟨reaches_with (by decide), reaches_with (by decide)⟩

/-- Without items of the producer's own, and with the same items read in the same environments. -/
theorem witness_noDrive : b2wRunner.NoDrive ∧ slowRunner.NoDrive ∧ w2bRunner.NoDrive := by
  simp [State.NoDrive, b2wRunner, slowRunner, w2bRunner, st]
theorem witness_same_reads :
    readItems (runLabels (.b2wLe .k2 (up 1)) 4 b2wRunner) = [0x01#64, 0x02#64] ∧
      readItems (runLabels (.b2wLe .k2 (up 1)) 5 slowRunner) = [0x01#64, 0x02#64] := by decide

/-! A producer that drives items of its own, and finished and aborted runs. -/

/-- An idle instance with an empty channel, whose producer presents 05, then 06, then 07, while start comes at the second
edge. -/
def drivenRunner : State :=
  { st 0x10#8 1 [] [] with
    script := [⟨⟨false, false, true, true, some 0x05#64⟩, 0, 0⟩, ⟨⟨false, true, true, true, some 0x06#64⟩, 0, 0⟩,
      ⟨⟨false, false, true, true, some 0x07#64⟩, 0, 0⟩] }

/-- in_data may change while in_valid is 1: the byte taken is the one driven at the edge of the transfer (R120). -/
theorem test_driven_byte :
    (runOf 3 drivenRunner).map (fun t => (t.phase, t.acc, t.j, t.byteCh.items)) = some (.rd, 0x0700#64, 1, []) := by
  decide
theorem witness_driven_byte :
    let s := { st 0x10#8 1 [] [] with phase := .rd, pins := ⟨false, false, true, true, some 0x07#64⟩ }
    s.InRange (.b2wLe .k2 (up 1)) ∧ s.phase = .rd ∧ s.pins.rst = false ∧ s.pins.offer = true ∧
      s.pins.drive = some 0x07#64 ∧ s.byteCh.items = [] := by
  unfold State.InRange
  decide
theorem witness_driven_word :
    let s := { st 0x11#8 1 [] [] with phase := .rd, pins := ⟨false, false, true, true, some 0x1FFFF#64⟩ }
    s.InRange (.w2bULe .k2 (up 1)) ∧ s.phase = .rd ∧ s.pins.rst = false ∧ s.pins.offer = true ∧
      s.pins.drive = some 0x1FFFF#64 ∧ s.wordCh.items = [] := by
  unfold State.InRange
  decide
/-- The run of `b2wRunner` is finished after its four edges: its one invocation has ended. -/
theorem test_run_finished : ∃ t, RunFinished (.b2wLe .k2 (up 1)) 4 b2wRunner t := by
  obtain ⟨t, ht, hp⟩ := witness_runner_b2w_idle
  exact ⟨t, rfl, rfl, ht, by simpa using hp, by decide⟩

/-- Before the first reset edge: after an edge with a start and one with a reset. -/
theorem witness_unreset : let s := (b2wRunner).powerUp 7
    s.cfg = .ok (.b2wLe .k2 (up 1)) ∧ s.unreset = some 7 ∧ (s.present .b2w).pins.rst = false := by
  refine ⟨rfl, rfl, rfl⟩
theorem witness_unreset_reset :
    let s := ({ b2wRunner with script := [⟨⟨true, true, true, true, none⟩, 0, 0⟩] } : State).powerUp 7
    s.cfg = .ok (.b2wLe .k2 (up 1)) ∧ s.unreset = some 7 ∧ (s.present .b2w).pins.rst = true := by
  refine ⟨rfl, rfl, rfl⟩
/-- Every state of the other witnesses is one after a reset edge. -/
theorem witness_after_reset (cw : BitVec 8) (n : Nat) (bs : List Byte) (ws : List Item) :
    (st cw n bs ws).unreset = none := rfl

/-- The same instance with reset at its second edge, which aborts the invocation: one has started and none has ended. -/
def abortedRunner : State :=
  { b2wRunner with script := [⟨⟨false, true, true, true, none⟩, 0, 0⟩, ⟨⟨true, false, true, true, none⟩, 0, 0⟩] }

theorem witness_aborted_inv : abortedRunner.InvFor (.b2wLe .k2 (up 1)) := witness_runner_b2w.2.2.2
theorem witness_aborted :
    abortedRunner.cfg = .ok (.b2wLe .k2 (up 1)) ∧ abortedRunner.phase = .idle ∧
      (∃ u, Reaches 1 abortedRunner u ∧
        (u.phase != .idle && (u.present .b2w).pins.rst && (runOf 3 u).isSome) = true) :=
  ⟨by decide, rfl, reaches_with (by decide)⟩
theorem test_aborted_labels :
    runLabels (.b2wLe .k2 (up 1)) 3 abortedRunner = [.event .start, .event (.read 0x01#64), .reset] := by decide

/-! Two instances that meet at a byte channel: `w2b.le.u16` feeding `b2w.le.u16`. -/

def pair : System where
  insts := [⟨.w2bULe .k2 (up 1), st 0x11#8 1 [] [], 0, 0⟩, ⟨.b2wLe .k2 (up 1), st 0x10#8 1 [] [], 0, 1⟩]
  byteChs := [⟨none, [], [], []⟩]
  wordChs := [⟨none, [], [0x1234#64], []⟩, ⟨none, [], [], []⟩]

theorem witness_pair_built : (match pair.build with | .ok _ => true | .error _ => false) = true := by decide
theorem witness_pair_steps :
    (match pair.stepInst 0 with | .next _ => true | _ => false) = true ∧ (pair.insts[0]?).isSome = true := by decide
/-- Two instances of one block on separate channels, which may be built. -/
theorem witness_separate_built :
    (match (System.mk [⟨.w2bULe .k2 (up 1), st 0x11#8 1 [] [], 0, 0⟩, ⟨.w2bULe .k2 (up 1), st 0x11#8 1 [] [], 1, 1⟩]
        [⟨none, [], [], []⟩, ⟨none, [], [], []⟩] [⟨none, [], [], []⟩, ⟨none, [], [], []⟩]).build with
      | .ok _ => true
      | .error _ => false) = true := by decide
/-- Two producers on one channel: the system is refused (R71). -/
theorem test_build_refuses_two_producers :
    (match (System.mk [⟨.w2bULe .k2 (up 1), st 0x11#8 1 [] [], 0, 0⟩, ⟨.w2bULe .k2 (up 1), st 0x11#8 1 [] [], 1, 0⟩]
        [⟨none, [], [], []⟩] [⟨none, [], [], []⟩, ⟨none, [], [], []⟩]).build with
      | .ok _ => none
      | .error r => some r) = some .twoProducers := by decide

/-- A producer outside that drives in_data of an instance another one feeds is a second producer (R71). -/
theorem test_build_refuses_driving_outside :
    (match { pair with insts := [⟨.w2bULe .k2 (up 1), st 0x11#8 1 [] [], 0, 0⟩,
        ⟨.b2wLe .k2 (up 1), drivenRunner, 0, 1⟩] }.build with
      | .ok _ => none
      | .error r => some r) = some .twoProducers := by decide
/-- An illegal configuration gives a system no instance (R201). -/
theorem test_inst_refuses_illegal :
    (match Inst.ofWord 9 0x04#8 1 State.reset 0 0 with
      | .ok _ => none
      | .error r => some r) = some .b2wSignednessParam := by decide

/-- Words to carry through a joined pair, at the bound. -/
theorem witness_joined : (BurstLen.mk 2 2 (by decide)).n = [0xFFFF#64, 0x0001#64].length ∧
    [0xFFFF#64, 0x0001#64].length ≤ 2 ∧ (∀ v ∈ [0xFFFF#64, 0x0001#64], fits .k2 v = true) := by
  refine ⟨rfl, by decide, ?_⟩
  simp [fits, WordLen.bits, WordLen.bytes]
/-- A channel with its head, one with room and one that is full. -/
theorem witness_channel :
    (⟨some 2, [], [0x01#8], []⟩ : Chan Byte).items = 0x01#8 :: [] ∧
    (∀ k, (⟨some 2, [], [0x01#8], []⟩ : Chan Byte).cap = some k → [0x01#8].length < k) ∧
    (∃ k, (⟨some 1, [], [0x01#8], []⟩ : Chan Byte).cap = some k ∧ k ≤ [0x01#8].length) := by
  refine ⟨rfl, ?_, 1, rfl, by decide⟩
  intro k hk
  have : k = 2 := (Option.some.inj hk).symm
  subst this
  decide

end Sys2Proof.Tests
end

section
/-! PROOFS for the family of spec/00_scope.md. From the fields of a configuration word, the rows they select and when
the decoder answers, to the configurations of a request. -/

namespace Sys2Proof

/-! ### The fields of a spelled configuration word (R80 to R87) -/

section
variable (wl : WordLen) (ts s : Sign) (e : Endian) (d : Dir)

/-- Every field of a spelled configuration word reads back, over the 64 words there are. -/
theorem fields_cwOfFields :
    cwRsv (cwOfFields wl ts s e d) = 0b00#2 ∧ cwWl (cwOfFields wl ts s e d) = wl ∧
    cwTs (cwOfFields wl ts s e d) = ts ∧ cwS (cwOfFields wl ts s e d) = s ∧
    cwE (cwOfFields wl ts s e d) = e ∧ cwDir (cwOfFields wl ts s e d) = d := by
  cases wl <;> cases ts <;> cases s <;> cases e <;> cases d <;> decide

@[simp] theorem cwRsv_cwOfFields : cwRsv (cwOfFields wl ts s e d) = 0b00#2 :=
  (fields_cwOfFields wl ts s e d).1

@[simp] theorem cwWl_cwOfFields : cwWl (cwOfFields wl ts s e d) = wl := by
  obtain ⟨-, h, -⟩ := fields_cwOfFields wl ts s e d
  exact h

@[simp] theorem cwTs_cwOfFields : cwTs (cwOfFields wl ts s e d) = ts := by
  obtain ⟨-, -, h, -⟩ := fields_cwOfFields wl ts s e d
  exact h

@[simp] theorem cwS_cwOfFields : cwS (cwOfFields wl ts s e d) = s := by
  obtain ⟨-, -, -, h, -⟩ := fields_cwOfFields wl ts s e d
  exact h

@[simp] theorem cwE_cwOfFields : cwE (cwOfFields wl ts s e d) = e := by
  obtain ⟨-, -, -, -, h, -⟩ := fields_cwOfFields wl ts s e d
  exact h

@[simp] theorem cwDir_cwOfFields : cwDir (cwOfFields wl ts s e d) = d := by
  obtain ⟨-, -, -, -, -, h⟩ := fields_cwOfFields wl ts s e d
  exact h

/-- R87 on a spelled configuration word: its reserved bits are 0, so the signedness contract alone decides. -/
theorem legal_cwOfFields_iff :
    legal (cwOfFields wl ts s e d) = true ↔
      (d = .b2w ∧ s = .unsigned ∧ ts = .unsigned) ∨ (d = .w2b ∧ s = ts) := by
  simp [legal, and_assoc]

end

/-! ### The row that the fields select (R91) -/

section
variable (d : Dir) (e : Endian) (s : Sign) (wl : WordLen) (b : BurstLen)

@[simp] theorem Instr.ofFields_dir : (Instr.ofFields d e s wl b).dir = d := by
  cases d <;> cases e <;> cases s <;> rfl

@[simp] theorem Instr.ofFields_endian : (Instr.ofFields d e s wl b).endian = e := by
  cases d <;> cases e <;> cases s <;> rfl

@[simp] theorem Instr.ofFields_wl : (Instr.ofFields d e s wl b).wl = wl := by
  cases d <;> cases e <;> cases s <;> rfl

@[simp] theorem Instr.ofFields_burst : (Instr.ofFields d e s wl b).burst = b := by
  cases d <;> cases e <;> cases s <;> rfl

@[simp] theorem Instr.ofFields_n : (Instr.ofFields d e s wl b).n = b.n := by
  simp [Instr.n]

@[simp] theorem Instr.ofFields_nMax : (Instr.ofFields d e s wl b).nMax = b.nMax := by
  simp [Instr.nMax]

/-- The B2W rows are unsigned whatever S is (R8), so S is kept only where B2W has none. -/
theorem Instr.ofFields_sign (h : d = .b2w → s = .unsigned) : (Instr.ofFields d e s wl b).sign = s := by
  cases d with
  | b2w =>
    obtain rfl := h rfl
    cases e <;> rfl
  | w2b => cases e <;> cases s <;> rfl

end

/-! ### When the decoder answers (R87, R88) -/

theorem Sign.ne_signed_iff {s : Sign} : s ≠ .signed ↔ s = .unsigned := by
  cases s <;> decide

/-- R87's formula says that none of the first four refusals of R89 applies. -/
theorem legal_iff_no_refusal {cw : BitVec 8} :
    legal cw = true ↔
      cwRsv cw = 0b00#2 ∧ ¬(cwDir cw = .b2w ∧ cwTs cw = .signed) ∧ ¬(cwDir cw = .b2w ∧ cwS cw = .signed) ∧
        ¬(cwDir cw = .w2b ∧ cwS cw ≠ cwTs cw) := by
  cases hd : cwDir cw <;> simp [legal, hd, Sign.ne_signed_iff, and_comm]

/-- The decoder answers exactly on a legal word with N within the bound, and then with the row its fields select. -/
theorem decode_eq_ok_iff {nMax n : Nat} {cw : BitVec 8} {i : Instr} :
    decode nMax cw n = .ok i ↔
      legal cw = true ∧ ∃ hn : n ≤ nMax, i = Instr.ofFields (cwDir cw) (cwE cw) (cwS cw) (cwWl cw) ⟨nMax, n, hn⟩ := by
  constructor
  · intro h
    refine ⟨legal_iff_no_refusal.mpr ?_, Machine.decode_ok h⟩
    unfold decode at h
    split_ifs at h with hrsv hts hs hmismatch hn
    exact ⟨not_not.mp hrsv, hts, hs, hmismatch⟩
  · rintro ⟨hlegal, hn, rfl⟩
    obtain ⟨hrsv, hts, hs, hmismatch⟩ := legal_iff_no_refusal.mp hlegal
    rw [decode, if_neg (not_not.mpr hrsv), if_neg hts, if_neg hs, if_neg hmismatch, dif_pos hn]

/-! ### The widths of a word type (R5) -/

@[simp] theorem WordLen.ofBytes_bytes (wl : WordLen) : WordLen.ofBytes wl.bytes = some wl := by
  cases wl <;> rfl

/-- The admitted widths are those of the four values of WL. -/
theorem WordLen.mem_widths_iff {bytes : Nat} : bytes ∈ [1, 2, 4, 8] ↔ ∃ wl : WordLen, wl.bytes = bytes := by
  constructor
  · simp only [List.mem_cons, List.not_mem_nil, or_false]
    rintro (rfl | rfl | rfl | rfl)
    exacts [⟨.k1, rfl⟩, ⟨.k2, rfl⟩, ⟨.k4, rfl⟩, ⟨.k8, rfl⟩]
  · rintro ⟨wl, rfl⟩
    cases wl <;> decide

theorem WordLen.ofBytes_eq_none {bytes : Nat} (h : bytes ∉ [1, 2, 4, 8]) : WordLen.ofBytes bytes = none := by
  simp only [List.mem_cons, List.not_mem_nil, or_false, not_or] at h
  obtain ⟨h1, h2, h4, h8⟩ := h
  rw [WordLen.ofBytes, if_neg h1, if_neg h2, if_neg h4, if_neg h8]

/-! ### The configuration of a request (R90, R201) -/

section
variable {nMax : Nat} {r : Request}

theorem Request.configuration_of_nonInteger (h : r.type = .nonInteger) :
    r.configuration nMax = .error .nonIntegerType := by
  simp only [Request.configuration, h]

theorem Request.configuration_of_width_not_admitted {ts : Sign} {bytes : Nat} (h : r.type = .integer ts bytes)
    (hw : bytes ∉ [1, 2, 4, 8]) : r.configuration nMax = .error .widthNotAdmitted := by
  simp only [Request.configuration, h, WordLen.ofBytes_eq_none hw]

theorem Request.configuration_of_integer {ts : Sign} {wl : WordLen} (h : r.type = .integer ts wl.bytes) :
    r.configuration nMax = decode nMax (cwOfFields wl ts r.sign r.endian r.dir) r.n := by
  simp only [Request.configuration, h, WordLen.ofBytes_bytes]

/-- A request names a word type that has no WL value, or an integer type of some WL's width. -/
theorem Request.type_cases (r : Request) :
    r.type = .nonInteger ∨ (∃ ts bytes, r.type = .integer ts bytes ∧ bytes ∉ [1, 2, 4, 8]) ∨
      ∃ ts, ∃ wl : WordLen, r.type = .integer ts wl.bytes := by
  cases ht : r.type with
  | nonInteger => exact .inl rfl
  | integer ts bytes =>
    by_cases hw : bytes ∈ [1, 2, 4, 8]
    · obtain ⟨wl, rfl⟩ := WordLen.mem_widths_iff.mp hw
      exact .inr (.inr ⟨ts, wl, rfl⟩)
    · exact .inr (.inl ⟨ts, bytes, rfl, hw⟩)

/-- The request's signedness contract is R87's for the word that spells the request. -/
theorem Request.signsAgree_iff_legal {ts : Sign} {wl : WordLen} (h : r.type = .integer ts wl.bytes) :
    r.signsAgree = true ↔ legal (cwOfFields wl ts r.sign r.endian r.dir) = true := by
  rw [legal_cwOfFields_iff]
  cases hd : r.dir with
  | b2w => simp [Request.signsAgree, h, hd, and_comm]
  | w2b => simp [Request.signsAgree, h, hd, eq_comm (a := ts)]

theorem Request.wf_of_nonInteger (h : r.type = .nonInteger) : r.wf nMax = false := by
  simp [Request.wf, Request.integerType, h]

theorem Request.wf_of_width_not_admitted {ts : Sign} {bytes : Nat} (h : r.type = .integer ts bytes)
    (hw : bytes ∉ [1, 2, 4, 8]) : r.wf nMax = false := by
  have hadm : r.widthAdmitted = false := by simpa [Request.widthAdmitted, h, and_assoc] using hw
  simp [Request.wf, hadm]

theorem Request.wf_iff_of_integer {ts : Sign} {wl : WordLen} (h : r.type = .integer ts wl.bytes) :
    r.wf nMax = true ↔ legal (cwOfFields wl ts r.sign r.endian r.dir) = true ∧ r.n ≤ nMax := by
  have hint : r.integerType = true := by simp [Request.integerType, h]
  have hadm : r.widthAdmitted = true := by cases wl <;> simp [Request.widthAdmitted, h, WordLen.bytes]
  simp [Request.wf, hint, hadm, Request.signsAgree_iff_legal h]

/-- A request of an admitted type has a configuration exactly when it is well formed: the row its parameters select. -/
theorem Request.configuration_eq_ok_iff {ts : Sign} {wl : WordLen} (h : r.type = .integer ts wl.bytes) {i : Instr} :
    r.configuration nMax = .ok i ↔
      r.wf nMax = true ∧ ∃ hn : r.n ≤ nMax, i = Instr.ofFields r.dir r.endian r.sign wl ⟨nMax, r.n, hn⟩ := by
  rw [Request.configuration_of_integer h, decode_eq_ok_iff, Request.wf_iff_of_integer h]
  simp only [cwDir_cwOfFields, cwE_cwOfFields, cwS_cwOfFields, cwWl_cwOfFields]
  constructor
  · rintro ⟨hlegal, hn, rfl⟩
    exact ⟨⟨hlegal, hn⟩, hn, rfl⟩
  · rintro ⟨⟨hlegal, -⟩, hn, rfl⟩
    exact ⟨hlegal, hn, rfl⟩

/-- R90 and R201: a request has a configuration exactly when it is well formed. -/
theorem Request.exists_configuration_iff_wf : (∃ i, r.configuration nMax = .ok i) ↔ r.wf nMax = true := by
  obtain h | ⟨ts, bytes, h, hw⟩ | ⟨ts, wl, h⟩ := r.type_cases
  · simp [Request.configuration_of_nonInteger h, Request.wf_of_nonInteger h]
  · simp [Request.configuration_of_width_not_admitted h hw, Request.wf_of_width_not_admitted h hw]
  · simp only [Request.configuration_eq_ok_iff h]
    constructor
    · rintro ⟨i, hwf, -⟩
      exact hwf
    · intro hwf
      obtain ⟨-, hn⟩ := (Request.wf_iff_of_integer h).mp hwf
      exact ⟨_, hwf, hn, rfl⟩

/-- The configuration has the parameters of its request; its signedness is both S and TS, which legality makes equal
(R87). -/
theorem Request.configuration_params {i : Instr} (hi : r.configuration nMax = .ok i) :
    i.dir = r.dir ∧ i.endian = r.endian ∧ i.sign = r.sign ∧ r.type = .integer i.sign i.wl.bytes ∧ i.n = r.n ∧
      i.nMax = nMax := by
  obtain h | ⟨ts, bytes, h, hw⟩ | ⟨ts, wl, h⟩ := r.type_cases
  · simp [Request.configuration_of_nonInteger h] at hi
  · simp [Request.configuration_of_width_not_admitted h hw] at hi
  · obtain ⟨hwf, hn, rfl⟩ := (Request.configuration_eq_ok_iff h).mp hi
    obtain ⟨hlegal, -⟩ := (Request.wf_iff_of_integer h).mp hwf
    have hsign : (r.dir = .b2w → r.sign = .unsigned) ∧ ts = r.sign := by
      obtain ⟨-, hs, hts⟩ | ⟨hd, hs⟩ := (legal_cwOfFields_iff ..).mp hlegal
      · exact ⟨fun _ => hs, hts.trans hs.symm⟩
      · exact ⟨by simp [hd], hs.symm⟩
    obtain ⟨hb2w, rfl⟩ := hsign
    simp [Instr.ofFields_sign _ _ _ _ _ hb2w, h]

end

/-- Settles O5: an ill-typed request is refused by name, and one of an admitted type is decoded as the word that spells
it, whose legality is the request's signedness contract. -/
theorem requestInstantiatesIffWellFormed : Obligations.RequestInstantiatesIffWellFormed := by
  intro nMax r
  exact ⟨Request.exists_configuration_iff_wf, Request.configuration_of_nonInteger,
    fun _ _ => Request.configuration_of_width_not_admitted, fun _ => Request.configuration_params⟩

end Sys2Proof
end

section
/-! PROOFS for the family of spec/10_state.md. First what an edge leaves unchanged, then what the environment's moves,
the transfers and the rows keep of the invariant, the ports as functions of the registers, and last the registers that an
idle block does not use. -/

namespace Sys2Proof.Machine

/-! ### What an edge leaves unchanged (R21, R52) -/

/-- The rows of a B2W instruction are those of R148. -/
theorem row_b2w {i : Instr} (hd : i.dir = .b2w) (ev : Event) (s : State) :
    row i ev s = b2wRow i.endian i.wl i.n ev s := by
  simp [row, hd]

/-- The rows of a W2B instruction are those of R178. -/
theorem row_w2b {i : Instr} (hd : i.dir = .w2b) (ev : Event) (s : State) :
    row i ev s = w2bRow i.endian i.wl i.n ev s := by
  simp [row, hd]

/-- A row writes registers only. -/
theorem row_frame {i : Instr} {ev : Event} {s t : State} (h : row i ev s = .next t) :
    s.SameOutside t ∧ t.unreset = s.unreset ∧ t.byteCh = s.byteCh ∧ t.wordCh = s.wordCh := by
  unfold State.SameOutside
  cases hd : i.dir with
  | b2w =>
    rw [row_b2w hd] at h
    obtain ⟨-, -, rfl⟩ | ⟨-, -, rfl⟩ | ⟨-, -, -, rfl⟩ | ⟨-, -, -, rfl⟩ | ⟨-, -, -, rfl⟩ | ⟨-, -, -, rfl⟩ :=
      b2wRow_cases h <;> simp
  | w2b =>
    rw [row_w2b hd] at h
    obtain ⟨-, -, rfl⟩ | ⟨-, -, rfl⟩ | ⟨-, -, rfl⟩ | ⟨-, -, -, rfl⟩ | ⟨-, -, -, -, rfl⟩ | ⟨-, -, -, -, rfl⟩ :=
      w2bRow_cases h <;> simp

/-- The transfer of an edge changes the channels only. -/
theorem moved_frame (s : State) (d : Dir) (ev : Option Event) :
    s.SameOutside (s.moved d ev) ∧ (s.moved d ev).unreset = s.unreset := by
  cases ev <;> simp [State.SameOutside]

/-- Everything an edge of an instruction can do when it answers a next state: what comes after the transfer is reset,
the free draw before the first reset edge, the clearing of done_r, or the event's row. -/
theorem exec_cases {i : Instr} {s t : State} (h : exec i s = .next t) :
    t = (s.moved i.dir (s.eventAt i.dir (s.outItem i))).resetRegs ∨
    (∃ draw, s.unreset = some draw ∧ t = (s.moved i.dir (s.eventAt i.dir (s.outItem i))).drawRegs draw) ∨
    (s.unreset = none ∧ s.eventAt i.dir (s.outItem i) = none ∧ t = s.setDone false) ∨
    (s.unreset = none ∧ ∃ e, s.eventAt i.dir (s.outItem i) = some e ∧ row i e (s.move i.dir e) = .next t) := by
  rw [exec_eq_edge] at h
  obtain ⟨-, ht⟩ | ⟨-, hdraw⟩ | ⟨-, hquiet⟩ | ⟨-, hrow⟩ := edge_cases h
  · exact .inl ht
  · exact .inr (.inl hdraw)
  · exact .inr (.inr (.inl hquiet))
  · exact .inr (.inr (.inr hrow))

/-- Apart from the registers, an edge does the transfer of its event and nothing else. -/
theorem exec_frame {i : Instr} {s t : State} (h : exec i s = .next t) :
    s.SameOutside t ∧ (s.unreset = none → t.unreset = none) ∧
      t.byteCh = (s.moved i.dir (s.eventAt i.dir (s.outItem i))).byteCh ∧
      t.wordCh = (s.moved i.dir (s.eventAt i.dir (s.outItem i))).wordCh := by
  have hm := moved_frame s i.dir (s.eventAt i.dir (s.outItem i))
  obtain rfl | ⟨draw, hu, rfl⟩ | ⟨hu, hev, rfl⟩ | ⟨hu, e, hev, hrow⟩ := exec_cases h
  · simpa [State.SameOutside] using hm.1
  · simpa [State.SameOutside, hu] using hm.1
  · simp [State.SameOutside, hu, hev]
  · obtain ⟨hout, hreset, hb, hw⟩ := row_frame hrow
    rw [hev]
    exact ⟨by simpa [State.SameOutside] using hout, fun _ => by simpa [hu] using hreset, hb, hw⟩

/-- out_data carries the output item whenever it is transferred (R34, R35). -/
theorem outData_of_valid {i : Instr} {s : State} (h : s.outValid = true) : (s.outPorts i).outData = s.outItem i := by
  simp [State.outPorts, h]

/-- The transfer of an edge by its two handshakes: none, the item transferred in, or out_data transferred out (R120). -/
theorem moved_cases (i : Instr) (s : State) :
    (s.transferIn i = false ∧ s.transferOut i = false ∧ s.moved i.dir (s.eventAt i.dir (s.outItem i)) = s) ∨
    (s.transferIn i = true ∧ s.transferOut i = false ∧
      ∃ v, s.moved i.dir (s.eventAt i.dir (s.outItem i)) = s.move i.dir (.read v)) ∨
    (s.transferIn i = false ∧ s.transferOut i = true ∧
      s.moved i.dir (s.eventAt i.dir (s.outItem i)) = s.move i.dir (.write (s.outPorts i).outData)) := by
  have hin := transferIn_iff (i := i) (out := s.outItem i) (s := s)
  have hout := transferOut_iff (i := i) (s := s)
  cases hev : s.eventAt i.dir (s.outItem i) with
  | none => exact .inl (by simp [← Bool.not_eq_true, hin, hout, hev])
  | some e =>
    cases e with
    | start => exact .inl (by simp [← Bool.not_eq_true, hin, hout, hev])
    | read v =>
      exact .inr (.inl ⟨by simp [hin, hev], by simp [← Bool.not_eq_true, hout, hev], v, rfl⟩)
    | write v =>
      obtain ⟨hp, -, rfl⟩ := eventAt_write.mp hev
      have hdata : (s.outPorts i).outData = s.outItem i := outData_of_valid (by simp [State.outValid, hp])
      exact .inr (.inr ⟨by simp [← Bool.not_eq_true, hin, hev], by simp [hout, hev], by rw [hdata]; rfl⟩)

/-- Settles O26: outside the registers an edge is its transfer, and the transfer is what the handshakes say. -/
theorem edgeFrame : Obligations.EdgeFrame := by
  intro i s t h
  obtain ⟨hout, hreset, hb, hw⟩ := exec_frame h
  refine ⟨hout, hreset, ?_⟩
  obtain ⟨hin, hput, hm⟩ | ⟨hin, hput, v, hm⟩ | ⟨hin, hput, hm⟩ := moved_cases i s <;> rw [hm] at hb hw
  · exact ⟨fun _ _ => by simp [hb, hw, hin, hput], fun _ _ => by simp [hb, hw, hin, hput]⟩
  · exact ⟨fun _ hd => by simp [hb, hw, hin, hput, hd, Chan.pop],
      fun _ hd => by simp [hb, hw, hin, hput, hd, Chan.pop]⟩
  · exact ⟨fun _ hd => by simp [hb, hw, hin, hput, hd, Chan.push],
      fun _ hd => by simp [hb, hw, hin, hput, hd, Chan.push]⟩

/-! ### The invariant, its channels and its registers apart (R20, R22, R29, R70) -/

/-- The half of the invariant about the channels: the words of the word side fit, and both channels are within their
capacities (R29, R70). -/
def State.ChansOk (wl : WordLen) (s : State) : Prop :=
  ((∀ v ∈ s.wordCh.items, fits wl v = true) ∧ (∀ v ∈ s.wordCh.waiting, fits wl v = true) ∧
    (∀ v ∈ s.wordCh.taken, fits wl v = true)) ∧ s.byteCh.InCap ∧ s.wordCh.InCap

/-- The half of the invariant about the registers: R20's ranges, and an accumulator of W bits (R22). -/
def State.RegsOk (i : Instr) (s : State) : Prop := s.InRange i ∧ fits i.wl s.acc = true

/-- The invariant is its two halves. -/
theorem invFor_iff {i : Instr} {s : State} : s.InvFor i ↔ s.RegsOk i ∧ s.ChansOk i.wl := by
  unfold State.InvFor State.Fits State.RegsOk State.ChansOk
  tauto

/-- The channels' half depends on the channels alone. -/
theorem chansOk_congr {wl : WordLen} {s t : State} (hb : t.byteCh = s.byteCh) (hw : t.wordCh = s.wordCh) :
    t.ChansOk wl ↔ s.ChansOk wl := by
  simp [State.ChansOk, hb, hw]

/-- The environment's moves keep the words fitting and the channels within their capacities (R70, R71). -/
theorem present_chansOk {wl : WordLen} {s : State} (h : s.ChansOk wl) (d : Dir) : (s.present d).ChansOk wl := by
  obtain ⟨⟨hitems, hwaiting, htaken⟩, hb, hw⟩ := h
  cases d with
  | b2w =>
    refine ⟨⟨fun v hv => hitems v (List.mem_of_mem_drop hv), hwaiting, ?_⟩, Chan.put_inCap hb _, Chan.drain_inCap hw _⟩
    intro v hv
    obtain hv | hv := List.mem_append.mp hv
    · exact htaken v hv
    · exact hitems v (List.mem_of_mem_take hv)
  | w2b =>
    refine ⟨⟨?_, fun v hv => hwaiting v (List.mem_of_mem_drop hv), htaken⟩, Chan.drain_inCap hb _, Chan.put_inCap hw _⟩
    intro v hv
    obtain hv | hv := List.mem_append.mp hv
    · exact hitems v hv
    · exact hwaiting v (List.mem_of_mem_take hv)

/-- A word that B2W writes out is a W-bit pattern (R34). -/
theorem fits_outItem {i : Instr} (hd : i.dir = .b2w) (s : State) : fits i.wl (s.outItem i) = true := by
  simp [State.outItem, hd]

/-- A transfer keeps the words fitting and the channels within their capacities: a write happens only where there is
room, and its word fits (R70, R112). -/
theorem moved_chansOk {i : Instr} {s : State} (h : s.ChansOk i.wl) :
    (s.moved i.dir (s.eventAt i.dir (s.outItem i))).ChansOk i.wl := by
  cases hev : s.eventAt i.dir (s.outItem i) with
  | none => exact h
  | some e =>
    obtain ⟨⟨hitems, hwaiting, htaken⟩, hb, hw⟩ := h
    cases e with
    | start => simpa using ⟨⟨hitems, hwaiting, htaken⟩, hb, hw⟩
    | read v =>
      cases hd : i.dir with
      | b2w => exact ⟨⟨hitems, hwaiting, htaken⟩, Chan.pop_inCap hb, hw⟩
      | w2b => exact ⟨⟨fun v hv => hitems v (List.mem_of_mem_tail hv), hwaiting, htaken⟩, hb, Chan.pop_inCap hw⟩
    | write v =>
      obtain ⟨-, hready, rfl⟩ := eventAt_write.mp hev
      have hroom : s.outRoom i.dir = true := by
        unfold State.outReady at hready
        exact (Bool.and_eq_true_iff.mp hready).2
      cases hd : i.dir with
      | b2w =>
        rw [hd] at hroom
        refine ⟨⟨?_, hwaiting, htaken⟩, hb, Chan.push_inCap hw hroom _⟩
        intro v hv
        obtain hv | hv := List.mem_append.mp hv
        · exact hitems v hv
        · obtain rfl := List.mem_singleton.mp hv
          exact fits_outItem hd s
      | w2b =>
        rw [hd] at hroom
        exact ⟨⟨hitems, hwaiting, htaken⟩, Chan.push_inCap hb hroom _, hw⟩

/-- An edge keeps the channels' half of the invariant. -/
theorem exec_chansOk {i : Instr} {s t : State} (h : s.ChansOk i.wl) (ht : exec i s = .next t) : t.ChansOk i.wl := by
  obtain ⟨-, -, hb, hw⟩ := exec_frame ht
  exact (chansOk_congr hb hw).mpr (moved_chansOk h)

/-- The registers' half depends on the registers alone. -/
theorem regsOk_congr {i : Instr} {s t : State} (hr : s.SameRegs t) (hu : t.unreset = s.unreset) :
    t.RegsOk i ↔ s.RegsOk i := by
  obtain ⟨hacc, hphase, hi, hj, hdone⟩ := hr
  simp [State.RegsOk, State.InRange, hacc, hphase, hi, hj, hdone, hu]

/-- A transfer writes no register. -/
theorem moved_sameRegs (s : State) (d : Dir) (ev : Option Event) : s.SameRegs (s.moved d ev) := by
  cases ev <;> simp [State.SameRegs]

/-- The reset values are in R20's ranges (R33). -/
theorem resetRegs_regsOk (i : Instr) (s : State) : s.resetRegs.RegsOk i := by
  have := WordLen_bytes_pos i.wl
  simp [State.RegsOk, State.InRange, this]

/-- The phase in which the rows of an event apply (R148, R178). -/
def Event.phase : Event → Phase
  | .start => .idle
  | .read _ => .rd
  | .write _ => .wr

/-- An event happens only in its own phase (R117). -/
theorem phase_of_eventAt {d : Dir} {out : Item} {s : State} {e : Event} (h : s.eventAt d out = some e) :
    s.phase = e.phase := by
  cases e with
  | start => exact (eventAt_start.mp h).1
  | read v => exact (eventAt_read.mp h).1
  | write v => exact (eventAt_write.mp h).1

/-- What the registers' half says in IDLE. -/
theorem regsOk_idle {i : Instr} {s : State} (hp : s.phase = .idle) :
    s.RegsOk i ↔ s.unreset = none ∧ s.i < max i.n 1 ∧ s.j < i.wl.bytes ∧ fits i.wl s.acc = true := by
  simp [State.RegsOk, State.InRange, hp, and_assoc]

/-- What the registers' half says in RD: the burst is not empty, so i is an index of it. -/
theorem regsOk_rd {i : Instr} {s : State} (hp : s.phase = .rd) :
    s.RegsOk i ↔ s.unreset = none ∧ s.i < i.n ∧ s.j < i.wl.bytes ∧ (i.dir = .w2b → s.j = 0) ∧
      s.doneR = false ∧ fits i.wl s.acc = true := by
  grind [State.RegsOk, State.InRange]

/-- What the registers' half says in WR: the burst is not empty, so i is an index of it. -/
theorem regsOk_wr {i : Instr} {s : State} (hp : s.phase = .wr) :
    s.RegsOk i ↔ s.unreset = none ∧ s.i < i.n ∧ s.j < i.wl.bytes ∧ (i.dir = .b2w → s.j = 0) ∧
      s.doneR = false ∧ fits i.wl s.acc = true := by
  grind [State.RegsOk, State.InRange]

/-- The rows of R148 keep the registers in R20's ranges. -/
theorem b2wRow_regsOk {i : Instr} {e : Event} {s t : State} (hd : i.dir = .b2w) (h : s.RegsOk i)
    (hp : s.phase = e.phase) (ht : b2wRow i.endian i.wl i.n e s = .next t) : t.RegsOk i := by
  have hnotW2b : i.dir ≠ .w2b := by simp [hd]
  obtain ⟨rfl, -, rfl⟩ | ⟨rfl, hn, rfl⟩ | ⟨v, rfl, hj, rfl⟩ | ⟨v, rfl, -, rfl⟩ | ⟨v, rfl, hi, rfl⟩ | ⟨v, rfl, -, rfl⟩ :=
    b2wRow_cases ht
  · exact (regsOk_idle (by exact hp)).mpr ((regsOk_idle hp).mp h)
  · obtain ⟨hu, -⟩ := (regsOk_idle hp).mp h
    exact (regsOk_rd rfl).mpr ⟨hu, hn, WordLen_bytes_pos _, fun _ => rfl, rfl, fits_zero _⟩
  · obtain ⟨hu, hi, -⟩ := (regsOk_rd hp).mp h
    exact (regsOk_rd (by exact hp)).mpr ⟨hu, hi, hj, fun hw => absurd hw hnotW2b, rfl, fits_toItem _ _⟩
  · obtain ⟨hu, hi, -⟩ := (regsOk_rd hp).mp h
    exact (regsOk_wr rfl).mpr ⟨hu, hi, WordLen_bytes_pos _, fun _ => rfl, rfl, fits_toItem _ _⟩
  · obtain ⟨hu, -, hj, -⟩ := (regsOk_wr hp).mp h
    exact (regsOk_rd rfl).mpr ⟨hu, hi, hj, fun hw => absurd hw hnotW2b, rfl, fits_zero _⟩
  · obtain ⟨hu, hi, hj, -, -, hacc⟩ := (regsOk_wr hp).mp h
    exact (regsOk_idle rfl).mpr ⟨hu, lt_max_of_lt_left hi, hj, hacc⟩

/-- The rows of R178 keep the registers in R20's ranges. -/
theorem w2bRow_regsOk {i : Instr} {e : Event} {s t : State} (hd : i.dir = .w2b) (h : s.RegsOk i)
    (hp : s.phase = e.phase) (ht : w2bRow i.endian i.wl i.n e s = .next t) : t.RegsOk i := by
  have hnotB2w : i.dir ≠ .b2w := by simp [hd]
  obtain ⟨rfl, -, rfl⟩ | ⟨rfl, hn, rfl⟩ | ⟨v, rfl, rfl⟩ | ⟨v, rfl, hj, rfl⟩ | ⟨v, rfl, -, hi, rfl⟩ |
    ⟨v, rfl, -, -, rfl⟩ := w2bRow_cases ht
  · exact (regsOk_idle (by exact hp)).mpr ((regsOk_idle hp).mp h)
  · obtain ⟨hu, -, -, hacc⟩ := (regsOk_idle hp).mp h
    exact (regsOk_rd rfl).mpr ⟨hu, hn, WordLen_bytes_pos _, fun _ => rfl, rfl, hacc⟩
  · obtain ⟨hu, hi, -⟩ := (regsOk_rd hp).mp h
    exact (regsOk_wr rfl).mpr ⟨hu, hi, WordLen_bytes_pos _, fun _ => rfl, rfl, fits_toItem _ _⟩
  · obtain ⟨hu, hi, -⟩ := (regsOk_wr hp).mp h
    exact (regsOk_wr (by exact hp)).mpr ⟨hu, hi, hj, fun hb => absurd hb hnotB2w, rfl, fits_toItem _ _⟩
  · obtain ⟨hu, -⟩ := (regsOk_wr hp).mp h
    exact (regsOk_rd rfl).mpr ⟨hu, hi, WordLen_bytes_pos _, fun _ => rfl, rfl, fits_toItem _ _⟩
  · obtain ⟨hu, hi, hj, -⟩ := (regsOk_wr hp).mp h
    exact (regsOk_idle rfl).mpr ⟨hu, lt_max_of_lt_left hi, hj, fits_toItem _ _⟩

/-- An edge keeps the registers' half of the invariant. -/
theorem exec_regsOk {i : Instr} {s t : State} (h : s.RegsOk i) (ht : exec i s = .next t) : t.RegsOk i := by
  have ⟨⟨hu, _⟩, _⟩ := h
  obtain rfl | ⟨draw, hdraw, -⟩ | ⟨-, -, rfl⟩ | ⟨-, e, hev, hrow⟩ := exec_cases ht
  · exact resetRegs_regsOk i _
  · simp [hu] at hdraw
  · obtain ⟨⟨-, hi, hj, hn, hwr, hrd, -⟩, hacc⟩ := h
    exact ⟨⟨hu, hi, hj, hn, hwr, hrd, by simp⟩, hacc⟩
  · have hm : (s.move i.dir e).RegsOk i := (regsOk_congr (moved_sameRegs s i.dir (some e)) (by simp)).mpr h
    have hp : (s.move i.dir e).phase = e.phase := by simpa using phase_of_eventAt hev
    cases hd : i.dir with
    | b2w => exact b2wRow_regsOk hd hm hp (row_b2w hd _ _ ▸ hrow)
    | w2b => exact w2bRow_regsOk hd hm hp (row_w2b hd _ _ ▸ hrow)

/-- An edge keeps the invariant. -/
theorem exec_invFor {i : Instr} {s t : State} (h : s.InvFor i) (ht : exec i s = .next t) : t.InvFor i := by
  obtain ⟨hr, hc⟩ := invFor_iff.mp h
  exact invFor_iff.mpr ⟨exec_regsOk hr ht, exec_chansOk hc ht⟩

/-- The environment's moves keep the invariant. -/
theorem present_invFor {i : Instr} {s : State} (h : s.InvFor i) (d : Dir) : (s.present d).InvFor i := by
  obtain ⟨hr, hc⟩ := invFor_iff.mp h
  exact invFor_iff.mpr ⟨(regsOk_congr (present_sameRegs s d) (by simp)).mpr hr, present_chansOk hc d⟩

/-- Settles O42: a step is the environment's moves and one edge, and each keeps the invariant. -/
theorem everyStepKeepsInvariant : Obligations.EveryStepKeepsInvariant := by
  rintro s t ⟨i, hcfg, hinv⟩ hstep
  rw [step_ok hcfg] at hstep
  obtain ⟨⟨ht, -⟩, -⟩ := exec_frame hstep
  exact ⟨i, by simpa [hcfg] using ht, exec_invFor (present_invFor hinv i.dir) hstep⟩

/-- Settles O41: the counters of State.reset are 0 and its channels are empty and unbounded. -/
theorem resetStateMeetsInvariant : Obligations.ResetStateMeetsInvariant := by
  refine ⟨_, rfl, invFor_iff.mpr ⟨resetRegs_regsOk _ State.reset, ?_⟩⟩
  simp [State.ChansOk, State.reset, Chan.empty, Chan.InCap]

/-! ### The ports as functions of the registers (R33, R34, R35) -/

/-- Settles O25: the outputs after reset are those of an idle block without a done pulse. -/
theorem resetValuesAndOutputs : Obligations.ResetValuesAndOutputs := by
  intro i s
  have hports : s.resetRegs.outPorts i = ⟨true, false, false, false, s.resetRegs.freeOut i⟩ := by
    simp [State.outPorts, State.idle, State.done, State.inReady, State.outValid]
  have hregs : State.reset.SameRegs s.resetRegs := ⟨rfl, rfl, rfl, rfl, rfl⟩
  exact ⟨rfl, rfl, rfl, rfl, rfl, rfl, rfl, rfl, hports, hregs⟩

/-- out_data of W2B in WR is the byte of the accumulator that its byte order emits (R35). -/
theorem toByte_outData_w2b {i : Instr} {s : State} (hp : s.phase = .wr) (hd : i.dir = .w2b) :
    toByte (s.outPorts i).outData = emitW2B i.endian (ofItem i.wl s.acc) := by
  rw [outData_of_valid (by simp [State.outValid, hp])]
  simp [State.outItem, hd, State.accW]

/-- The output item depends on the accumulator alone. -/
theorem outItem_congr {i : Instr} {s t : State} (h : t.acc = s.acc) : t.outItem i = s.outItem i := by
  simp [State.outItem, State.accW, h]

/-- Settles O34: the control outputs compare the phase, and in WR out_data is read off the accumulator. -/
theorem outputsAreFunctionsOfRegisters : Obligations.OutputsAreFunctionsOfRegisters := by
  refine ⟨fun i s _ => ?_, fun i s _ hp hd hfit => ?_, fun i s _ hp hd he => ?_, fun i s _ hp hd he => ?_,
    fun i s t _ _ hp hregs => ?_⟩
  · cases hp : s.phase <;>
      simp [State.outPorts, State.idle, State.done, State.inReady, State.outValid, hp]
  · rw [outData_of_valid (by simp [State.outValid, hp])]
    simp [State.outItem, hd, State.accW, toItem_ofItem hfit]
  · simp [toByte_outData_w2b hp hd, he, emitW2B]
  · simp [toByte_outData_w2b hp hd, he, emitW2B]
  · obtain ⟨hacc, hphase, -, -, hdone⟩ := hregs
    simp [State.outPorts, State.idle, State.done, State.inReady, State.outValid, hphase, hdone, hp, outItem_congr hacc]

/-! ### The registers an idle block does not use (R32) -/

/-- An edge with reset asserted answers the reset registers, after the transfer of its event (R126, R127). -/
theorem exec_reset {i : Instr} {s : State} (hr : s.pins.rst = true) :
    exec i s = .next (s.moved i.dir (s.eventAt i.dir (s.outItem i))).resetRegs := by
  simp [exec_eq_edge, State.edge, hr]

/-- An edge without reset and without an event only clears done_r. -/
theorem exec_quiet {i : Instr} {s : State} (hu : s.unreset = none) (hr : s.pins.rst = false)
    (hev : s.eventAt i.dir (s.outItem i) = none) : exec i s = .next (s.setDone false) := by
  rw [exec_eq_edge, hev, edge_quiet hu hr]

/-- An edge without reset is the row of its event. -/
theorem exec_row {i : Instr} {s : State} {e : Event} (hu : s.unreset = none) (hr : s.pins.rst = false)
    (hev : s.eventAt i.dir (s.outItem i) = some e) : exec i s = row i e (s.move i.dir e) := by
  rw [exec_eq_edge, hev, edge_row hu hr]

/-- The state with other values left in acc, i and j. -/
def State.withLeft (acc : Item) (i j : Nat) (s : State) : State := { s with acc := acc, i := i, j := j }

/-- The environment's moves do not see what is left in acc, i and j. -/
theorem present_withLeft (acc : Item) (i j : Nat) (s : State) (d : Dir) :
    (s.withLeft acc i j).present d = (s.present d).withLeft acc i j := by
  cases d <;> rfl

/-- Outside WR the event of an edge does not depend on acc, i and j. -/
theorem eventAt_withLeft {acc out out' : Item} {i j : Nat} {s : State} {d : Dir} (hp : s.phase ≠ .wr) :
    (s.withLeft acc i j).eventAt d out' = s.eventAt d out := by
  cases hs : s.phase with
  | idle => simp [State.eventAt, State.withLeft, hs]
  | rd => simp [State.eventAt, State.withLeft, State.inHead, State.chanHead, State.driven, hs]
  | wr => exact absurd hs hp

/-- A reset edge wipes out what was left in acc, i and j. -/
theorem moved_withLeft_resetRegs (acc : Item) (i j : Nat) (s : State) (d : Dir) (ev : Option Event) :
    ((s.withLeft acc i j).moved d ev).resetRegs = (s.moved d ev).resetRegs := by
  cases ev with
  | none => rfl
  | some e => cases e <;> cases d <;> rfl

/-- The states that behave like s: s itself, in IDLE those with anything in acc, i and j, and for W2B in RD those with
anything in acc, which the next read loads. -/
inductive State.Alike (c : Instr) (s : State) : State → Prop
  | same : State.Alike c s s
  | idle (acc : Item) (i j : Nat) (hp : s.phase = .idle) : State.Alike c s (s.withLeft acc i j)
  | unloaded (acc : Item) (hd : c.dir = .w2b) (hp : s.phase = .rd) : State.Alike c s (s.withLeft acc s.i s.j)

/-- The environment's moves keep two states alike. -/
theorem present_alike {c : Instr} {s t : State} (h : State.Alike c s t) (d : Dir) :
    State.Alike c (s.present d) (t.present d) := by
  cases h with
  | same => exact .same
  | idle acc i j hp =>
    rw [present_withLeft]
    exact .idle acc i j (by simpa using hp)
  | unloaded acc hd hp =>
    rw [present_withLeft]
    simpa using State.Alike.unloaded (s := s.present d) acc hd (by simpa using hp)

/-- The Start rows of both families: B2W clears acc, W2B leaves it to the first read (R148, R178). -/
theorem row_start (c : Instr) (s : State) :
    row c .start s = s.startRow c.n (match c.dir with | .b2w => 0#64 | .w2b => s.acc) := by
  cases hd : c.dir with
  | b2w => rw [row_b2w hd]; rfl
  | w2b => rw [row_w2b hd]; rfl

/-- The start of an invocation does not see what was left in acc, i and j: i and j are written, and acc is written by
B2W and is still to be loaded in W2B. -/
theorem startRow_alike {c : Instr} {s s' : State} (acc : Item) (i j : Nat) (hp : s.phase = .idle)
    (h : row c .start s = .next s') :
    ∃ t', row c .start (s.withLeft acc i j) = .next t' ∧ State.Alike c s' t' := by
  rw [row_start] at h ⊢
  unfold State.startRow at h ⊢
  split at h
  · rename_i hn
    obtain rfl := Host.Outcome.next.inj h
    exact ⟨_, if_pos hn, .idle (s := s.setDone true) acc i j hp⟩
  · rename_i hn
    obtain rfl := Host.Outcome.next.inj h
    refine ⟨_, if_neg hn, ?_⟩
    cases hd : c.dir with
    | b2w => exact .same
    | w2b => exact .unloaded acc hd rfl

/-- What an edge outside WR does on s and on s with other values left in acc, i and j: the same reset, nothing but the
clearing of done_r, or the row of the same event. -/
theorem exec_withLeft_cases {c : Instr} {s s' : State} (acc : Item) (i j : Nat) (hp : s.phase ≠ .wr)
    (hu : s.unreset = none) (h : exec c s = .next s') :
    exec c (s.withLeft acc i j) = .next s' ∨
    (s' = s.setDone false ∧ exec c (s.withLeft acc i j) = .next (s'.withLeft acc i j)) ∨
    (∃ e, s.phase = e.phase ∧ row c e (s.move c.dir e) = .next s' ∧
      exec c (s.withLeft acc i j) = row c e ((s.withLeft acc i j).move c.dir e)) := by
  have hsame : (s.withLeft acc i j).eventAt c.dir ((s.withLeft acc i j).outItem c) = s.eventAt c.dir (s.outItem c) :=
    eventAt_withLeft hp
  have hul : (s.withLeft acc i j).unreset = none := hu
  cases hr : s.pins.rst with
  | true =>
    have hrl : (s.withLeft acc i j).pins.rst = true := hr
    rw [exec_reset hr] at h
    rw [exec_reset hrl, hsame, moved_withLeft_resetRegs]
    exact .inl h
  | false =>
    have hrl : (s.withLeft acc i j).pins.rst = false := hr
    cases hev : s.eventAt c.dir (s.outItem c) with
    | none =>
      rw [exec_quiet hu hr hev] at h
      obtain rfl := Host.Outcome.next.inj h
      exact .inr (.inl ⟨rfl, exec_quiet hul hrl (hsame.trans hev)⟩)
    | some e =>
      rw [exec_row hu hr hev] at h
      exact .inr (.inr ⟨e, phase_of_eventAt hev, h, exec_row hul hrl (hsame.trans hev)⟩)

/-- An edge answers alike on two states that are alike. -/
theorem exec_alike {c : Instr} {s s' t : State} (h : State.Alike c s t) (hu : s.unreset = none)
    (hs : exec c s = .next s') : ∃ t', exec c t = .next t' ∧ State.Alike c s' t' := by
  cases h with
  | same => exact ⟨s', hs, .same⟩
  | idle acc i j hp =>
    obtain ht | ⟨rfl, ht⟩ | ⟨e, he, hrow, ht⟩ := exec_withLeft_cases acc i j (by simp [hp]) hu hs
    · exact ⟨s', ht, .same⟩
    · exact ⟨_, ht, .idle acc i j hp⟩
    · rw [ht]
      cases e with
      | start =>
        rw [State.move_start] at hrow ⊢
        exact startRow_alike acc i j hp hrow
      | read v => simp [hp, Event.phase] at he
      | write v => simp [hp, Event.phase] at he
  | unloaded acc hd hp =>
    obtain ht | ⟨rfl, ht⟩ | ⟨e, he, hrow, ht⟩ := exec_withLeft_cases acc s.i s.j (by simp [hp]) hu hs
    · exact ⟨s', ht, .same⟩
    · exact ⟨_, ht, .unloaded (s := s.setDone false) acc hd hp⟩
    · rw [ht]
      cases e with
      | start => simp [hp, Event.phase] at he
      | read v =>
        rw [row_w2b hd, hd] at hrow ⊢
        exact ⟨s', hrow, .same⟩
      | write v => simp [hp, Event.phase] at he

/-- A run answers alike from two states that are alike. -/
theorem reaches_alike {c : Instr} {k : Nat} {s t u : State} (hcfg : s.cfg = .ok c) (hu : s.unreset = none)
    (h : State.Alike c s t) (hrun : Reaches k s u) : ∃ u', Reaches k t u' ∧ State.Alike c u u' := by
  induction k generalizing s t with
  | zero =>
    obtain rfl := reaches_zero.mp hrun
    exact ⟨t, reaches_zero.mpr rfl, h⟩
  | succ k ih =>
    obtain ⟨s', hstep, hrest⟩ := reaches_succ.mp hrun
    have hcfgt : t.cfg = .ok c := by cases h <;> exact hcfg
    rw [step_ok hcfg] at hstep
    obtain ⟨t', ht, hnext⟩ := exec_alike (present_alike h c.dir) (by simpa using hu) hstep
    obtain ⟨⟨hcfg', -⟩, hu', -⟩ := exec_frame hstep
    obtain ⟨u', hu'run, halike⟩ := ih (by simpa [hcfg] using hcfg') (hu' (by simpa using hu)) hnext hrest
    exact ⟨u', reaches_succ.mpr ⟨t', (step_ok hcfgt).trans ht, hu'run⟩, halike⟩

/-- States that are alike show the same: the phase, done, the channels and a valid out_data. -/
theorem outputs_alike {c : Instr} {s t : State} (h : State.Alike c s t) :
    t.phase = s.phase ∧ t.doneR = s.doneR ∧ t.byteCh = s.byteCh ∧ t.wordCh = s.wordCh ∧
      ((s.outPorts c).outValid = true → (t.outPorts c).outData = (s.outPorts c).outData) := by
  cases h with
  | same => exact ⟨rfl, rfl, rfl, rfl, fun _ => rfl⟩
  | idle acc i j hp =>
    refine ⟨rfl, rfl, rfl, rfl, fun hvalid => ?_⟩
    simp [State.outPorts, State.outValid, hp] at hvalid
  | unloaded acc hd hp =>
    refine ⟨rfl, rfl, rfl, rfl, fun hvalid => ?_⟩
    simp [State.outPorts, State.outValid, hp] at hvalid

/-- Settles O50: an idle state and one with anything else left in acc, i and j are alike, every step keeps them alike,
and states that are alike show the same. -/
theorem nothingCarriedBetweenInvocations : Obligations.NothingCarriedBetweenInvocations := by
  intro c s t acc i j k hcfg hu hp hrun
  obtain ⟨t', hrun', halike⟩ := reaches_alike hcfg hu (.idle acc i j hp) hrun
  exact ⟨t', hrun', outputs_alike halike⟩

end Sys2Proof.Machine
end

section
/-! PROOFS for the family of spec/20_memory.md. From the words of a stream and the lanes of a word to the partners of a
channel, the environment's moves and what a run without reset puts out. -/

namespace Sys2Proof.Machine

/-! ### Bursts cut the stream into words (R53, R60) -/

section
variable (e : Endian) (wl : WordLen)

/-- The words of a stream by count: the first n, and then the m of what lies behind them. -/
theorem wordsOf_add (n m : Nat) (bs : List Byte) :
    wordsOf e wl (n + m) bs = wordsOf e wl n bs ++ wordsOf e wl m (bs.drop (n * wl.bytes)) := by
  induction n generalizing bs with
  | zero => simp
  | succ n ih =>
    rw [Nat.add_right_comm, wordsOf_succ, wordsOf_succ, ih, List.drop_drop, Nat.succ_mul, Nat.add_comm wl.bytes]
    rfl

/-- The first n words of a stream are made of its first n·K bytes. -/
theorem wordsOf_append {n : Nat} {bs : List Byte} (h : n * wl.bytes ≤ bs.length) (cs : List Byte) :
    wordsOf e wl n (bs ++ cs) = wordsOf e wl n bs := by
  induction n generalizing bs with
  | zero => rfl
  | succ n ih =>
    rw [Nat.succ_mul] at h
    have htake : (bs ++ cs).take wl.bytes = bs.take wl.bytes := List.take_append_of_le_length (by omega)
    have hdrop : (bs ++ cs).drop wl.bytes = bs.drop wl.bytes ++ cs := List.drop_append_of_le_length (by omega)
    rw [wordsOf_succ, wordsOf_succ, htake, hdrop, ih (by simp; omega)]

/-- Word q of a stream is made of the K bytes from position q·K on (R54). -/
theorem wordsOf_getElem? {n q : Nat} (bs : List Byte) (h : q < n) :
    (wordsOf e wl n bs)[q]? = some (b2wWord e wl ((bs.drop (q * wl.bytes)).take wl.bytes)) := by
  obtain ⟨m, rfl⟩ : ∃ m, n = q + (m + 1) := ⟨n - q - 1, by omega⟩
  rw [wordsOf_add, List.getElem?_append_right (by simp)]
  simp

/-- A B2W burst answers exactly where N·K bytes are there: with the words of the stream, and the bytes beyond left. -/
theorem b2wBurst_eq (n : Nat) (bs : List Byte) :
    b2wBurst e wl n bs =
      if n * wl.bytes ≤ bs.length then some (wordsOf e wl n bs, bs.drop (n * wl.bytes)) else none := by
  induction n generalizing bs with
  | zero => simp [b2wBurst]
  | succ n ih =>
    rw [b2wBurst, ih, Nat.succ_mul, List.length_drop, List.drop_drop]
    by_cases hshort : bs.length < wl.bytes
    · rw [if_pos hshort, if_neg (by omega)]
    · rw [if_neg hshort]
      by_cases hrest : n * wl.bytes + wl.bytes ≤ bs.length
      · rw [if_pos hrest, if_pos (by omega), wordsOf_succ, Nat.add_comm wl.bytes]
      · rw [if_neg hrest, if_neg (by omega)]

/-- A W2B burst answers exactly where N words are there: with their bytes, and the words beyond left. -/
theorem w2bBurst_eq (n : Nat) (ws : List Item) :
    w2bBurst e wl n ws = if n ≤ ws.length then some (bytesOf e wl (ws.take n), ws.drop n) else none := by
  induction n generalizing ws with
  | zero => simp [w2bBurst]
  | succ n ih =>
    cases ws with
    | nil => rfl
    | cons v ws =>
      rw [w2bBurst, ih]
      by_cases h : n ≤ ws.length <;> simp [h]

end

/-- Settles O16: the closed forms of the two bursts. -/
theorem burstMovesExactCounts : Obligations.BurstMovesExactCounts := by
  refine ⟨fun e wl n bs => ?_, fun e wl n ws => ?_⟩
  · rw [b2wBurst_eq]
    exact ⟨fun hshort => if_neg (by omega), fun henough => ⟨_, if_pos henough, wordsOf_length ..⟩⟩
  · rw [w2bBurst_eq]
    exact ⟨fun hshort => if_neg (by omega),
      fun henough => ⟨_, if_pos henough, by rw [bytesOf_length, List.length_take_of_le henough]⟩⟩

/-- Settles O20: by the closed forms, the second burst starts at the byte or word that the first one left. -/
theorem consecutiveBurstsSplitTheStream : Obligations.ConsecutiveBurstsSplitTheStream := by
  refine ⟨fun e wl n m bs => ?_, fun e wl n m ws => ?_⟩
  · rw [b2wBurst_eq, b2wBurst_eq, Nat.add_mul]
    by_cases hn : n * wl.bytes ≤ bs.length
    · rw [if_pos hn, Option.bind_some, b2wBurst_eq, List.length_drop]
      by_cases hm : n * wl.bytes + m * wl.bytes ≤ bs.length
      · rw [if_pos hm, if_pos (by omega), Option.map_some, wordsOf_add, List.drop_drop]
      · rw [if_neg hm, if_neg (by omega), Option.map_none]
    · rw [if_neg hn, if_neg (by omega), Option.bind_none]
  · rw [w2bBurst_eq, w2bBurst_eq]
    by_cases hn : n ≤ ws.length
    · rw [if_pos hn, Option.bind_some, w2bBurst_eq, List.length_drop]
      by_cases hm : n + m ≤ ws.length
      · rw [if_pos hm, if_pos (by omega), Option.map_some, ← bytesOf_append, ← List.take_add, List.drop_drop]
      · rw [if_neg hm, if_neg (by omega), Option.map_none]
    · rw [if_neg hn, if_neg (by omega), Option.bind_none]

/-! ### The lanes of a word (R54) -/

section
variable {k : Nat} (e : Endian)

/-- The lane of the next serial index is one above in little-endian and one below in big-endian order (R54). -/
theorem lane_big_eq_succ {s : Nat} (hs : s + 1 < k) : lane .big k s = lane .big k (s + 1) + 1 := by
  simp only [lane]
  omega

/-- Discarding the byte emitted moves the others one serial index down (R170). -/
theorem laneByte_shiftW2B {s : Nat} (hs : s + 1 < k) (acc : BitVec (8 * k)) :
    laneByte (shiftW2B e acc) (lane e k s) = laneByte acc (lane e k (s + 1)) := by
  apply BitVec.eq_of_getLsbD_eq
  intro x hx
  cases e with
  | little =>
    have hbit : 8 + (8 * s + x) = 8 * (s + 1) + x := by omega
    simp [laneByte, shiftW2B, lane, hx, hbit]
  | big =>
    have hin : 8 * (lane .big k (s + 1) + 1) + x < 8 * k := by simp only [lane]; omega
    have hbit : 8 * (lane .big k (s + 1) + 1) + x - 8 = 8 * lane .big k (s + 1) + x := by omega
    have hhigh : ¬ 8 * (lane .big k (s + 1) + 1) + x < 8 := by omega
    rw [lane_big_eq_succ hs]
    simp [laneByte, shiftW2B, hx, hin, hbit, hhigh, -BitVec.getLsbD_eq_getElem]

/-- The accumulator with a byte placed is the one shifted, with the byte at serial index K - 1 (R140, R170). -/
theorem stepB2W_eq_or (acc : BitVec (8 * k)) (b : Byte) :
    stepB2W e acc b = shiftW2B e acc ||| (b.setWidth (8 * k) <<< (8 * lane e k (k - 1))) := by
  cases e with
  | little => simp [stepB2W, shiftW2B, lane, Nat.mul_sub]
  | big => simp [stepB2W, shiftW2B, lane]

/-- Lane m of a byte shifted to lane n: the byte, or nothing of it. -/
theorem laneByte_shiftLeft_byte {m n : Nat} (hm : m < k) (b : Byte) :
    laneByte (b.setWidth (8 * k) <<< (8 * n)) m = if m = n then b else 0#8 := by
  apply BitVec.eq_of_getLsbD_eq
  intro x hx
  have hin : 8 * m + x < 8 * k := by omega
  obtain hlt | rfl | hgt := Nat.lt_trichotomy m n
  · have hbelow : 8 * m + x < 8 * n := by omega
    simp [laneByte, hx, hbelow, hlt.ne]
  · simp [laneByte, hx, hin]
  · have habove : 8 ≤ 8 * m + x - 8 * n := by omega
    simp [laneByte, hx, hgt.ne', habove]

theorem laneByte_or {w : Nat} (a b : BitVec w) (m : Nat) : laneByte (a ||| b) m = laneByte a m ||| laneByte b m :=
  BitVec.extractLsb'_or

/-- The lane of a serial index of a word is a lane of it. -/
theorem lane_lt {s : Nat} (hs : s < k) : lane e k s < k := by
  cases e <;> simp only [lane] <;> omega

/-- Different serial indices of a word have different lanes. -/
theorem lane_inj {s t : Nat} (hs : s < k) (ht : t < k) : lane e k s = lane e k t ↔ s = t := by
  cases e with
  | little => rfl
  | big => simp only [lane]; omega

/-- Placing a byte moves the others one serial index down (R140). -/
theorem laneByte_stepB2W {s : Nat} (hs : s + 1 < k) (acc : BitVec (8 * k)) (b : Byte) :
    laneByte (stepB2W e acc b) (lane e k s) = laneByte acc (lane e k (s + 1)) := by
  have hne : lane e k s ≠ lane e k (k - 1) := by
    rw [ne_eq, lane_inj e (by omega) (by omega)]
    omega
  rw [stepB2W_eq_or, laneByte_or, laneByte_shiftW2B e hs, laneByte_shiftLeft_byte (lane_lt e (by omega)), if_neg hne]
  simp

/-- Nothing is left at serial index K - 1 once a byte is discarded (R170). -/
theorem laneByte_shiftW2B_last (hk : 0 < k) (acc : BitVec (8 * k)) :
    laneByte (shiftW2B e acc) (lane e k (k - 1)) = 0#8 := by
  apply BitVec.eq_of_getLsbD_eq
  intro x hx
  cases e with
  | little =>
    have hhigh : 8 * k ≤ 8 + (8 * (k - 1) + x) := by omega
    simp [laneByte, shiftW2B, lane, hx, hhigh]
  | big => simp [laneByte, shiftW2B, lane, hx]

/-- The byte that B2W places has serial index K - 1 (R140). -/
theorem laneByte_stepB2W_last (hk : 0 < k) (acc : BitVec (8 * k)) (b : Byte) :
    laneByte (stepB2W e acc b) (lane e k (k - 1)) = b := by
  rw [stepB2W_eq_or, laneByte_or, laneByte_shiftW2B_last e hk, laneByte_shiftLeft_byte (lane_lt e (by omega)),
    if_pos rfl]
  simp

/-- The byte that W2B emits has serial index 0 (R170). -/
theorem emitW2B_eq_laneByte (acc : BitVec (8 * k)) : emitW2B e acc = laneByte acc (lane e k 0) := by
  cases e with
  | little => rfl
  | big => simp [laneByte, emitW2B, lane, Nat.mul_sub]

/-- After t emissions the byte of serial index s + t stands at serial index s. -/
theorem laneByte_shiftTimes {s t : Nat} (hs : s + t < k) (acc : BitVec (8 * k)) :
    laneByte (shiftTimes e t acc) (lane e k s) = laneByte acc (lane e k (s + t)) := by
  induction t generalizing acc with
  | zero => rfl
  | succ t ih => rw [shiftTimes_succ, ih (by omega), laneByte_shiftW2B e (by omega), Nat.add_assoc]

/-- The byte emitted at time t is the one of serial index t (R54, R170). -/
theorem emitBytes_getElem?_eq_laneByte {t : Nat} (ht : t < k) (acc : BitVec (8 * k)) :
    (emitBytes e k acc)[t]? = some (laneByte acc (lane e k t)) := by
  rw [emitBytes_getElem? e k t acc ht, emitW2B_eq_laneByte, laneByte_shiftTimes e (by omega), Nat.zero_add]

/-- Taking bytes moves what was there down by as many serial indices. -/
theorem laneByte_assemble_old {s : Nat} {bs : List Byte} (hs : s + bs.length < k) (acc : BitVec (8 * k)) :
    laneByte (assemble e acc bs) (lane e k s) = laneByte acc (lane e k (s + bs.length)) := by
  induction bs generalizing acc with
  | nil => rfl
  | cons b bs ih =>
    rw [List.length_cons] at hs ⊢
    rw [assemble_cons, ih (by omega), laneByte_stepB2W e (by omega), Nat.add_assoc]

/-- The bytes taken fill the last serial indices in order (R54, R140). -/
theorem laneByte_assemble {s : Nat} {bs : List Byte} (hk : bs.length ≤ k) (hs : s < bs.length)
    (acc : BitVec (8 * k)) :
    bs[s]? = some (laneByte (assemble e acc bs) (lane e k (k - bs.length + s))) := by
  induction bs generalizing s acc with
  | nil => simp at hs
  | cons b bs ih =>
    rw [List.length_cons] at hs hk
    rw [assemble_cons, List.length_cons]
    cases s with
    | zero =>
      have hlast : k - (bs.length + 1) + 0 + bs.length = k - 1 := by omega
      rw [laneByte_assemble_old e (by omega), hlast, laneByte_stepB2W_last e (by omega)]
      rfl
    | succ s =>
      have hindex : k - (bs.length + 1) + (s + 1) = k - bs.length + s := by omega
      rw [List.getElem?_cons_succ, ih (by omega) (by omega), hindex]

end

/-- A word assembled of K bytes has them at their serial indices (R54, R140). -/
theorem laneByte_b2wWord (e : Endian) (wl : WordLen) {bs : List Byte} {s : Nat} (hlen : bs.length = wl.bytes)
    (hs : s < wl.bytes) : bs[s]? = some (laneByte (ofItem wl (b2wWord e wl bs)) (lane e wl.bytes s)) := by
  have h := laneByte_assemble (k := wl.bytes) e hlen.le (hlen.symm ▸ hs) 0#wl.bits
  rw [hlen, Nat.sub_self, Nat.zero_add] at h
  rw [b2wWord, ofItem_toItem]
  exact h

/-- The bytes of a word are those at its serial indices in order (R54, R170). -/
theorem w2bBytes_getElem? (e : Endian) (wl : WordLen) (v : Item) {s : Nat} (hs : s < wl.bytes) :
    (w2bBytes e wl v)[s]? = some (laneByte (ofItem wl v) (lane e wl.bytes s)) :=
  emitBytes_getElem?_eq_laneByte (k := wl.bytes) e hs (ofItem wl v)

/-- R54 for words assembled of a stream. -/
theorem laneByte_wordsOf (e : Endian) (wl : WordLen) {n p : Nat} {bs : List Byte} (hlen : n * wl.bytes ≤ bs.length)
    (hp : p < n * wl.bytes) :
    ((wordsOf e wl n bs)[p / wl.bytes]?).map (fun v => laneByte (ofItem wl v) (lane e wl.bytes (p % wl.bytes))) =
      bs[p]? := by
  have hK := WordLen_bytes_pos wl
  have hq : p / wl.bytes < n := Nat.div_lt_of_lt_mul (Nat.mul_comm n _ ▸ hp)
  have hs : p % wl.bytes < wl.bytes := Nat.mod_lt p hK
  have hword : p / wl.bytes * wl.bytes + wl.bytes ≤ n * wl.bytes := by
    rw [← Nat.succ_mul]
    exact Nat.mul_le_mul_right _ hq
  have htake : ((bs.drop (p / wl.bytes * wl.bytes)).take wl.bytes).length = wl.bytes := by
    rw [List.length_take, List.length_drop]
    omega
  rw [wordsOf_getElem? e wl bs hq, Option.map_some, ← laneByte_b2wWord e wl htake hs, List.getElem?_take_of_lt hs,
    List.getElem?_drop, Nat.div_add_mod']

/-- R54 for the bytes of words. -/
theorem bytesOf_getElem? (e : Endian) (wl : WordLen) (ws : List Item) (p : Nat) :
    (bytesOf e wl ws)[p]? =
      (ws[p / wl.bytes]?).map (fun v => laneByte (ofItem wl v) (lane e wl.bytes (p % wl.bytes))) := by
  have hK := WordLen_bytes_pos wl
  induction ws generalizing p with
  | nil => rfl
  | cons v ws ih =>
    rw [bytesOf_cons]
    obtain hlt | hge := Nat.lt_or_ge p wl.bytes
    · rw [List.getElem?_append_left (by simpa using hlt), w2bBytes_getElem? e wl v hlt, Nat.div_eq_of_lt hlt,
        Nat.mod_eq_of_lt hlt]
      rfl
    · rw [List.getElem?_append_right (by simpa using hge), w2bBytes_length, ih, Nat.div_eq_sub_div hK hge,
        Nat.mod_eq_sub_mod hge]
      rfl

/-- Settles O17: a byte of the stream is at its serial index in its word, whichever way it goes. -/
theorem streamPositionSelectsLane : Obligations.StreamPositionSelectsLane :=
  ⟨fun e wl _ _ _ => laneByte_wordsOf e wl, bytesOf_getElem?⟩

/-! ### Words of one byte (R57) -/

/-- A byte is its own lane 0. -/
theorem laneByte_zero (b : Byte) : laneByte b 0 = b := by
  simp [laneByte]

/-- Both byte orders put serial index 0 of a word of one byte into lane 0 (R54). -/
theorem lane_one (e : Endian) : lane e 1 0 = 0 := by
  cases e <;> rfl

/-- A byte placed into an accumulator of one byte is all of it (R140). -/
theorem stepB2W_byte (e : Endian) (acc b : Byte) : stepB2W e acc b = b := by
  have h := laneByte_stepB2W_last (k := 1) e (by decide) acc b
  rw [lane_one] at h
  exact (laneByte_zero _).symm.trans h

/-- The byte emitted of an accumulator of one byte is all of it (R170). -/
theorem emitW2B_byte (e : Endian) (acc : Byte) : emitW2B e acc = acc := by
  have h := emitW2B_eq_laneByte (k := 1) e acc
  rw [lane_one] at h
  exact h.trans (laneByte_zero acc)

/-- Nothing is left of an accumulator of one byte once it is emitted (R170). -/
theorem shiftW2B_byte (e : Endian) (acc : Byte) : shiftW2B e acc = 0#8 := by
  have h := laneByte_shiftW2B_last (k := 1) e (by decide) acc
  rw [lane_one] at h
  exact (laneByte_zero _).symm.trans h

section
variable (e e' : Endian)

/-- At K = 1 a byte is placed alike in both byte orders (R140). -/
theorem stepB2W_k1 (acc : BitVec WordLen.k1.bits) (b : Byte) : stepB2W e acc b = stepB2W e' acc b :=
  (stepB2W_byte e acc b).trans (stepB2W_byte e' acc b).symm

/-- At K = 1 a byte is emitted alike in both byte orders (R170). -/
theorem emitW2B_k1 (acc : BitVec WordLen.k1.bits) : emitW2B e acc = emitW2B e' acc :=
  (emitW2B_byte e acc).trans (emitW2B_byte e' acc).symm

/-- At K = 1 a byte is discarded alike in both byte orders (R170). -/
theorem shiftW2B_k1 (acc : BitVec WordLen.k1.bits) : shiftW2B e acc = shiftW2B e' acc :=
  (shiftW2B_byte e acc).trans (shiftW2B_byte e' acc).symm

/-- The rows of R148 at K = 1 do not depend on the byte order. -/
theorem b2wRow_k1 (n : Nat) (ev : Event) (s : State) : b2wRow e .k1 n ev s = b2wRow e' .k1 n ev s := by
  cases ev with
  | start => rfl
  | read v => simp only [b2wRow, stepB2W_k1 e e']
  | write v => rfl

/-- The rows of R178 at K = 1 do not depend on the byte order. -/
theorem w2bRow_k1 (n : Nat) (ev : Event) (s : State) : w2bRow e .k1 n ev s = w2bRow e' .k1 n ev s := by
  cases ev with
  | start => rfl
  | read v => rfl
  | write v => simp only [w2bRow, shiftW2B_k1 e e']

end

/-- Two instructions of one block with the same rows do the same where they put out the same item. -/
theorem exec_congr {i i' : Instr} {s : State} (hdir : i.dir = i'.dir) (hrow : row i = row i')
    (hout : s.outItem i = s.outItem i') : exec i s = exec i' s := by
  rw [exec_eq_edge, exec_eq_edge, hdir, hrow, hout]

/-- Settles O33: with one lane, placing a byte fills the accumulator and emitting one empties it, whatever the byte
order, so the two byte orders have the same rows and the same output item. -/
theorem singleByteIsEndiannessInvariant : Obligations.SingleByteIsEndiannessInvariant := by
  refine ⟨rfl, rfl, fun b s _ => ⟨?_, ?_, ?_⟩, fun e b => ⟨?_, ?_⟩⟩
  · exact exec_congr rfl (funext₂ (b2wRow_k1 .little .big b.n)) rfl
  · exact exec_congr rfl (funext₂ (w2bRow_k1 .little .big b.n)) (congrArg ofByte (emitW2B_k1 .little .big _))
  · exact exec_congr rfl (funext₂ (w2bRow_k1 .little .big b.n)) (congrArg ofByte (emitW2B_k1 .little .big _))
  · exact congrArg (toItem .k1) (stepB2W_byte e _ b)
  · exact congrArg (· :: []) ((emitW2B_byte e _).trans (toByte_ofByte b))

/-! ### The partners of a channel (R71) -/

/-- No pair of a list is related exactly when it is pairwise unrelated. -/
theorem anyPair_eq_false_iff {r : Inst → Inst → Bool} {xs : List Inst} :
    anyPair r xs = false ↔ xs.Pairwise (fun x y => r x y = false) := by
  induction xs with
  | nil => simp [anyPair]
  | cons x xs ih => simp [anyPair, ih]

/-- In a list without related pairs two members at different places are not related. -/
theorem unrelated_of_anyPair_eq_false {r : Inst → Inst → Bool} (hsymm : ∀ x y, r x y = r y x) {xs : List Inst}
    (h : anyPair r xs = false) {a b : Nat} {x y : Inst} (hab : a ≠ b) (hx : xs[a]? = some x) (hy : xs[b]? = some y) :
    r x y = false := by
  obtain ⟨ha, rfl⟩ := List.getElem?_eq_some_iff.mp hx
  obtain ⟨hb, rfl⟩ := List.getElem?_eq_some_iff.mp hy
  have hpair := List.pairwise_iff_getElem.mp (anyPair_eq_false_iff.mp h)
  obtain hlt | hgt := Nat.lt_or_gt_of_ne hab
  · exact hpair a b ha hb hlt
  · rw [hsymm]
    exact hpair b a hb ha hgt

/-- A system that is built has no two that write one channel and no two that read one. -/
theorem anyPair_of_build {sys sys' : System} (h : sys.build = .ok sys') :
    anyPair Inst.sameOut sys.insts = false ∧ anyPair Inst.sameIn sys.insts = false := by
  unfold System.build at h
  split_ifs at h with hload hprod hcons hwidth
  simp only [System.twoProducers, System.twoConsumers, Bool.or_eq_true, not_or, Bool.not_eq_true] at hprod hcons
  exact ⟨hprod.1, hcons.1⟩

theorem Inst.sameOut_comm (x y : Inst) : x.sameOut y = y.sameOut x := by
  simp only [Inst.sameOut, BEq.comm]

theorem Inst.sameIn_comm (x y : Inst) : x.sameIn y = y.sameIn x := by
  simp only [Inst.sameIn, BEq.comm]

/-- Settles O52: build refuses a system in which two of one block are bound to one channel on one side. -/
theorem builtSystemHasSinglePartners : Obligations.BuiltSystemHasSinglePartners := by
  intro sys sys' a b x y hbuild hab hx hy hdir
  obtain ⟨hout, hin⟩ := anyPair_of_build hbuild
  have hxout := unrelated_of_anyPair_eq_false Inst.sameOut_comm hout hab hx hy
  have hxin := unrelated_of_anyPair_eq_false Inst.sameIn_comm hin hab hx hy
  exact ⟨by simpa [Inst.sameOut, hdir] using hxout, by simpa [Inst.sameIn, hdir] using hxin⟩

/-! ### The environment's moves (R63, R70, R71) -/

/-- A channel that a producer writes to or a consumer takes from, or that is left alone, stays within its capacity. -/
theorem present_inCap (s : State) (d : Dir) :
    (s.byteCh.InCap → (s.present d).byteCh.InCap) ∧ (s.wordCh.InCap → (s.present d).wordCh.InCap) := by
  cases d with
  | b2w => exact ⟨fun h => Chan.put_inCap h _, fun h => Chan.drain_inCap h _⟩
  | w2b => exact ⟨fun h => Chan.drain_inCap h _, fun h => Chan.put_inCap h _⟩

@[simp] theorem present_bytesAhead (s : State) : (s.present .b2w).bytesAhead = s.bytesAhead := Chan.put_ahead ..
@[simp] theorem present_wordsOut (s : State) : (s.present .b2w).wordsOut = s.wordsOut := Chan.drain_out ..
@[simp] theorem present_wordsAhead (s : State) : (s.present .w2b).wordsAhead = s.wordsAhead := Chan.put_ahead ..
@[simp] theorem present_bytesOut (s : State) : (s.present .w2b).bytesOut = s.bytesOut := Chan.drain_out ..

/-- Settles O40: the producer's writes and the consumer's takes keep the order, and nothing else is moved. -/
theorem environmentMovesKeepOrder : Obligations.EnvironmentMovesKeepOrder := by
  intro s d
  refine ⟨present_sameRegs s d, by simp, by simp, by simp, by simp, by simp, ?_, ?_, present_inCap s d⟩
  · rintro rfl
    exact ⟨present_bytesAhead s, present_wordsOut s, List.prefix_append _ _, List.drop_suffix _ _⟩
  · rintro rfl
    exact ⟨present_wordsAhead s, present_bytesOut s, List.prefix_append _ _, List.drop_suffix _ _⟩

/-! ### Runs without reset, and the items they move (R130, R133) -/

/-- The item an event takes in. -/
def Event.reads : Event → List Item
  | .read v => [v]
  | .start | .write _ => []

/-- The item an event puts out. -/
def Event.writes : Event → List Item
  | .write v => [v]
  | .start | .read _ => []

/-- What is collected of the labels of an edge comes of its event, where done and reset give nothing. -/
theorem filterMap_edgeLabels {f : Label → Option Item} (hdone : f .done = none) (hreset : f .reset = none) (i : Instr)
    (s : State) :
    (edgeLabels i s).filterMap f = (s.eventAt i.dir (s.outItem i)).toList.filterMap (fun e => f (.event e)) := by
  unfold edgeLabels
  split_ifs <;> simp [hdone, hreset, List.filterMap_map]

/-- The in-side items of an edge are those of its event. -/
theorem readItems_edgeLabels (i : Instr) (s : State) :
    readItems (edgeLabels i s) = (s.eventAt i.dir (s.outItem i)).elim [] Event.reads := by
  rw [readItems, filterMap_edgeLabels rfl rfl]
  cases s.eventAt i.dir (s.outItem i) with
  | none => rfl
  | some e => cases e <;> rfl

/-- The out-side items of an edge are those of its event. -/
theorem writeItems_edgeLabels (i : Instr) (s : State) :
    writeItems (edgeLabels i s) = (s.eventAt i.dir (s.outItem i)).elim [] Event.writes := by
  rw [writeItems, filterMap_edgeLabels rfl rfl]
  cases s.eventAt i.dir (s.outItem i) with
  | none => rfl
  | some e => cases e <;> rfl

/-- The entry of the next edge is one of the script or the quiet one beyond its end (log entry 6). -/
theorem headD_quiet {P : EnvEdge → Prop} {es : List EnvEdge} (hquiet : P .quiet) (h : ∀ e ∈ es, P e) :
    P (es.headD .quiet) := by
  cases es with
  | nil => exact hquiet
  | cons e es => exact h e List.mem_cons_self

/-- Without reset in the script, the next edge is none. -/
theorem State.NoReset.present_rst {s : State} (h : s.NoReset) (d : Dir) : (s.present d).pins.rst = false := by
  rw [State.present_pins]
  exact headD_quiet (P := fun e => e.pins.rst = false) rfl h

/-- With nothing driven in the script, nothing is at the next edge. -/
theorem State.NoDrive.present_drive {s : State} (h : s.NoDrive) (d : Dir) : (s.present d).pins.drive = none := by
  rw [State.present_pins]
  exact headD_quiet (P := fun e => e.pins.drive = none) rfl h

/-- A step uses up one entry of the script. -/
theorem script_of_exec_present {i : Instr} {s t : State} (h : exec i (s.present i.dir) = .next t) :
    t.script = s.script.tail := by
  obtain ⟨⟨-, -, hscript, -⟩, -⟩ := exec_frame h
  rw [hscript, State.present_script]

/-- An edge without reset either has no event and only clears done_r, or is its event's row. -/
theorem exec_noReset_cases {i : Instr} {s t : State} (hu : s.unreset = none) (hr : s.pins.rst = false)
    (h : exec i s = .next t) :
    (s.eventAt i.dir (s.outItem i) = none ∧ t = s.setDone false) ∨
      ∃ e, s.eventAt i.dir (s.outItem i) = some e ∧ row i e (s.move i.dir e) = .next t := by
  cases hev : s.eventAt i.dir (s.outItem i) with
  | none =>
    rw [exec_quiet hu hr hev] at h
    exact .inl ⟨rfl, (Host.Outcome.next.inj h).symm⟩
  | some e =>
    rw [exec_row hu hr hev] at h
    exact .inr ⟨e, rfl, h⟩

/-- What every step keeps of a state and the labels so far, a run without reset keeps. -/
theorem run_keeps {i : Instr} {P : List Label → State → Prop}
    (hstep : ∀ ls s t, s.unreset = none → s.NoReset → exec i (s.present i.dir) = .next t → P ls s →
      P (ls ++ edgeLabels i (s.present i.dir)) t)
    {k : Nat} {s t : State} (hcfg : s.cfg = .ok i) (hu : s.unreset = none) (hreset : s.NoReset) (hrun : Reaches k s t)
    {ls : List Label} (h : P ls s) : P (ls ++ runLabels i k s) t := by
  induction k generalizing s ls with
  | zero =>
    obtain rfl := reaches_zero.mp hrun
    simpa using h
  | succ k ih =>
    obtain ⟨u, hs, hrest⟩ := reaches_succ.mp hrun
    have hexec : exec i (s.present i.dir) = .next u := step_ok hcfg ▸ hs
    obtain ⟨⟨hcfg', -⟩, hu', -⟩ := exec_frame hexec
    have hreset' : u.NoReset := fun e he =>
      hreset e (List.mem_of_mem_tail (script_of_exec_present hexec ▸ he))
    rw [runLabels_succ k hs, ← List.append_assoc]
    exact ih (by simpa [hcfg] using hcfg') (hu' (by simpa using hu)) hreset' hrest (hstep ls s u hu hreset hexec h)

/-! ### What lies ahead of a run and what it has put out (R63) -/

/-- An edge of B2W appends the words it puts out. -/
theorem exec_wordsOut {i : Instr} {s t : State} (hd : i.dir = .b2w) (h : exec i s = .next t) :
    t.wordsOut = s.wordsOut ++ writeItems (edgeLabels i s) := by
  obtain ⟨-, -, -, hw⟩ := exec_frame h
  rw [writeItems_edgeLabels, State.wordsOut, State.wordsOut, hw]
  cases s.eventAt i.dir (s.outItem i) with
  | none => simp
  | some e => cases e <;> simp [hd, Event.writes]

/-- An edge of W2B appends the bytes it puts out. -/
theorem exec_bytesOut {i : Instr} {s t : State} (hd : i.dir = .w2b) (h : exec i s = .next t) :
    t.bytesOut = s.bytesOut ++ (writeItems (edgeLabels i s)).map toByte := by
  obtain ⟨-, -, hb, -⟩ := exec_frame h
  rw [writeItems_edgeLabels, State.bytesOut, State.bytesOut, hb]
  cases s.eventAt i.dir (s.outItem i) with
  | none => simp
  | some e => cases e <;> simp [hd, Event.writes]

/-- The item read where the producer drives nothing is the channel's head (R111). -/
theorem inHead_of_not_driven {d : Dir} {s : State} (h : s.pins.drive = none) : s.inHead d = s.chanHead d := by
  cases d <;> simp [State.inHead, State.driven, h]

/-- An edge of B2W takes its bytes from the front of those ahead, where the producer drives nothing. -/
theorem exec_bytesAhead {i : Instr} {s t : State} (hd : i.dir = .b2w) (hdrive : s.pins.drive = none)
    (h : exec i s = .next t) : s.bytesAhead = (readItems (edgeLabels i s)).map toByte ++ t.bytesAhead := by
  obtain ⟨-, -, hb, -⟩ := exec_frame h
  rw [readItems_edgeLabels, State.bytesAhead, State.bytesAhead, hb]
  cases hev : s.eventAt i.dir (s.outItem i) with
  | none => simp
  | some e =>
    cases e with
    | start => simp [Event.reads]
    | write v => simp [hd, Event.reads]
    | read v =>
      obtain ⟨-, -, hhead⟩ := eventAt_read.mp hev
      rw [inHead_of_not_driven hdrive, hd, State.chanHead, Option.map_eq_some_iff] at hhead
      obtain ⟨b, hb, rfl⟩ := hhead
      obtain ⟨bs, hbs⟩ := List.head?_eq_some_iff.mp hb
      simp [hd, Event.reads, hbs]

/-- An edge of W2B takes its words from the front of those ahead, where the producer drives nothing. -/
theorem exec_wordsAhead {i : Instr} {s t : State} (hd : i.dir = .w2b) (hdrive : s.pins.drive = none)
    (h : exec i s = .next t) : s.wordsAhead = readItems (edgeLabels i s) ++ t.wordsAhead := by
  obtain ⟨-, -, -, hw⟩ := exec_frame h
  rw [readItems_edgeLabels, State.wordsAhead, State.wordsAhead, hw]
  cases hev : s.eventAt i.dir (s.outItem i) with
  | none => simp
  | some e =>
    cases e with
    | start => simp [Event.reads]
    | write v => simp [hd, Event.reads]
    | read v =>
      obtain ⟨-, -, hhead⟩ := eventAt_read.mp hev
      rw [inHead_of_not_driven hdrive, hd, State.chanHead] at hhead
      obtain ⟨vs, hvs⟩ := List.head?_eq_some_iff.mp hhead
      simp [hd, Event.reads, hvs]

section
variable {i : Instr} {k : Nat} {s t : State} (hcfg : s.cfg = .ok i) (hu : s.unreset = none) (hreset : s.NoReset)
  (hrun : Reaches k s t)
include hcfg hu hreset hrun

/-- What every edge appends its out-side items to, and the environment's moves keep, has those of a run appended. -/
theorem reaches_out {α : Type} {out : State → List α} {f : Item → α}
    (hpresent : ∀ u, out (u.present i.dir) = out u)
    (hexec : ∀ u v, exec i u = .next v → out v = out u ++ (writeItems (edgeLabels i u)).map f) :
    out t = out s ++ (writeItems (runLabels i k s)).map f := by
  refine run_keeps (P := fun ls u => out u = out s ++ (writeItems ls).map f) (ls := []) (fun ls u v _ _ huv h => ?_)
    hcfg hu hreset hrun (List.append_nil _).symm
  rw [hexec _ v huv, hpresent, h, writeItems_append, List.map_append, List.append_assoc]

/-- What every edge without a driven item takes its in-side items from, and the environment's moves keep, has those of
a run taken from its front. -/
theorem reaches_ahead {α : Type} {ahead : State → List α} {f : Item → α}
    (hpresent : ∀ u, ahead (u.present i.dir) = ahead u)
    (hexec : ∀ u v, u.pins.drive = none → exec i u = .next v →
      ahead u = (readItems (edgeLabels i u)).map f ++ ahead v)
    (hdrive : s.NoDrive) : ahead s = (readItems (runLabels i k s)).map f ++ ahead t := by
  refine (run_keeps (P := fun ls u => u.NoDrive ∧ ahead s = (readItems ls).map f ++ ahead u) (ls := [])
    ?_ hcfg hu hreset hrun ⟨hdrive, rfl⟩).2
  rintro ls u v - - huv ⟨hnone, h⟩
  refine ⟨fun e he => hnone e (List.mem_of_mem_tail (script_of_exec_present huv ▸ he)), ?_⟩
  rw [h, ← hpresent u, hexec _ v (hnone.present_drive i.dir) huv, readItems_append, List.map_append, List.append_assoc]

/-- A run of B2W appends the words it puts out. -/
theorem reaches_wordsOut (hd : i.dir = .b2w) : t.wordsOut = s.wordsOut ++ writeItems (runLabels i k s) := by
  simpa using reaches_out hcfg hu hreset hrun (f := id) (hd ▸ present_wordsOut)
    fun u v huv => by simpa using exec_wordsOut hd huv

/-- A run of W2B appends the bytes it puts out. -/
theorem reaches_bytesOut (hd : i.dir = .w2b) :
    t.bytesOut = s.bytesOut ++ (writeItems (runLabels i k s)).map toByte :=
  reaches_out hcfg hu hreset hrun (hd ▸ present_bytesOut) fun _ _ => exec_bytesOut hd

/-- A run of B2W takes its bytes from the front of those ahead, where the producer drives nothing. -/
theorem reaches_bytesAhead (hd : i.dir = .b2w) :
    s.NoDrive → s.bytesAhead = (readItems (runLabels i k s)).map toByte ++ t.bytesAhead :=
  reaches_ahead hcfg hu hreset hrun (hd ▸ present_bytesAhead) fun _ _ => exec_bytesAhead hd

/-- A run of W2B takes its words from the front of those ahead, where the producer drives nothing. -/
theorem reaches_wordsAhead (hd : i.dir = .w2b) :
    s.NoDrive → s.wordsAhead = readItems (runLabels i k s) ++ t.wordsAhead := by
  simpa using reaches_ahead hcfg hu hreset hrun (f := id) (hd ▸ present_wordsAhead)
    fun u v hdrive huv => by simpa using exec_wordsAhead hd hdrive huv

end

/-! ### What B2W holds of the bytes it has taken (R148, R149) -/

/-- The accumulator of no bytes is 0. -/
@[simp] theorem b2wWord_nil (e : Endian) (wl : WordLen) : b2wWord e wl [] = 0#64 := by
  simp [b2wWord, toItem]

/-- One byte more into a word under assembly (R140). -/
theorem b2wWord_snoc (e : Endian) (wl : WordLen) (bs : List Byte) (b : Byte) :
    b2wWord e wl (bs ++ [b]) = toItem wl (stepB2W e (ofItem wl (b2wWord e wl bs)) b) := by
  simp [b2wWord, assemble_append]

/-- Whole words and then one word more. -/
theorem wordsOf_snoc (e : Endian) (wl : WordLen) {n : Nat} {cut part : List Byte} (hcut : cut.length = n * wl.bytes)
    (hpart : part.length = wl.bytes) :
    wordsOf e wl (n + 1) (cut ++ part) = wordsOf e wl n cut ++ [b2wWord e wl part] := by
  rw [wordsOf_add, wordsOf_append e wl hcut.ge, ← hcut, List.drop_left]
  simp [← hpart]

/-- The bytes of the current word that a B2W block has taken: none in IDLE, those of a part of a word in RD, and those
of a whole one in WR, where it waits to be put out. -/
def State.B2wHolds (i : Instr) (part : List Byte) (s : State) : Prop :=
  match s.phase with
  | .idle => part = []
  | .rd => part.length = s.j ∧ s.j < i.wl.bytes ∧ s.acc = b2wWord i.endian i.wl part
  | .wr => part.length = i.wl.bytes ∧ s.j = 0 ∧ s.acc = b2wWord i.endian i.wl part

/-- The bytes taken are those of the words put out and then those of the current word. -/
def State.B2wProgress (i : Instr) (c : List Byte) (w : List Item) (s : State) : Prop :=
  ∃ cut part, c = cut ++ part ∧ cut.length = w.length * i.wl.bytes ∧ w = wordsOf i.endian i.wl w.length cut ∧
    s.B2wHolds i part

section
variable {i : Instr} {part : List Byte} {s t : State}

theorem b2wHolds_idle (hp : s.phase = .idle) : s.B2wHolds i part ↔ part = [] := by
  simp [State.B2wHolds, hp]

theorem b2wHolds_rd (hp : s.phase = .rd) :
    s.B2wHolds i part ↔ part.length = s.j ∧ s.j < i.wl.bytes ∧ s.acc = b2wWord i.endian i.wl part := by
  simp [State.B2wHolds, hp]

theorem b2wHolds_wr (hp : s.phase = .wr) :
    s.B2wHolds i part ↔ part.length = i.wl.bytes ∧ s.j = 0 ∧ s.acc = b2wWord i.endian i.wl part := by
  simp [State.B2wHolds, hp]

/-- What is held depends on the registers alone, and not on done_r. -/
theorem b2wHolds_congr (hp : t.phase = s.phase) (hacc : t.acc = s.acc) (hj : t.j = s.j) :
    t.B2wHolds i part ↔ s.B2wHolds i part := by
  simp [State.B2wHolds, hp, hacc, hj]

/-- The word put out in WR is the one assembled of the bytes held. -/
theorem outItem_of_b2wHolds (hp : s.phase = .wr) (h : s.B2wHolds i part) :
    toItem i.wl (s.accW i.wl) = b2wWord i.endian i.wl part := by
  obtain ⟨-, -, hacc⟩ := (b2wHolds_wr hp).mp h
  rw [State.accW, hacc, toItem_ofItem (fits_b2wWord ..)]

/-- Progress when bytes join the current word, or when nothing moves. -/
theorem b2wProgress_read {c bs : List Byte} {w : List Item} (h : s.B2wProgress i c w)
    (hread : ∀ part, s.B2wHolds i part → t.B2wHolds i (part ++ bs)) : t.B2wProgress i (c ++ bs) w := by
  obtain ⟨cut, part, rfl, hcut, hw, hpart⟩ := h
  exact ⟨cut, part ++ bs, List.append_assoc .., hcut, hw, hread part hpart⟩

/-- Progress when the current word, whole, is put out. -/
theorem b2wProgress_write {c : List Byte} {w : List Item} {v : Item} (h : s.B2wProgress i c w)
    (hwrite : ∀ part, s.B2wHolds i part →
      part.length = i.wl.bytes ∧ v = b2wWord i.endian i.wl part ∧ t.B2wHolds i []) :
    t.B2wProgress i c (w ++ [v]) := by
  obtain ⟨cut, part, rfl, hcut, hw, hpart⟩ := h
  obtain ⟨hlen, rfl, ht⟩ := hwrite part hpart
  refine ⟨cut ++ part, [], (List.append_nil _).symm, ?_, ?_, ht⟩
  · rw [List.length_append, List.length_append, List.length_singleton, hcut, hlen, Nat.succ_mul]
  · rw [List.length_append, List.length_singleton, wordsOf_snoc _ _ hcut hlen, ← hw]

/-- Progress depends on the registers alone, and not on done_r. -/
theorem b2wProgress_congr {c : List Byte} {w : List Item} (hp : t.phase = s.phase) (hacc : t.acc = s.acc)
    (hj : t.j = s.j) (h : s.B2wProgress i c w) : t.B2wProgress i c w := by
  simpa using b2wProgress_read (bs := []) h fun part hpart => by simpa [b2wHolds_congr hp hacc hj] using hpart

/-- The rows of R148 keep the progress: a byte read joins the current word, and a word written is the current one. -/
theorem b2wRow_progress {c : List Byte} {w : List Item} {e : Event} (h : s.B2wProgress i c w)
    (hp : s.phase = e.phase) (hout : ∀ v, e = .write v → v = toItem i.wl (s.accW i.wl))
    (ht : b2wRow i.endian i.wl i.n e s = .next t) :
    t.B2wProgress i (c ++ e.reads.map toByte) (w ++ e.writes) := by
  obtain ⟨rfl, -, rfl⟩ | ⟨rfl, -, rfl⟩ | ⟨v, rfl, hj, rfl⟩ | ⟨v, rfl, hj, rfl⟩ | ⟨v, rfl, -, rfl⟩ | ⟨v, rfl, -, rfl⟩ :=
    b2wRow_cases ht
  · simpa [Event.reads, Event.writes] using b2wProgress_congr (s := s) (t := s.setDone true) rfl rfl rfl h
  · rw [Event.writes, List.append_nil]
    refine b2wProgress_read h fun part hpart => ?_
    obtain rfl := (b2wHolds_idle hp).mp hpart
    exact (b2wHolds_rd rfl).mpr ⟨rfl, WordLen_bytes_pos _, (b2wWord_nil ..).symm⟩
  · rw [Event.writes, List.append_nil]
    refine b2wProgress_read h fun part hpart => ?_
    obtain ⟨hlen, -, hacc⟩ := (b2wHolds_rd hp).mp hpart
    refine (b2wHolds_rd (by exact hp)).mpr ⟨by simp [Event.reads, hlen], hj, ?_⟩
    simp only [Event.reads, List.map_cons, List.map_nil, b2wWord_snoc, ← hacc]
    rfl
  · rw [Event.writes, List.append_nil]
    refine b2wProgress_read h fun part hpart => ?_
    obtain ⟨hlen, -, hacc⟩ := (b2wHolds_rd hp).mp hpart
    refine (b2wHolds_wr rfl).mpr ⟨by simp [Event.reads, hlen, hj], rfl, ?_⟩
    simp only [Event.reads, List.map_cons, List.map_nil, b2wWord_snoc, ← hacc]
    rfl
  · rw [Event.reads, List.map_nil, List.append_nil, Event.writes, hout v rfl]
    refine b2wProgress_write h fun part hpart => ?_
    obtain ⟨hlen, hj, -⟩ := (b2wHolds_wr hp).mp hpart
    exact ⟨hlen, outItem_of_b2wHolds hp hpart,
      (b2wHolds_rd rfl).mpr ⟨hj.symm, by rw [hj]; exact WordLen_bytes_pos _, (b2wWord_nil ..).symm⟩⟩
  · rw [Event.reads, List.map_nil, List.append_nil, Event.writes, hout v rfl]
    refine b2wProgress_write h fun part hpart => ?_
    obtain ⟨hlen, -, -⟩ := (b2wHolds_wr hp).mp hpart
    exact ⟨hlen, outItem_of_b2wHolds hp hpart, (b2wHolds_idle rfl).mpr rfl⟩

/-- An edge without reset keeps the progress. -/
theorem exec_b2wProgress {c : List Byte} {w : List Item} (hd : i.dir = .b2w) (hu : s.unreset = none)
    (hr : s.pins.rst = false) (hs : exec i s = .next t) (h : s.B2wProgress i c w) :
    t.B2wProgress i (c ++ (readItems (edgeLabels i s)).map toByte) (w ++ writeItems (edgeLabels i s)) := by
  rw [readItems_edgeLabels, writeItems_edgeLabels]
  obtain ⟨hev, rfl⟩ | ⟨e, hev, hrow⟩ := exec_noReset_cases hu hr hs <;> rw [hev]
  · simpa using b2wProgress_congr (t := s.setDone false) rfl rfl rfl h
  · have hmoved : (s.move i.dir e).B2wProgress i c w := b2wProgress_congr (by simp) (by simp) (by simp) h
    refine b2wRow_progress hmoved (by simpa using phase_of_eventAt hev) ?_ (row_b2w hd _ _ ▸ hrow)
    rintro v rfl
    obtain ⟨-, -, rfl⟩ := eventAt_write.mp hev
    simp [State.outItem, hd, State.accW]

/-- From IDLE, every run without reset makes progress. -/
theorem reaches_b2wProgress {k : Nat} (hcfg : s.cfg = .ok i) (hd : i.dir = .b2w) (hu : s.unreset = none)
    (hp : s.phase = .idle) (hreset : s.NoReset) (hrun : Reaches k s t) :
    t.B2wProgress i ((readItems (runLabels i k s)).map toByte) (writeItems (runLabels i k s)) := by
  have hstart : s.B2wProgress i [] [] := ⟨[], [], rfl, by simp, rfl, (b2wHolds_idle hp).mpr rfl⟩
  refine run_keeps (P := fun ls u => u.B2wProgress i ((readItems ls).map toByte) (writeItems ls)) (ls := [])
    (fun ls u v hu' hreset' hexec h => ?_) hcfg hu hreset hrun hstart
  rw [readItems_append, List.map_append, writeItems_append]
  exact exec_b2wProgress hd (by simpa using hu') (hreset'.present_rst _) hexec
    (b2wProgress_congr (by simp) (by simp) (by simp) h)

/-- Outside WR the words put out are those of the bytes taken, by count. -/
theorem b2wProgress_words {c : List Byte} {w : List Item} (h : s.B2wProgress i c w) (hp : s.phase ≠ .wr) :
    w = wordsOf i.endian i.wl (c.length / i.wl.bytes) c := by
  obtain ⟨cut, part, rfl, hcut, hw, hpart⟩ := h
  have hshort : part.length < i.wl.bytes := by
    cases hs : s.phase with
    | idle => simpa [(b2wHolds_idle hs).mp hpart] using WordLen_bytes_pos i.wl
    | rd =>
      obtain ⟨hlen, hj, -⟩ := (b2wHolds_rd hs).mp hpart
      exact hlen ▸ hj
    | wr => exact absurd hs hp
  have hcount : (cut ++ part).length / i.wl.bytes = w.length := by
    rw [List.length_append, hcut, Nat.mul_comm, Nat.mul_add_div (WordLen_bytes_pos _), Nat.div_eq_of_lt hshort,
      Nat.add_zero]
  rw [hcount, wordsOf_append _ _ hcut.ge, ← hw]

/-- In WR the word that waits in acc is the next one. -/
theorem b2wProgress_words_wr {c : List Byte} {w : List Item} (h : s.B2wProgress i c w) (hp : s.phase = .wr) :
    w ++ [s.acc] = wordsOf i.endian i.wl (c.length / i.wl.bytes) c := by
  obtain ⟨cut, part, rfl, hcut, hw, hpart⟩ := h
  obtain ⟨hlen, -, hacc⟩ := (b2wHolds_wr hp).mp hpart
  have hcount : (cut ++ part).length / i.wl.bytes = w.length + 1 := by
    rw [List.length_append, hcut, hlen, ← Nat.succ_mul, Nat.mul_div_cancel _ (WordLen_bytes_pos _)]
  rw [hcount, wordsOf_snoc _ _ hcut hlen, ← hw, hacc]

end

/-- Settles O47: the run keeps the progress of B2W, appends what it puts out, and takes what lies ahead in order. -/
theorem b2wOutputIsFunctionOfInput : Obligations.B2wOutputIsFunctionOfInput := by
  intro i s t k hcfg hd hinv hp hreset hrun
  obtain ⟨⟨hu, -⟩, -⟩ := hinv
  have hprogress := reaches_b2wProgress hcfg hd hu hp hreset hrun
  exact ⟨reaches_bytesAhead hcfg hu hreset hrun hd, reaches_wordsOut hcfg hu hreset hrun hd,
    b2wProgress_words hprogress, b2wProgress_words_wr hprogress⟩

/-! ### What W2B has still to put out of the words it has taken (R178, R175) -/

/-- The bytes of the current word that a W2B block has still to put out. -/
def State.w2bPending (i : Instr) (s : State) : List Byte :=
  match s.phase with
  | .wr => emitBytes i.endian (i.wl.bytes - s.j) (s.accW i.wl)
  | .idle | .rd => []

/-- The bytes put out and those still pending are the bytes of the words taken. -/
def State.W2bProgress (i : Instr) (c : List Item) (w : List Byte) (s : State) : Prop :=
  w ++ s.w2bPending i = bytesOf i.endian i.wl c

section
variable {i : Instr} {c : List Item} {w : List Byte} {s t : State}

theorem w2bPending_wr (hp : s.phase = .wr) :
    s.w2bPending i = emitBytes i.endian (i.wl.bytes - s.j) (s.accW i.wl) := by
  simp [State.w2bPending, hp]

theorem w2bPending_of_ne_wr (hp : s.phase ≠ .wr) : s.w2bPending i = [] := by
  cases hs : s.phase with
  | idle => simp [State.w2bPending, hs]
  | rd => simp [State.w2bPending, hs]
  | wr => exact absurd hs hp

/-- While bytes of the word are left, the one that W2B emits is the first of those pending (R170). -/
theorem w2bPending_eq_cons (hp : s.phase = .wr) (hj : s.j < i.wl.bytes) :
    s.w2bPending i = emitW2B i.endian (s.accW i.wl) ::
      emitBytes i.endian (i.wl.bytes - (s.j + 1)) (shiftW2B i.endian (s.accW i.wl)) := by
  have hleft : i.wl.bytes - s.j = i.wl.bytes - (s.j + 1) + 1 := by omega
  rw [w2bPending_wr hp, hleft, emitBytes_succ]

/-- The last byte of a word that W2B emits is the only one pending, and outside WR none is. -/
theorem w2bPending_last (hp : s.phase = .wr) (hj : s.j + 1 = i.wl.bytes) (ht : t.phase ≠ .wr) :
    s.w2bPending i = emitW2B i.endian (s.accW i.wl) :: t.w2bPending i := by
  rw [w2bPending_eq_cons hp (by omega), hj, Nat.sub_self, w2bPending_of_ne_wr ht]
  rfl

/-- Progress depends on the registers alone, and not on done_r. -/
theorem w2bProgress_congr (hp : t.phase = s.phase) (hacc : t.acc = s.acc) (hj : t.j = s.j)
    (h : s.W2bProgress i c w) : t.W2bProgress i c w := by
  simpa [State.W2bProgress, State.w2bPending, State.accW, hp, hacc, hj] using h

/-- Progress when the first of the pending bytes is put out. -/
theorem w2bProgress_write {b : Byte} (h : s.W2bProgress i c w) (hb : s.w2bPending i = b :: t.w2bPending i) :
    t.W2bProgress i c (w ++ [b]) := by
  rw [State.W2bProgress, hb] at h
  rw [State.W2bProgress, List.append_assoc, List.singleton_append, h]

/-- The rows of R178 keep the progress: a word read is all pending, and a byte written is the first one pending. -/
theorem w2bRow_progress {e : Event} (h : s.W2bProgress i c w) (hp : s.phase = e.phase)
    (hout : ∀ v, e = .write v → v = ofByte (emitW2B i.endian (s.accW i.wl)))
    (ht : w2bRow i.endian i.wl i.n e s = .next t) :
    t.W2bProgress i (c ++ e.reads) (w ++ e.writes.map toByte) := by
  obtain ⟨rfl, -, rfl⟩ | ⟨rfl, -, rfl⟩ | ⟨v, rfl, rfl⟩ | ⟨v, rfl, hj, rfl⟩ | ⟨v, rfl, hj, -, rfl⟩ | ⟨v, rfl, hj, -, rfl⟩ :=
    w2bRow_cases ht
  · simpa [Event.reads, Event.writes] using w2bProgress_congr (s := s) (t := s.setDone true) rfl rfl rfl h
  · rw [State.W2bProgress, w2bPending_of_ne_wr (by simp [hp, Event.phase])] at h
    simpa [State.W2bProgress, State.w2bPending, Event.reads, Event.writes] using h
  · rw [State.W2bProgress, w2bPending_of_ne_wr (by simp [hp, Event.phase]), List.append_nil] at h
    simp [State.W2bProgress, State.w2bPending, State.accW, Event.reads, Event.writes, bytesOf_append, h, w2bBytes]
  · rw [Event.reads, List.append_nil, Event.writes, hout v rfl, List.map_singleton, toByte_ofByte]
    refine w2bProgress_write h ?_
    rw [w2bPending_eq_cons hp (by omega), w2bPending_wr (by exact hp), State.accW, State.accW, ofItem_toItem]
  · rw [Event.reads, List.append_nil, Event.writes, hout v rfl, List.map_singleton, toByte_ofByte]
    exact w2bProgress_write h (w2bPending_last hp hj (by simp))
  · rw [Event.reads, List.append_nil, Event.writes, hout v rfl, List.map_singleton, toByte_ofByte]
    exact w2bProgress_write h (w2bPending_last hp hj (by simp))

/-- An edge without reset keeps the progress. -/
theorem exec_w2bProgress (hd : i.dir = .w2b) (hu : s.unreset = none) (hr : s.pins.rst = false)
    (hs : exec i s = .next t) (h : s.W2bProgress i c w) :
    t.W2bProgress i (c ++ readItems (edgeLabels i s)) (w ++ (writeItems (edgeLabels i s)).map toByte) := by
  rw [readItems_edgeLabels, writeItems_edgeLabels]
  obtain ⟨hev, rfl⟩ | ⟨e, hev, hrow⟩ := exec_noReset_cases hu hr hs <;> rw [hev]
  · simpa using w2bProgress_congr (t := s.setDone false) rfl rfl rfl h
  · have hmoved : (s.move i.dir e).W2bProgress i c w := w2bProgress_congr (by simp) (by simp) (by simp) h
    refine w2bRow_progress hmoved (by simpa using phase_of_eventAt hev) ?_ (row_w2b hd _ _ ▸ hrow)
    rintro v rfl
    obtain ⟨-, -, rfl⟩ := eventAt_write.mp hev
    simp [State.outItem, hd, State.accW]

/-- From IDLE, every run without reset makes progress. -/
theorem reaches_w2bProgress {k : Nat} (hcfg : s.cfg = .ok i) (hd : i.dir = .w2b) (hu : s.unreset = none)
    (hp : s.phase = .idle) (hreset : s.NoReset) (hrun : Reaches k s t) :
    t.W2bProgress i (readItems (runLabels i k s)) ((writeItems (runLabels i k s)).map toByte) := by
  have hstart : s.W2bProgress i [] [] := w2bPending_of_ne_wr (by simp [hp])
  refine run_keeps (P := fun ls u => u.W2bProgress i (readItems ls) ((writeItems ls).map toByte)) (ls := [])
    (fun ls u v hu' hreset' hexec h => ?_) hcfg hu hreset hrun hstart
  rw [readItems_append, writeItems_append, List.map_append]
  exact exec_w2bProgress hd (by simpa using hu') (hreset'.present_rst _) hexec
    (w2bProgress_congr (by simp) (by simp) (by simp) h)

/-- Outside WR the bytes put out are those of the words taken. -/
theorem w2bProgress_bytes (h : s.W2bProgress i c w) (hp : s.phase ≠ .wr) : w = bytesOf i.endian i.wl c := by
  rwa [State.W2bProgress, w2bPending_of_ne_wr hp, List.append_nil] at h

/-- In WR the bytes still to come of the word in acc complete those of the words taken. -/
theorem w2bProgress_bytes_wr (h : s.W2bProgress i c w) (hp : s.phase = .wr) :
    w ++ emitBytes i.endian (i.wl.bytes - s.j) (ofItem i.wl s.acc) = bytesOf i.endian i.wl c := by
  rwa [State.W2bProgress, w2bPending_wr hp] at h

end

/-- Settles O48: the run keeps the progress of W2B, appends what it puts out, and takes what lies ahead in order. -/
theorem w2bOutputIsFunctionOfInput : Obligations.W2bOutputIsFunctionOfInput := by
  intro i s t k hcfg hd hinv hp hreset hrun
  obtain ⟨⟨hu, -⟩, -⟩ := hinv
  have hprogress := reaches_w2bProgress hcfg hd hu hp hreset hrun
  exact ⟨reaches_wordsAhead hcfg hu hreset hrun hd, reaches_bytesOut hcfg hu hreset hrun hd,
    w2bProgress_bytes hprogress, w2bProgress_bytes_wr hprogress⟩

/-! ### Two runs that take the same items (R65) -/

/-- What W2B puts out at an edge is a byte, zero-extended (R35). -/
theorem writeItems_edgeLabels_bytes {i : Instr} (hd : i.dir = .w2b) (s : State) :
    (writeItems (edgeLabels i s)).map (ofByte ∘ toByte) = writeItems (edgeLabels i s) := by
  rw [writeItems_edgeLabels]
  cases hev : s.eventAt i.dir (s.outItem i) with
  | none => rfl
  | some e =>
    cases e with
    | start => rfl
    | read v => rfl
    | write v =>
      obtain ⟨-, -, rfl⟩ := eventAt_write.mp hev
      simp [Event.writes, State.outItem, hd]

section
variable {i : Instr} {k k' : Nat} {s s' t t' : State} (hcfg : s.cfg = .ok i) (hcfg' : s'.cfg = .ok i)
  (hinv : s.InvFor i) (hinv' : s'.InvFor i) (hp : s.phase = .idle) (hp' : s'.phase = .idle)
  (hreset : s.NoReset) (hreset' : s'.NoReset) (hrun : Reaches k s t) (hrun' : Reaches k' s' t')
  (hend : t.phase = .idle) (hend' : t'.phase = .idle)

include hcfg hinv hreset hrun in
/-- What W2B puts out over a run is bytes, zero-extended (R35). -/
theorem writeItems_runLabels_bytes (hd : i.dir = .w2b) :
    (writeItems (runLabels i k s)).map (ofByte ∘ toByte) = writeItems (runLabels i k s) := by
  obtain ⟨⟨hu, -⟩, -⟩ := hinv
  refine run_keeps (P := fun ls _ => (writeItems ls).map (ofByte ∘ toByte) = writeItems ls) (ls := [])
    (fun ls u v _ _ _ h => ?_) hcfg hu hreset hrun rfl
  rw [writeItems_append, List.map_append, h, writeItems_edgeLabels_bytes hd]

include hcfg hcfg' hinv hinv' hp hp' hreset hreset' hrun hrun' hend hend'

/-- Two runs of B2W that have taken the same bytes have put out the same words. -/
theorem writeItems_b2w_congr (hd : i.dir = .b2w)
    (h : (readItems (runLabels i k s)).map toByte = (readItems (runLabels i k' s')).map toByte) :
    writeItems (runLabels i k s) = writeItems (runLabels i k' s') := by
  obtain ⟨-, -, hw, -⟩ := b2wOutputIsFunctionOfInput i s t k hcfg hd hinv hp hreset hrun
  obtain ⟨-, -, hw', -⟩ := b2wOutputIsFunctionOfInput i s' t' k' hcfg' hd hinv' hp' hreset' hrun'
  rw [hw (by simp [hend]), hw' (by simp [hend']), h]

/-- Two runs of W2B that have taken the same words have put out the same bytes. -/
theorem writeItems_w2b_congr (hd : i.dir = .w2b)
    (h : readItems (runLabels i k s) = readItems (runLabels i k' s')) :
    writeItems (runLabels i k s) = writeItems (runLabels i k' s') := by
  obtain ⟨-, -, hw, -⟩ := w2bOutputIsFunctionOfInput i s t k hcfg hd hinv hp hreset hrun
  obtain ⟨-, -, hw', -⟩ := w2bOutputIsFunctionOfInput i s' t' k' hcfg' hd hinv' hp' hreset' hrun'
  have hbytes : (writeItems (runLabels i k s)).map toByte = (writeItems (runLabels i k' s')).map toByte := by
    rw [hw (by simp [hend]), hw' (by simp [hend']), h]
  rw [← writeItems_runLabels_bytes hcfg hinv hreset hrun hd,
    ← writeItems_runLabels_bytes hcfg' hinv' hreset' hrun' hd]
  simpa using congrArg (List.map ofByte) hbytes

end

/-- Settles O49: of two runs that took the same items each put out the function of them that its block is, and two
channels with the same items ahead and equally much still ahead have given the same items. -/
theorem outputIgnoresTiming : Obligations.OutputIgnoresTiming := by
  intro i s s' t t' k k' hcfg hcfg' hinv hinv' hp hp' hreset hreset' hrun hrun' hend hend'
  have hb2w := writeItems_b2w_congr hcfg hcfg' hinv hinv' hp hp' hreset hreset' hrun hrun' hend hend'
  have hw2b := writeItems_w2b_congr hcfg hcfg' hinv hinv' hp hp' hreset hreset' hrun hrun' hend hend'
  refine ⟨fun hread => ?_, fun hd hdrive hdrive' hahead hleft hout => ?_,
    fun hd hdrive hdrive' hahead hleft hout => ?_⟩
  · cases hd : i.dir with
    | b2w => exact hb2w hd (congrArg _ hread)
    | w2b => exact hw2b hd hread
  · obtain ⟨hin, hw, -⟩ := b2wOutputIsFunctionOfInput i s t k hcfg hd hinv hp hreset hrun
    obtain ⟨hin', hw', -⟩ := b2wOutputIsFunctionOfInput i s' t' k' hcfg' hd hinv' hp' hreset' hrun'
    rw [hin hdrive, hin' hdrive', hleft] at hahead
    rw [hw, hw', hout, hb2w hd (List.append_cancel_right hahead)]
  · obtain ⟨hin, hw, -⟩ := w2bOutputIsFunctionOfInput i s t k hcfg hd hinv hp hreset hrun
    obtain ⟨hin', hw', -⟩ := w2bOutputIsFunctionOfInput i s' t' k' hcfg' hd hinv' hp' hreset' hrun'
    rw [hin hdrive, hin' hdrive', hleft] at hahead
    rw [hw, hw', hout, hw2b hd (List.append_cancel_right hahead)]

end Sys2Proof.Machine
end

section
/-! PROOFS for the family of spec/30_encoding.md. A configuration word is its fields, so decoding and encoding are
inverse; from that the refusals, the rows of the opcode table, and last the texts that name a configuration. -/

namespace Sys2Proof

/-! ### A configuration word is its fields (R80) -/

@[simp] theorem WordLen.toBits_ofBits (b : BitVec 2) : (WordLen.ofBits b).toBits = b := by
  revert b
  decide

@[simp] theorem Sign.toBit_ofBit (b : Bool) : (Sign.ofBit b).toBit = b := by
  cases b <;> rfl

@[simp] theorem Endian.toBit_ofBit (b : Bool) : (Endian.ofBit b).toBit = b := by
  cases b <;> rfl

@[simp] theorem Dir.toBit_ofBit (b : Bool) : (Dir.ofBit b).toBit = b := by
  cases b <;> rfl

theorem Sign.ofBit_eq_iff {b : Bool} {s : Sign} : Sign.ofBit b = s ↔ b = s.toBit := by
  cases b <;> cases s <;> decide

theorem Dir.ofBit_eq_iff {b : Bool} {d : Dir} : Dir.ofBit b = d ↔ b = d.toBit := by
  cases b <;> cases d <;> decide

theorem Sign.ofBit_inj {b c : Bool} : Sign.ofBit b = Sign.ofBit c ↔ b = c := by
  rw [Sign.ofBit_eq_iff, Sign.toBit_ofBit]

theorem ofBool_getLsbD (cw : BitVec 8) (k : Nat) : BitVec.ofBool (cw.getLsbD k) = cw.extractLsb' k 1 := by
  ext i hi
  obtain rfl : i = 0 := by omega
  simp

/-- A word with RSV = 00 is the one that its other fields spell. -/
theorem cwOfFields_fields {cw : BitVec 8} (h : cwRsv cw = 0b00#2) :
    cwOfFields (cwWl cw) (cwTs cw) (cwS cw) (cwE cw) (cwDir cw) = cw := by
  simp only [cwOfFields, ← h, cwRsv, cwWl, cwTs, cwS, cwE, cwDir, WordLen.toBits_ofBits, Sign.toBit_ofBit,
    Endian.toBit_ofBit, Dir.toBit_ofBit, ofBool_getLsbD]
  rw [BitVec.extractLsb'_append_extractLsb'_eq_extractLsb' (show 6 = 4 + 2 from rfl),
    BitVec.extractLsb'_append_extractLsb'_eq_extractLsb' (show 4 = 3 + 1 from rfl),
    BitVec.extractLsb'_append_extractLsb'_eq_extractLsb' (show 3 = 2 + 1 from rfl),
    BitVec.extractLsb'_append_extractLsb'_eq_extractLsb' (show 2 = 1 + 1 from rfl),
    BitVec.extractLsb'_append_extractLsb'_eq_extractLsb' (show 1 = 0 + 1 from rfl)]
  exact BitVec.extractLsb'_eq_self

/-- RSV, WL and a row's four low bits are the whole word (R91). -/
theorem rsv_append_wl_append_low (cw : BitVec 8) :
    cwRsv cw ++ (cwWl cw).toBits ++ cw.extractLsb' 0 4 = cw := by
  rw [cwRsv, cwWl, WordLen.toBits_ofBits,
    BitVec.extractLsb'_append_extractLsb'_eq_extractLsb' (show 6 = 4 + 2 from rfl),
    BitVec.extractLsb'_append_extractLsb'_eq_extractLsb' (show 4 = 0 + 4 from rfl)]
  exact BitVec.extractLsb'_eq_self

/-- Appended words are equal part by part. -/
theorem append_eq_append_iff {m n : Nat} {a a' : BitVec m} {b b' : BitVec n} :
    a ++ b = a' ++ b' ↔ a = a' ∧ b = b' := by
  constructor
  · intro h
    constructor
    · rw [← BitVec.extractLsb'_append_eq_left (a := a) (b := b), h, BitVec.extractLsb'_append_eq_left]
    · rw [← BitVec.extractLsb'_append_eq_right (a := a) (b := b), h, BitVec.extractLsb'_append_eq_right]
  · rintro ⟨rfl, rfl⟩
    rfl

/-- Two words are equal when their RSV, WL and low bits are. -/
theorem rsv_wl_low_eq_iff {a a' b b' : BitVec 2} {c c' : BitVec 4} :
    a ++ b ++ c = a' ++ b' ++ c' ↔ a = a' ∧ b = b' ∧ c = c' := by
  rw [append_eq_append_iff, append_eq_append_iff, and_assoc]

/-- A mask of a configuration word, field by field. -/
theorem and_mask (cw : BitVec 8) (a b : BitVec 2) (c : BitVec 4) :
    cw &&& (a ++ b ++ c) = (cwRsv cw &&& a) ++ ((cwWl cw).toBits &&& b) ++ (cw.extractLsb' 0 4 &&& c) := by
  rw [← BitVec.and_append, ← BitVec.and_append, rsv_append_wl_append_low]

/-- R91's mask 0xCF keeps RSV and the row's low bits and leaves WL out. -/
theorem and_rowMask_eq_iff (cw : BitVec 8) (row : BitVec 4) :
    cw &&& 0xCF#8 = 0b0000#4 ++ row ↔ 0b00#2 ++ (cwWl cw).toBits ++ row = cw := by
  have hmask : cw &&& 0xCF#8 = cwRsv cw ++ 0b00#2 ++ cw.extractLsb' 0 4 := by
    have h := and_mask cw (.allOnes 2) 0b00#2 (.allOnes 4)
    rwa [BitVec.and_allOnes, BitVec.and_zero, BitVec.and_allOnes] at h
  calc cw &&& 0xCF#8 = 0b0000#4 ++ row
    _ ↔ cwRsv cw ++ 0b00#2 ++ cw.extractLsb' 0 4 = 0b00#2 ++ 0b00#2 ++ row := by rw [hmask]; rfl
    _ ↔ 0b00#2 ++ (cwWl cw).toBits ++ row = cwRsv cw ++ (cwWl cw).toBits ++ cw.extractLsb' 0 4 := by
      simp only [rsv_wl_low_eq_iff, true_and, eq_comm]
    _ ↔ 0b00#2 ++ (cwWl cw).toBits ++ row = cw := by rw [rsv_append_wl_append_low]

/-- The mask 0xC0 keeps RSV alone (R86). -/
theorem cwRsv_eq_zero_iff {cw : BitVec 8} : cwRsv cw = 0b00#2 ↔ cw &&& 0xC0#8 = 0#8 := by
  have hmask : cw &&& 0xC0#8 = cwRsv cw ++ 0b00#2 ++ 0b0000#4 := by
    have h := and_mask cw (.allOnes 2) 0b00#2 0b0000#4
    rwa [BitVec.and_allOnes, BitVec.and_zero, BitVec.and_zero] at h
  calc cwRsv cw = 0b00#2
    _ ↔ cwRsv cw ++ 0b00#2 ++ 0b0000#4 = 0b00#2 ++ 0b00#2 ++ 0b0000#4 := by simp only [rsv_wl_low_eq_iff, and_true]
    _ ↔ cw &&& 0xC0#8 = 0#8 := by rw [hmask]; rfl

/-! ### The encoder and the decoder (R87, R91) -/

/-- In a row of R91, S and TS are both the signedness of the instruction (R87). -/
theorem Instr.rowBits_eq (i : Instr) :
    i.rowBits = BitVec.ofBool i.sign.toBit ++ BitVec.ofBool i.sign.toBit ++ BitVec.ofBool i.endian.toBit ++
      BitVec.ofBool i.dir.toBit := by
  cases i <;> simp [Instr.rowBits, Instr.sign, Instr.endian, Instr.dir, Sign.toBit, Endian.toBit, Dir.toBit]

/-- The four low fields of a spelled word, taken together as a row's bits. -/
theorem cwOfFields_eq (wl : WordLen) (ts s : Sign) (e : Endian) (d : Dir) :
    cwOfFields wl ts s e d = 0b00#2 ++ wl.toBits ++
      (BitVec.ofBool ts.toBit ++ BitVec.ofBool s.toBit ++ BitVec.ofBool e.toBit ++ BitVec.ofBool d.toBit) := by
  cases wl <;> cases ts <;> cases s <;> cases e <;> cases d <;> decide

/-- The encoder spells the fields of the instruction. -/
theorem encode_eq_cwOfFields (i : Instr) :
    encode i = (cwOfFields i.wl i.sign i.sign i.endian i.dir, i.n) := by
  rw [cwOfFields_eq, ← Instr.rowBits_eq]
  rfl

theorem Instr.ofFields_self (i : Instr) : Instr.ofFields i.dir i.endian i.sign i.wl i.burst = i := by
  cases i <;> rfl

theorem Instr.sign_of_b2w {i : Instr} (h : i.dir = .b2w) : i.sign = .unsigned := by
  cases i with
  | b2wLe | b2wBe => rfl
  | w2bULe | w2bUBe | w2bSLe | w2bSBe => cases h

theorem legal_encode (i : Instr) : legal (encode i).1 = true := by
  rw [encode_eq_cwOfFields, legal_cwOfFields_iff]
  cases hd : i.dir with
  | b2w => simp [Instr.sign_of_b2w hd]
  | w2b => simp

/-- The signedness contract of a legal word: TS = S, and B2W has S = 0 (R83, R84). -/
theorem signs_of_legal {cw : BitVec 8} (h : legal cw = true) :
    cwTs cw = cwS cw ∧ (cwDir cw = .b2w → cwS cw = .unsigned) := by
  obtain ⟨hrsv, -⟩ := legal_iff_no_refusal.mp h
  rw [← cwOfFields_fields hrsv, legal_cwOfFields_iff] at h
  obtain ⟨-, hs, hts⟩ | ⟨hd, hs⟩ := h
  · exact ⟨hts.trans hs.symm, fun _ => hs⟩
  · exact ⟨hs.symm, by simp [hd]⟩

/-- Encoding the row that a legal word selects gives back the word, and N. -/
theorem encode_ofFields {cw : BitVec 8} (h : legal cw = true) (b : BurstLen) :
    encode (Instr.ofFields (cwDir cw) (cwE cw) (cwS cw) (cwWl cw) b) = (cw, b.n) := by
  obtain ⟨hrsv, -⟩ := legal_iff_no_refusal.mp h
  obtain ⟨hts, hb2w⟩ := signs_of_legal h
  rw [encode_eq_cwOfFields]
  simp only [Instr.ofFields_wl, Instr.ofFields_endian, Instr.ofFields_dir, Instr.ofFields_n,
    Instr.ofFields_sign _ _ _ _ _ hb2w]
  conv_rhs => rw [← cwOfFields_fields hrsv, hts]

theorem decode_encode (i : Instr) : decode i.nMax (encode i).1 i.n = .ok i := by
  refine decode_eq_ok_iff.mpr ⟨legal_encode i, i.burst.bound, ?_⟩
  simp only [encode_eq_cwOfFields, cwDir_cwOfFields, cwE_cwOfFields, cwS_cwOfFields, cwWl_cwOfFields]
  exact i.ofFields_self.symm

/-- A legal word is spelled by the fields of the row it selects, and every row spells a legal word. -/
theorem decode_eq_ok_iff_encode {nMax n : Nat} {cw : BitVec 8} {i : Instr} :
    decode nMax cw n = .ok i ↔ i.nMax = nMax ∧ encode i = (cw, n) := by
  constructor
  · intro h
    obtain ⟨hlegal, hn, rfl⟩ := decode_eq_ok_iff.mp h
    exact ⟨Instr.ofFields_nMax .., encode_ofFields hlegal _⟩
  · rintro ⟨rfl, h⟩
    obtain ⟨rfl, rfl⟩ := Prod.mk.inj h
    exact decode_encode i

/-- Settles O1: the decoder and the encoder are inverse to each other under every bound. -/
theorem decodeIffEncode : Obligations.DecodeIffEncode :=
  fun _ _ _ _ => decode_eq_ok_iff_encode

/-- Settles O4: each word is the encoding of its instruction. -/
theorem writtenOutWordsDecode : Obligations.WrittenOutWordsDecode := by
  refine ⟨?_, ?_, ?_, ?_, ?_, ?_⟩ <;> exact decode_eq_ok_iff_encode.mpr ⟨rfl, by decide⟩

/-! ### Refusals in R89's order -/

/-- The first reason of R89 that applies is this one; the two reasons of a type that has no configuration word are never
the decoder's. -/
def RefusedFor (nMax : Nat) (cw : BitVec 8) (n : Nat) : ConfigRefusal → Prop
  | .reservedBits => cwRsv cw ≠ 0b00#2
  | .b2wSignedType => cwRsv cw = 0b00#2 ∧ cwDir cw = .b2w ∧ cwTs cw = .signed
  | .b2wSignednessParam => cwRsv cw = 0b00#2 ∧ cwDir cw = .b2w ∧ cwTs cw = .unsigned ∧ cwS cw = .signed
  | .w2bTypeMismatch => cwRsv cw = 0b00#2 ∧ cwDir cw = .w2b ∧ cwS cw ≠ cwTs cw
  | .burstTooLong => legal cw = true ∧ nMax < n
  | .nonIntegerType | .widthNotAdmitted => False

/-- R89: the decoder refuses with the first reason that applies. -/
theorem decode_eq_error_iff {nMax n : Nat} {cw : BitVec 8} {r : ConfigRefusal} :
    decode nMax cw n = .error r ↔ RefusedFor nMax cw n r := by
  constructor
  · intro h
    unfold decode at h
    split_ifs at h with hrsv hts hs hmismatch hn <;> cases h
    · exact hrsv
    · exact ⟨not_not.mp hrsv, hts⟩
    · obtain ⟨hd, hsigned⟩ := hs
      exact ⟨not_not.mp hrsv, hd, Sign.ne_signed_iff.mp fun hts' => hts ⟨hd, hts'⟩, hsigned⟩
    · exact ⟨not_not.mp hrsv, hmismatch⟩
    · exact ⟨legal_iff_no_refusal.mpr ⟨not_not.mp hrsv, hts, hs, hmismatch⟩, not_le.mp hn⟩
  · intro h
    cases r with
    | reservedBits => exact if_pos h
    | b2wSignedType =>
      obtain ⟨hrsv, hd, hts⟩ := h
      simp [decode, hrsv, hd, hts]
    | b2wSignednessParam =>
      obtain ⟨hrsv, hd, hts, hs⟩ := h
      simp [decode, hrsv, hd, hts, hs]
    | w2bTypeMismatch =>
      obtain ⟨hrsv, hd, hne⟩ := h
      simp [decode, hrsv, hd, hne]
    | burstTooLong =>
      obtain ⟨hlegal, hn⟩ := h
      obtain ⟨hrsv, hts, hs, hmismatch⟩ := legal_iff_no_refusal.mp hlegal
      rw [decode, if_neg (not_not.mpr hrsv), if_neg hts, if_neg hs, if_neg hmismatch, dif_neg (not_le.mpr hn)]
    | nonIntegerType => cases h
    | widthNotAdmitted => cases h

/-- The machine of a refused configuration steps nowhere (R201, log entry 16). -/
theorem step_instantiate_refused {s : Machine.State} {nMax n : Nat} {cw : BitVec 8} {r : ConfigRefusal}
    (h : decode nMax cw n = .error r) : Machine.step (s.instantiate nMax cw n) = .refused (.config r) := by
  simp [Machine.step, Machine.State.instantiate, h]

/-- Settles O2: the fields that name each reason are the bits of the word that R89 names. -/
theorem illegalConfigurationsRefusedInOrder : Obligations.IllegalConfigurationsRefusedInOrder := by
  refine ⟨fun nMax cw n => ⟨?_, ?_, ?_, ?_, decode_eq_error_iff, ?_⟩, fun _ _ _ _ _ => step_instantiate_refused,
    rfl, rfl, rfl, rfl⟩
  · rw [decode_eq_error_iff, RefusedFor, Ne, cwRsv_eq_zero_iff]
  · rw [decode_eq_error_iff, RefusedFor, cwRsv_eq_zero_iff, cwDir, cwTs, Dir.ofBit_eq_iff, Sign.ofBit_eq_iff]
    rfl
  · rw [decode_eq_error_iff, RefusedFor, cwRsv_eq_zero_iff, cwDir, cwTs, cwS, Dir.ofBit_eq_iff, Sign.ofBit_eq_iff,
      Sign.ofBit_eq_iff]
    rfl
  · rw [decode_eq_error_iff, RefusedFor, cwRsv_eq_zero_iff, cwDir, cwTs, cwS, Dir.ofBit_eq_iff, Ne, Sign.ofBit_inj]
    rfl
  · simp only [decode_eq_ok_iff]
    constructor
    · rintro ⟨-, hlegal, hn, -⟩
      exact ⟨hlegal, hn⟩
    · rintro ⟨hlegal, hn⟩
      exact ⟨_, hlegal, hn, rfl⟩

/-! ### The rows of the opcode table (R91) -/

/-- The match column of R91. -/
def Instr.rowMatch : Instr → BitVec 8
  | .b2wLe _ _ => 0x00#8
  | .b2wBe _ _ => 0x02#8
  | .w2bULe _ _ => 0x01#8
  | .w2bUBe _ _ => 0x03#8
  | .w2bSLe _ _ => 0x0D#8
  | .w2bSBe _ _ => 0x0F#8

/-- The encoder's row bits are the match column's. -/
theorem Instr.rowMatch_eq (i : Instr) : i.rowMatch = 0b0000#4 ++ i.rowBits := by
  cases i <;> simp [Instr.rowMatch, Instr.rowBits]

/-- Under a word's own WL and N, a row is decoded exactly when its match is there (R91). -/
theorem decode_eq_ok_iff_row {nMax n : Nat} {cw : BitVec 8} {i : Instr} {h : n ≤ nMax} (hwl : i.wl = cwWl cw)
    (hb : i.burst = ⟨nMax, n, h⟩) : decode nMax cw n = .ok i ↔ cw &&& 0xCF#8 = i.rowMatch := by
  rw [Instr.rowMatch_eq, decode_eq_ok_iff_encode, and_rowMask_eq_iff, encode, hwl]
  simp [Instr.nMax, Instr.n, hb]

/-- The matches of R91 are the rows that an instruction of a given width and burst length can have. -/
theorem mem_matches_iff (wl : WordLen) (b : BurstLen) (m : BitVec 8) :
    m ∈ [0x00#8, 0x02#8, 0x01#8, 0x03#8, 0x0D#8, 0x0F#8] ↔
      ∃ i : Instr, i.wl = wl ∧ i.burst = b ∧ m = i.rowMatch := by
  constructor
  · simp only [List.mem_cons, List.not_mem_nil, or_false]
    rintro (rfl | rfl | rfl | rfl | rfl | rfl)
    exacts [⟨.b2wLe wl b, rfl, rfl, rfl⟩, ⟨.b2wBe wl b, rfl, rfl, rfl⟩, ⟨.w2bULe wl b, rfl, rfl, rfl⟩,
      ⟨.w2bUBe wl b, rfl, rfl, rfl⟩, ⟨.w2bSLe wl b, rfl, rfl, rfl⟩, ⟨.w2bSBe wl b, rfl, rfl, rfl⟩]
  · rintro ⟨i, -, -, rfl⟩
    cases i <;> simp [Instr.rowMatch]

/-- With N within the bound, the decoder answers exactly on the rows (R91). -/
theorem exists_ok_iff_mem_matches {nMax n : Nat} {cw : BitVec 8} (h : n ≤ nMax) :
    (∃ i, decode nMax cw n = .ok i) ↔ cw &&& 0xCF#8 ∈ [0x00#8, 0x02#8, 0x01#8, 0x03#8, 0x0D#8, 0x0F#8] := by
  rw [mem_matches_iff (cwWl cw) ⟨nMax, n, h⟩]
  constructor
  · rintro ⟨i, hi⟩
    obtain ⟨-, hn, rfl⟩ := decode_eq_ok_iff.mp hi
    have hrow := (decode_eq_ok_iff_row (h := hn) (Instr.ofFields_wl ..) (Instr.ofFields_burst ..)).mp hi
    exact ⟨_, Instr.ofFields_wl .., Instr.ofFields_burst .., hrow⟩
  · rintro ⟨i, hwl, hb, hrow⟩
    exact ⟨i, (decode_eq_ok_iff_row hwl hb).mpr hrow⟩

theorem exists_eq_error_iff {α β : Type} {x : Except α β} : (∃ r, x = .error r) ↔ ¬∃ a, x = .ok a := by
  cases x <;> simp

/-- Settles O3: the word of a row is its match with WL put in, and the mask takes WL out again. -/
theorem decoderFollowsOpcodeRows : Obligations.DecoderFollowsOpcodeRows := by
  intro nMax cw n h
  have hrow (i : Instr) (hwl : i.wl = cwWl cw) (hb : i.burst = ⟨nMax, n, h⟩) :=
    (decode_eq_ok_iff_row hwl hb).symm
  exact ⟨hrow (.b2wLe ..) rfl rfl, hrow (.b2wBe ..) rfl rfl, hrow (.w2bULe ..) rfl rfl, hrow (.w2bUBe ..) rfl rfl,
    hrow (.w2bSLe ..) rfl rfl, hrow (.w2bSBe ..) rfl rfl,
    exists_eq_error_iff.trans (not_congr (exists_ok_iff_mem_matches h))⟩

end Sys2Proof

namespace Sys2Proof.Machine

/-! ### The parts of a text (R93) -/

theorem splitAtChar_of_not_mem {c : Char} {t : List Char} (h : c ∉ t) : splitAtChar c t = [t] := by
  induction t with
  | nil => rfl
  | cons x xs ih =>
    obtain ⟨hx, hxs⟩ := List.ne_and_not_mem_of_not_mem_cons h
    rw [splitAtChar, if_neg (Ne.symm hx), ih hxs]

theorem splitAtChar_append {c : Char} {t : List Char} (h : c ∉ t) (rest : List Char) :
    splitAtChar c (t ++ c :: rest) = t :: splitAtChar c rest := by
  induction t with
  | nil => simp [splitAtChar]
  | cons x xs ih =>
    obtain ⟨hx, hxs⟩ := List.ne_and_not_mem_of_not_mem_cons h
    rw [List.cons_append, splitAtChar, if_neg (Ne.symm hx), ih hxs]

/-- Splitting a text at its separator gives back the parts that were joined with it. -/
theorem splitAtChar_intercalate {c : Char} {p : List Char} {ps : List (List Char)} (h : ∀ q ∈ p :: ps, c ∉ q) :
    splitAtChar c ([c].intercalate (p :: ps)) = p :: ps := by
  induction ps generalizing p with
  | nil => simpa using splitAtChar_of_not_mem (h p (by simp))
  | cons q qs ih =>
    obtain ⟨hp, hqs⟩ := List.forall_mem_cons.mp h
    rw [List.intercalate_cons_cons, List.append_assoc, List.singleton_append, splitAtChar_append hp, ih hqs]

theorem not_mem_intercalate {c : Char} {sep : List Char} (hsep : c ∉ sep) {ps : List (List Char)}
    (h : ∀ q ∈ ps, c ∉ q) : c ∉ sep.intercalate ps := by
  induction ps with
  | nil => simp
  | cons p ps ih =>
    obtain ⟨hp, hps⟩ := List.forall_mem_cons.mp h
    cases ps with
    | nil => simpa using hp
    | cons q qs =>
      rw [List.intercalate_cons_cons, List.mem_append, List.mem_append, not_or, not_or]
      exact ⟨⟨hp, hsep⟩, ih hps⟩

/-! ### Decimal numbers (R93) -/

theorem digitOf_of_isDigit {c : Char} (h : c.isDigit = true) : digitOf c = some (c.toNat - '0'.toNat) :=
  if_pos (Char.isDigit_iff_toNat.mp h)

/-- On digits alone the reader never refuses, and is the library's. -/
theorem digitsFrom_of_isDigit {cs : List Char} (h : ∀ c ∈ cs, c.isDigit = true) (acc : Nat) :
    digitsFrom acc cs = some (Nat.ofDigitChars 10 cs acc) := by
  induction cs generalizing acc with
  | nil => simp [digitsFrom]
  | cons c cs ih =>
    obtain ⟨hc, hcs⟩ := List.forall_mem_cons.mp h
    simp only [digitsFrom, digitOf_of_isDigit hc, ih hcs, Nat.ofDigitChars_cons]

theorem isDigit_of_mem_toDigits_ten {n : Nat} : ∀ c ∈ Nat.toDigits 10 n, c.isDigit = true :=
  fun _ => Nat.isDigit_of_mem_toDigits (by decide) (by decide)

/-- A number is read back from its decimal text. -/
theorem parseNat_toDigits (n : Nat) : parseNat (Nat.toDigits 10 n) = some n := by
  obtain ⟨c, cs, hcs⟩ := List.exists_cons_of_ne_nil (Nat.toDigits_ne_nil (n := n) (b := 10))
  rw [hcs, parseNat, ← hcs, digitsFrom_of_isDigit isDigit_of_mem_toDigits_ten, Nat.ofDigitChars_ten_toDigits]

theorem space_not_mem_toDigits (n : Nat) : ' ' ∉ Nat.toDigits 10 n := by
  intro h
  exact absurd (isDigit_of_mem_toDigits_ten _ h) (by decide)

/-! ### Heads and their numbers (R93) -/

/-- A part of a head: it holds none of the two separators of a text. -/
def IsPart (t : List Char) : Prop := '.' ∉ t ∧ ' ' ∉ t

@[simp] theorem isPart_append_iff {t u : List Char} : IsPart (t ++ u) ↔ IsPart t ∧ IsPart u := by
  simp only [IsPart, List.mem_append, not_or]
  tauto

@[simp] theorem isPart_dirText (d : Dir) : IsPart (dirText d) := by
  cases d <;> simp [IsPart, dirText]

@[simp] theorem isPart_endianText (e : Endian) : IsPart (endianText e) := by
  cases e <;> simp [IsPart, endianText]

@[simp] theorem isPart_signText (s : Sign) : IsPart (signText s) := by
  cases s <;> simp [IsPart, signText]

@[simp] theorem isPart_widthText (wl : WordLen) : IsPart (widthText wl) := by
  cases wl <;> simp [IsPart, widthText]

section
variable {p : List Char} {ps : List (List Char)}

theorem parseRequest_head (h : ∀ q ∈ p :: ps, IsPart q) :
    parseRequest (['.'].intercalate (p :: ps)) = parseHead (p :: ps) none := by
  have hdot := splitAtChar_intercalate fun q hq => (h q hq).1
  have hspace := not_mem_intercalate (c := ' ') (sep := ['.']) (by decide) fun q hq => (h q hq).2
  rw [parseRequest, splitAtChar_of_not_mem hspace]
  simp only [hdot]

theorem parseRequest_head_number (h : ∀ q ∈ p :: ps, IsPart q) (n : Nat) :
    parseRequest (['.'].intercalate (p :: ps) ++ ' ' :: Nat.toDigits 10 n) = parseHead (p :: ps) (some n) := by
  have hdot := splitAtChar_intercalate fun q hq => (h q hq).1
  have hspace := not_mem_intercalate (c := ' ') (sep := ['.']) (by decide) fun q hq => (h q hq).2
  rw [parseRequest, splitAtChar_append hspace, splitAtChar_of_not_mem (space_not_mem_toDigits n)]
  simp only [hdot, parseNat_toDigits]

end

/-! ### What the parts of a head name (R93, R94) -/

section
variable (d : Dir) (e : Endian) (s : Sign) (wl : WordLen)

@[simp] theorem parseEndian_endianText : parseEndian (endianText e) = some e := by
  cases e <;> rfl

@[simp] theorem parseWidth_widthText : parseWidth (widthText wl) = some wl.bytes := by
  cases wl <;> rfl

@[simp] theorem parseSignWidth_signText : parseSignWidth (signText s ++ widthText wl) = some (s, wl.bytes) := by
  cases s <;> simp [signText, parseSignWidth]

/-- A width alone is no type. -/
@[simp] theorem parseSignWidth_widthText : parseSignWidth (widthText wl) = none := by
  cases wl <;> rfl

theorem parseHead_full (n : Option Nat) :
    parseHead [dirText d, endianText e, signText s ++ widthText wl] n =
      some (textRequest d e s wl.bytes (n.getD Config.defaultN)) := by
  cases d <;> simp [parseHead, parseFull, dirText]

theorem parseHead_b2w_type :
    parseHead [dirText .b2w, signText s ++ widthText wl] none =
      some (textRequest .b2w .little s wl.bytes Config.defaultN) := by
  simp [parseHead, parsePseudo, dirText]

theorem parseHead_w2b_unsigned :
    parseHead [dirText .w2b, signText .unsigned ++ widthText wl] none =
      some (textRequest .w2b .little .unsigned wl.bytes Config.defaultN) := by
  simp [parseHead, parsePseudo, dirText]

theorem parseHead_w2b_width :
    parseHead [dirText .w2b, widthText wl] none =
      some (textRequest .w2b .little .unsigned wl.bytes Config.defaultN) := by
  simp [parseHead, parsePseudo, dirText]

theorem parseHead_w2b_endian_width :
    parseHead [dirText .w2b, endianText e, widthText wl] none =
      some (textRequest .w2b e .unsigned wl.bytes Config.defaultN) := by
  simp [parseHead, parsePseudo, parseFull, dirText]

end

/-! ### The configuration of a text -/

section
variable {nMax n : Nat} {d : Dir} {e : Endian} {s : Sign} {wl : WordLen} {t : List Char}

/-- For a block without a signedness parameter, the unsigned one is requested. -/
theorem textRequest_sign (hs : d = .b2w → s = .unsigned) : (textRequest d e s wl.bytes n).sign = s := by
  cases d with
  | b2w => exact (hs rfl).symm
  | w2b => rfl

/-- S = TS in a text's request (R93), so it is legal where B2W is unsigned, and selects the row of its parameters. -/
theorem configuration_textRequest (hs : d = .b2w → s = .unsigned) (hn : n ≤ nMax) :
    (textRequest d e s wl.bytes n).configuration nMax = .ok (Instr.ofFields d e s wl ⟨nMax, n, hn⟩) := by
  have htype : (textRequest d e s wl.bytes n).type = .integer s wl.bytes := rfl
  have hlegal : legal (cwOfFields wl s s e d) = true := by
    rw [legal_cwOfFields_iff]
    cases d with
    | b2w => exact .inl ⟨rfl, hs rfl, hs rfl⟩
    | w2b => exact .inr ⟨rfl, rfl⟩
  rw [Request.configuration_eq_ok_iff htype, Request.wf_iff_of_integer htype, textRequest_sign hs]
  exact ⟨⟨hlegal, hn⟩, hn, rfl⟩

/-- A text whose request keeps the signedness contract names the row of its parameters. -/
theorem parseConfig_of_request (ht : parseRequest t = some (textRequest d e s wl.bytes n))
    (hs : d = .b2w → s = .unsigned) (hn : n ≤ nMax) :
    parseConfig nMax t = .ok (Instr.ofFields d e s wl ⟨nMax, n, hn⟩) := by
  simp only [parseConfig, ht, configuration_textRequest hs hn]

/-- A head without a number names the row of its parameters with N = 1 (R94). -/
theorem parseConfig_of_head {p : List Char} {ps : List (List Char)} (hn : 1 ≤ nMax)
    (ht : t = ['.'].intercalate (p :: ps)) (hparts : ∀ q ∈ p :: ps, IsPart q)
    (hhead : parseHead (p :: ps) none = some (textRequest d e s wl.bytes Config.defaultN))
    (hs : d = .b2w → s = .unsigned) : parseConfig nMax t = .ok (Instr.ofFields d e s wl ⟨nMax, 1, hn⟩) := by
  refine parseConfig_of_request ?_ hs hn
  rw [ht, parseRequest_head hparts, hhead]
  rfl

end

/-- The text of an instruction is a full head and, after one space, its number. -/
theorem textOf_eq (i : Instr) :
    textOf i = ['.'].intercalate [dirText i.dir, endianText i.endian, signText i.sign ++ widthText i.wl] ++
      ' ' :: Nat.toDigits 10 i.n := by
  simp [textOf]

/-- Under any bound that admits its N, the text of an instruction names the row of its parameters (R93). -/
theorem parseConfig_textOf {nMax : Nat} {i : Instr} (hn : i.n ≤ nMax) :
    parseConfig nMax (textOf i) = .ok (Instr.ofFields i.dir i.endian i.sign i.wl ⟨nMax, i.n, hn⟩) := by
  refine parseConfig_of_request ?_ Instr.sign_of_b2w hn
  rw [textOf_eq, parseRequest_head_number, parseHead_full, Option.getD_some]
  simp

/-- Settles O6: an instruction's parameters are all that its encoding depends on, so the row they name has the same one,
and under the instruction's own bound it is the instruction. -/
theorem textNamesItsConfiguration : Obligations.TextNamesItsConfiguration := by
  intro nMax i hwf
  have hn : i.n ≤ nMax := of_decide_eq_true hwf
  refine ⟨⟨_, parseConfig_textOf hn, ?_, Instr.ofFields_nMax ..⟩, ?_⟩
  · simp only [encode_eq_cwOfFields, Instr.ofFields_wl, Instr.ofFields_endian, Instr.ofFields_dir, Instr.ofFields_n,
      Instr.ofFields_sign _ _ _ _ _ Instr.sign_of_b2w]
  · exact (parseConfig_textOf i.burst.bound).trans (congrArg _ i.ofFields_self)

/-- Settles O7: each form is a head without a number, whose absent parts stand for the source's defaults. -/
theorem pseudoFormsExpand : Obligations.PseudoFormsExpand := by
  intro nMax wl e s h
  have hs (s : Sign) (hd : Dir.w2b = .b2w) : s = .unsigned := nomatch hd
  exact ⟨parseConfig_of_head h (by simp) (by simp) (parseHead_b2w_type .unsigned wl) fun _ => rfl,
    parseConfig_of_head h (by simp) (by simp) (parseHead_full .b2w e .unsigned wl none) fun _ => rfl,
    parseConfig_of_head h (by simp) (by simp) (parseHead_w2b_unsigned wl) (hs _),
    parseConfig_of_head h (by simp) (by simp) (parseHead_w2b_width wl) (hs _),
    parseConfig_of_head h (by simp) (by simp) (parseHead_w2b_endian_width e wl) (hs _),
    parseConfig_of_head h (by simp) (by simp) (parseHead_full .w2b e s wl none) (hs _)⟩

end Sys2Proof.Machine
end

section
/-! PROOFS for the family of spec/40_invocation.md. First the round trip of the words, then what one edge of an invocation
does: when it answers, which handshake it makes and whether it is the last one; from that the invocations of a run, and
last the whole invocations of both blocks with ready partners. -/

namespace Sys2Proof.Machine

/-! ### Words of a width, their lanes and the round trip (R54, R179) -/

/-- Every lane has a serial index (R54). -/
theorem exists_lane_eq (e : Endian) {k m : Nat} (hm : m < k) : ∃ s < k, lane e k s = m := by
  cases e with
  | little => exact ⟨m, hm, rfl⟩
  | big => exact ⟨k - 1 - m, by omega, by simp only [lane]; omega⟩

/-- A word is its lanes (R54). -/
theorem eq_of_laneByte_lane (e : Endian) {k : Nat} {v w : BitVec (8 * k)}
    (h : ∀ s < k, laneByte v (lane e k s) = laneByte w (lane e k s)) : v = w := by
  apply BitVec.eq_of_getLsbD_eq
  intro x hx
  obtain ⟨s, hs, hlane⟩ := exists_lane_eq e (show x / 8 < k by omega)
  have hbyte := congrArg (·.getLsbD (x % 8)) (h s hs)
  simpa [hlane, laneByte, Nat.mod_lt, Nat.div_add_mod] using hbyte

/-- Assembling the bytes of a word gives the word back (R179). -/
theorem b2wWord_w2bBytes {e : Endian} {wl : WordLen} {v : Item} (h : fits wl v = true) :
    b2wWord e wl (w2bBytes e wl v) = v := by
  have hword : ofItem wl (b2wWord e wl (w2bBytes e wl v)) = ofItem wl v := by
    refine eq_of_laneByte_lane (k := wl.bytes) e fun s hs => Option.some.inj ?_
    exact (laneByte_b2wWord e wl (w2bBytes_length e wl v) hs).symm.trans (w2bBytes_getElem? e wl v hs)
  rw [← toItem_ofItem (fits_b2wWord e wl _), hword, toItem_ofItem h]

/-- The words of the byte stream of fitting words are those words (R179). -/
theorem wordsOf_bytesOf {e : Endian} {wl : WordLen} {ws : List Item} (h : ∀ v ∈ ws, fits wl v = true) :
    wordsOf e wl ws.length (bytesOf e wl ws) = ws := by
  induction ws with
  | nil => rfl
  | cons v ws ih =>
    obtain ⟨hv, hws⟩ := List.forall_mem_cons.mp h
    have hlen := w2bBytes_length e wl v
    rw [List.length_cons, wordsOf_succ, bytesOf_cons, List.take_left' hlen, List.drop_left' hlen,
      b2wWord_w2bBytes hv, ih hws]

/-- A burst of W2B on exactly its words and then one of B2W on exactly the bytes gives the words back. -/
theorem burst_roundTrip {e : Endian} {wl : WordLen} {ws : List Item} (h : ∀ v ∈ ws, fits wl v = true) :
    ∃ bs, w2bBurst e wl ws.length ws = some (bs, []) ∧ b2wBurst e wl ws.length bs = some (ws, []) := by
  refine ⟨bytesOf e wl ws, by simp [w2bBurst_eq], ?_⟩
  rw [b2wBurst_eq, if_pos (bytesOf_length e wl ws).ge, wordsOf_bytesOf h, ← bytesOf_length e, List.drop_length]

/-- A signed word in range is read back from its pattern (R173, R146). -/
theorem signedOf_patternW {wl : WordLen} {v : Int} (hlow : -(2 ^ (wl.bits - 1) : Int) ≤ v)
    (hhigh : v < (2 ^ (wl.bits - 1) : Int)) : signedOf wl (patternW wl v) = v := by
  have hpos : 0 < wl.bits := Nat.mul_pos (by decide) (WordLen_bytes_pos wl)
  rw [signedOf, patternW, ofItem_toItem, BitVec.toInt_ofInt_eq_self hpos hlow hhigh]

/-- Settles O15: assembling the bytes of a word in their order gives the word, and a pattern names its signed word. -/
theorem roundTripGivesWordsBack : Obligations.RoundTripGivesWordsBack := by
  refine ⟨fun e wl ws => burst_roundTrip, fun e wl vs hrange => ?_⟩
  have hfits : ∀ p ∈ vs.map (patternW wl), fits wl p = true := by
    simp [patternW]
  obtain ⟨bs, hw2b, hb2w⟩ := burst_roundTrip (e := e) hfits
  rw [List.length_map] at hw2b hb2w
  refine ⟨bs, hw2b, hb2w, ?_⟩
  rw [List.map_map]
  refine (List.map_congr_left fun v hv => ?_).trans (List.map_id vs)
  obtain ⟨hlow, hhigh⟩ := hrange v hv
  exact signedOf_patternW hlow hhigh

/-! ### The channel primitives (R111, R112) -/

/-- A channel is without room exactly when it has reached its capacity (R70). -/
theorem Chan.room_eq_false_iff {α : Type} {c : Chan α} :
    c.room = false ↔ ∃ k, c.cap = some k ∧ k ≤ c.items.length := by
  unfold Chan.room
  cases c.cap <;> simp

theorem Chan.read_eq_none {α : Type} {c : Chan α} : c.read = none ↔ c.items = [] := by
  unfold Chan.read
  cases c.items <;> simp

theorem Chan.write_eq_none {α : Type} {c : Chan α} {v : α} : c.write v = none ↔ c.room = false := by
  unfold Chan.write
  cases c.room <;> simp

/-- A channel that has not reached its capacity has room (R70). -/
theorem Chan.room_of_lt {α : Type} {c : Chan α} (h : ∀ k, c.cap = some k → c.items.length < k) : c.room = true := by
  rw [← Bool.not_eq_false, Chan.room_eq_false_iff]
  rintro ⟨k, hcap, hfull⟩
  exact absurd (h k hcap) (Nat.not_lt.mpr hfull)

/-- Settles O21: a read answers the head where there is one, and a write appends where there is room. -/
theorem channelPrimitivesBlock : Obligations.ChannelPrimitivesBlock := by
  refine fun α c v => ⟨Chan.read_eq_none, fun rest hitems => ?_, ?_, fun hroom => ?_⟩
  · exact Chan.read_eq_some.mpr ⟨hitems, by simp [Chan.pop, hitems]⟩
  · exact Chan.write_eq_none.trans Chan.room_eq_false_iff
  · exact Chan.write_eq_some.mpr ⟨Chan.room_of_lt hroom, rfl⟩

/-! ### The rows of a transfer, one by one (R148, R178, R118) -/

section
variable {s : State} {wl : WordLen} {n : Nat}

/-- The end of a word that is not the last one of its burst. -/
theorem endWord_of_lt (hi : s.i + 1 < n) (jNext jLast : Nat) (acc accLast : Item) :
    s.endWord n jNext jLast acc accLast =
      .next { s with i := s.i + 1, j := jNext, acc := acc, phase := .rd, doneR := false } :=
  if_pos hi

/-- The end of the last word of a burst. -/
theorem endWord_of_eq (hi : s.i + 1 = n) (jNext jLast : Nat) (acc accLast : Item) :
    s.endWord n jNext jLast acc accLast =
      .next { s with j := jLast, acc := accLast, phase := .idle, doneR := true } :=
  (if_neg hi.not_lt).trans (if_pos hi)

/-- B2W reads a byte that is not the last one of its word. -/
theorem b2wRow_read_of_lt (e : Endian) (v : Item) (hj : s.j + 1 < wl.bytes) :
    b2wRow e wl n (.read v) s =
      .next { s with acc := toItem wl (stepB2W e (s.accW wl) (toByte v)), j := s.j + 1, doneR := false } :=
  if_pos hj

/-- B2W reads the last byte of a word. -/
theorem b2wRow_read_of_eq (e : Endian) (v : Item) (hj : s.j + 1 = wl.bytes) :
    b2wRow e wl n (.read v) s =
      .next { s with acc := toItem wl (stepB2W e (s.accW wl) (toByte v)), j := 0, phase := .wr, doneR := false } :=
  (if_neg hj.not_lt).trans (if_pos hj)

/-- W2B writes a byte that is not the last one of its word. -/
theorem w2bRow_write_of_lt (e : Endian) (v : Item) (hj : s.j + 1 < wl.bytes) :
    w2bRow e wl n (.write v) s =
      .next { s with acc := toItem wl (shiftW2B e (s.accW wl)), j := s.j + 1, doneR := false } :=
  if_pos hj

/-- W2B writes the last byte of a word, which ends the word. -/
theorem w2bRow_write_of_eq (e : Endian) (v : Item) (hj : s.j + 1 = wl.bytes) :
    w2bRow e wl n (.write v) s =
      s.endWord n 0 s.j (toItem wl (shiftW2B e (s.accW wl))) (toItem wl (shiftW2B e (s.accW wl))) :=
  (if_neg hj.not_lt).trans (if_pos hj)

end

/-! ### When an edge answers (R200) -/

/-- The end of a word answers where i is an index of the burst. -/
theorem endWord_answers {s : State} {n : Nat} (hi : s.i < n) (jNext jLast : Nat) (acc accLast : Item) :
    ∃ t, s.endWord n jNext jLast acc accLast = .next t := by
  obtain hlt | heq := Nat.lt_or_eq_of_le hi
  · exact ⟨_, endWord_of_lt hlt ..⟩
  · exact ⟨_, endWord_of_eq heq ..⟩

/-- A row answers wherever the counters are in R20's ranges, and the Start row everywhere. -/
theorem row_answers {i : Instr} {e : Event} {s : State} (h : e ≠ .start → s.i < i.n ∧ s.j < i.wl.bytes) :
    ∃ t, row i e s = .next t := by
  cases e with
  | start =>
    rw [row_start]
    obtain ⟨-, hs⟩ | ⟨-, hs⟩ := startRow_eq i.n (match i.dir with | .b2w => 0#64 | .w2b => s.acc) s
    · exact ⟨_, hs⟩
    · exact ⟨_, hs⟩
  | read v =>
    obtain ⟨-, hj⟩ := h (by simp)
    cases hd : i.dir with
    | b2w =>
      rw [row_b2w hd]
      obtain hlt | heq := Nat.lt_or_eq_of_le hj
      · exact ⟨_, b2wRow_read_of_lt _ v hlt⟩
      · exact ⟨_, b2wRow_read_of_eq _ v heq⟩
    | w2b => exact ⟨_, row_w2b hd _ _⟩
  | write v =>
    obtain ⟨hi, hj⟩ := h (by simp)
    cases hd : i.dir with
    | b2w =>
      rw [row_b2w hd]
      exact endWord_answers hi ..
    | w2b =>
      rw [row_w2b hd]
      obtain hlt | heq := Nat.lt_or_eq_of_le hj
      · exact ⟨_, w2bRow_write_of_lt _ v hlt⟩
      · rw [w2bRow_write_of_eq _ v heq]
        exact endWord_answers hi ..

/-- In IDLE only a start can happen. -/
theorem eventAt_of_idle {d : Dir} {out : Item} {s : State} {e : Event} (hp : s.phase = .idle)
    (h : s.eventAt d out = some e) : e = .start := by
  have hphase : Phase.idle = e.phase := hp.symm.trans (phase_of_eventAt h)
  cases e with
  | start => rfl
  | read v => cases hphase
  | write v => cases hphase

/-- An edge answers wherever the counters are in R20's ranges, and in IDLE everywhere (R200). -/
theorem exec_answers {i : Instr} {s : State} (hu : s.unreset = none)
    (h : s.phase ≠ .idle → s.i < i.n ∧ s.j < i.wl.bytes) : ∃ t, exec i s = .next t := by
  cases hr : s.pins.rst with
  | true => exact ⟨_, exec_reset hr⟩
  | false =>
    cases hev : s.eventAt i.dir (s.outItem i) with
    | none => exact ⟨_, exec_quiet hu hr hev⟩
    | some e =>
      rw [exec_row hu hr hev]
      refine row_answers fun he => ?_
      rw [State.move_i, State.move_j]
      exact h fun hidle => he (eventAt_of_idle hidle hev)

/-- In R20's ranges the counters of an invocation in progress are those of its words and bytes. -/
theorem State.InRange.counters {i : Instr} {s : State} (h : s.InRange i) (hp : s.phase ≠ .idle) :
    s.i < i.n ∧ s.j < i.wl.bytes := by
  obtain ⟨-, hi, hj, hn, -⟩ := h
  have := hn hp
  exact ⟨by omega, hj⟩

/-- In R20's ranges an edge answers (R200). -/
theorem State.InRange.exec_answers {i : Instr} {s : State} (h : s.InRange i) :
    ∃ t, exec i s = .next t :=
  have ⟨hu, _⟩ := h
  Machine.exec_answers hu h.counters

/-! ### The handshakes of an edge (R116, R126, R131) -/

/-- In IDLE neither handshake happens. -/
theorem no_transfer_of_idle {i : Instr} {s : State} (hp : s.phase = .idle) :
    s.transferIn i = false ∧ s.transferOut i = false := by
  simp [State.transferIn, State.transferOut, State.inReady, State.outValid, hp]

/-- The two handshakes are those of different phases. -/
theorem not_transferIn_and_transferOut (i : Instr) (s : State) :
    ¬ (s.transferIn i = true ∧ s.transferOut i = true) := by
  obtain ⟨hin, -⟩ | ⟨-, hout, -⟩ | ⟨hin, -⟩ := moved_cases i s
  · simp [hin]
  · simp [hout]
  · simp [hin]

/-- An edge without a handshake leaves both channels as they are. -/
theorem exec_channels_of_no_transfer {i : Instr} {s t : State} (h : exec i s = .next t)
    (hin : s.transferIn i = false) (hout : s.transferOut i = false) : t.byteCh = s.byteCh ∧ t.wordCh = s.wordCh := by
  obtain ⟨-, -, hb, hw⟩ := exec_frame h
  obtain ⟨-, -, hm⟩ | ⟨hin', -⟩ | ⟨-, hout', -⟩ := moved_cases i s
  · rw [hb, hw, hm]
    exact ⟨rfl, rfl⟩
  · simp [hin] at hin'
  · simp [hout] at hout'

/-- Settles O24: the edge answers the reset registers, and its channels are those of every edge. -/
theorem resetEdgeOverridesEveryUpdate : Obligations.ResetEdgeOverridesEveryUpdate := by
  intro i s hr
  have hexec := exec_reset (i := i) hr
  obtain ⟨hout, -⟩ := exec_frame hexec
  refine ⟨_, hexec, rfl, rfl, rfl, rfl, rfl, rfl, hout, fun _ => ?_⟩
  obtain ⟨hin, hput, hm⟩ | ⟨hin, hput, v, hm⟩ | ⟨hin, hput, hm⟩ := moved_cases i s <;> rw [hm]
  · simp [hin, hput]
  · cases hd : i.dir <;> simp [hin, hput, Chan.pop]
  · cases hd : i.dir <;> simp [hin, hput, Chan.push]

/-- Settles O27: the handshakes are those of different phases, a read takes at most one item and a write adds one. -/
theorem atMostOneTransferPerEdge : Obligations.AtMostOneTransferPerEdge := by
  intro i s _
  refine ⟨not_transferIn_and_transferOut i s, fun t ht => ?_⟩
  obtain ⟨-, -, hb, hw⟩ := exec_frame ht
  rw [hb, hw]
  cases s.eventAt i.dir (s.outItem i) with
  | none => simp
  | some e =>
    cases e with
    | start => simp
    | read v => cases hd : i.dir <;> simp <;> omega
    | write v => cases hd : i.dir <;> simp

/-- Settles O29: in IDLE an edge answers, and neither handshake happens. -/
theorem idleMakesNoAccess : Obligations.IdleMakesNoAccess := by
  intro i s hu hp
  obtain ⟨t, ht⟩ := exec_answers (i := i) hu fun hbusy => absurd hp hbusy
  obtain ⟨hin, hout⟩ := no_transfer_of_idle (i := i) hp
  exact ⟨t, ht, exec_channels_of_no_transfer ht hin hout⟩

/-! ### The edges that end an invocation (R122, R117) -/

/-- The event ends its invocation: the start of an empty burst, or the write of the burst's last item (R115, R118). -/
def Event.Ends (i : Instr) (s : State) : Event → Prop
  | .start => i.n = 0
  | .read _ => False
  | .write _ => s.i + 1 = i.n ∧ (i.dir = .w2b → s.j + 1 = i.wl.bytes)

/-- Whether an event ends its invocation depends on the counters alone. -/
theorem Event.ends_congr {i : Instr} {s t : State} (hi : t.i = s.i) (hj : t.j = s.j) (e : Event) :
    e.Ends i t ↔ e.Ends i s := by
  cases e <;> simp [Event.Ends, hi, hj]

/-- A row sets done and enters IDLE exactly where its event ends the invocation (R148, R178). -/
theorem row_ends {i : Instr} {e : Event} {s t : State} (hp : s.phase = e.phase) (h : row i e s = .next t) :
    (t.doneR = true ↔ e.Ends i s) ∧ (t.phase = .idle ↔ e.Ends i s) := by
  cases hd : i.dir with
  | b2w =>
    rw [row_b2w hd] at h
    obtain ⟨rfl, hn, rfl⟩ | ⟨rfl, hn, rfl⟩ | ⟨v, rfl, -, rfl⟩ | ⟨v, rfl, -, rfl⟩ | ⟨v, rfl, hi, rfl⟩ |
      ⟨v, rfl, hi, rfl⟩ := b2wRow_cases h
    · simp [Event.Ends, hn, hp, Event.phase]
    · simp [Event.Ends, hn.ne']
    · simp [Event.Ends, hp, Event.phase]
    · simp [Event.Ends]
    · simp [Event.Ends, hi.ne]
    · simp [Event.Ends, hi, hd]
  | w2b =>
    rw [row_w2b hd] at h
    obtain ⟨rfl, hn, rfl⟩ | ⟨rfl, hn, rfl⟩ | ⟨v, rfl, rfl⟩ | ⟨v, rfl, hj, rfl⟩ | ⟨v, rfl, -, hi, rfl⟩ |
      ⟨v, rfl, hj, hi, rfl⟩ := w2bRow_cases h
    · simp [Event.Ends, hn, hp, Event.phase]
    · simp [Event.Ends, hn.ne']
    · simp [Event.Ends]
    · simp [Event.Ends, hp, Event.phase, hd, hj.ne]
    · simp [Event.Ends, hi.ne]
    · simp [Event.Ends, hi, hj]

/-- Start carries the Done label where an empty burst is requested in IDLE (R115). -/
theorem txDone_start {i : Instr} {s : State} :
    txDone i s .start = true ↔ s.phase = .idle ∧ s.pins.start = true ∧ i.n = 0 := by
  simp [txDone, txEnabled, State.idle, and_assoc]

/-- A write that a transfer out makes carries the Done label where it is the last of its burst (R118). -/
theorem txDone_write {i : Instr} {s : State} (h : s.transferOut i = true) :
    txDone i s .write = true ↔ s.i + 1 = i.n ∧ (i.dir = .w2b → s.j + 1 = i.wl.bytes) := by
  obtain ⟨hvalid, -, hroom⟩ : s.outValid = true ∧ s.pins.accept = true ∧ s.outRoom i.dir = true := by
    simpa [State.transferOut, State.outReady] using h
  have henabled : txEnabled i s .write = true := by simp [txEnabled, hvalid, hroom]
  cases hd : i.dir <;> simp [txDone, henabled, hd]

/-- An edge ends an invocation exactly where it is without reset and its event is one that ends it (R126, R130). -/
theorem edgeEnds_iff {i : Instr} {s : State} :
    edgeEnds i s = true ↔
      s.pins.rst = false ∧ ∃ e, s.eventAt i.dir (s.outItem i) = some e ∧ e.Ends i s := by
  have hstart : txDone i s .start = true ∧ s.pins.rst = false ↔
      s.eventAt i.dir (s.outItem i) = some .start ∧ Event.Ends i s .start := by
    rw [txDone_start, eventAt_start, Event.Ends]
    tauto
  have hwrite : s.transferOut i = true ∧ txDone i s .write = true ↔
      s.eventAt i.dir (s.outItem i) = some (.write (s.outItem i)) ∧ Event.Ends i s (.write (s.outItem i)) := by
    rw [← transferOut_iff]
    exact and_congr_right txDone_write
  simp only [edgeEnds, Bool.and_eq_true, Bool.or_eq_true, Bool.not_eq_true']
  refine and_congr_right fun hr => ⟨?_, ?_⟩
  · rintro (hs | hw)
    · exact ⟨_, hstart.mp ⟨hs, hr⟩⟩
    · exact ⟨_, hwrite.mp hw⟩
  · rintro ⟨e, hev, hends⟩
    cases e with
    | start => exact .inl (hstart.mpr ⟨hev, hends⟩).1
    | read v => exact hends.elim
    | write v =>
      obtain ⟨-, -, rfl⟩ := eventAt_write.mp hev
      exact .inr (hwrite.mpr ⟨hev, hends⟩)

/-- A reset edge ends no invocation (R127). -/
theorem edgeEnds_of_rst {i : Instr} {s : State} (hr : s.pins.rst = true) : edgeEnds i s = false := by
  simp [edgeEnds, hr]

/-- Where an event happens without reset, the edge ends an invocation exactly where the event does. -/
theorem edgeEnds_of_event {i : Instr} {s : State} {e : Event} (hr : s.pins.rst = false)
    (hev : s.eventAt i.dir (s.outItem i) = some e) : edgeEnds i s = true ↔ e.Ends i s := by
  simp [edgeEnds_iff, hr, hev]

/-- Without an event no invocation ends. -/
theorem edgeEnds_of_no_event {i : Instr} {s : State} (hev : s.eventAt i.dir (s.outItem i) = none) :
    edgeEnds i s = false := by
  rw [← Bool.not_eq_true, edgeEnds_iff]
  simp [hev]

/-- Where the row of an edge's event is what the edge does, done and IDLE after it say that it ended an invocation. -/
theorem row_edgeEnds {i : Instr} {e : Event} {s t : State} (hr : s.pins.rst = false)
    (hev : s.eventAt i.dir (s.outItem i) = some e) (h : row i e (s.move i.dir e) = .next t) :
    t.doneR = edgeEnds i s ∧ (t.phase = .idle ↔ edgeEnds i s = true) := by
  have hp : (s.move i.dir e).phase = e.phase := by simpa using phase_of_eventAt hev
  have hends : e.Ends i (s.move i.dir e) ↔ edgeEnds i s = true :=
    (Event.ends_congr (by simp) (by simp) e).trans (edgeEnds_of_event hr hev).symm
  obtain ⟨hdone, hidle⟩ := row_ends hp h
  exact ⟨Bool.eq_iff_iff.mpr (hdone.trans hends), hidle.trans hends⟩

/-- done after an edge is whether the edge ended an invocation (R122, R126). -/
theorem exec_doneR {i : Instr} {s t : State} (hu : s.unreset = none) (h : exec i s = .next t) :
    t.doneR = edgeEnds i s := by
  cases hr : s.pins.rst with
  | true =>
    rw [exec_reset hr] at h
    obtain rfl := Host.Outcome.next.inj h
    exact (edgeEnds_of_rst hr).symm
  | false =>
    obtain ⟨hev, rfl⟩ | ⟨e, hev, hrow⟩ := exec_noReset_cases hu hr h
    · exact (edgeEnds_of_no_event hev).symm
    · exact (row_edgeEnds hr hev hrow).1

/-- Settles O28: done is that the edge ended an invocation, which is what the two Done labels say. -/
theorem donePulseMarksTheEnd : Obligations.DonePulseMarksTheEnd := by
  intro i s hrange
  obtain ⟨t, ht⟩ := hrange.exec_answers
  have ⟨hu, _⟩ := hrange
  have hdone : (t.outPorts i).done = edgeEnds i s := exec_doneR hu ht
  refine ⟨t, ht, fun hr => hdone.trans (edgeEnds_of_rst hr), fun hr => ?_⟩
  rw [hdone, ← txDone_start, ← and_congr_right txDone_write]
  simp [edgeEnds, hr]

/-! ### An empty burst (R115, R132) -/

/-- With N = 0 an edge in IDLE stays in IDLE (R115). -/
theorem exec_idle_of_empty {i : Instr} {s t : State} (hu : s.unreset = none) (hn : i.n = 0) (hp : s.phase = .idle)
    (h : exec i s = .next t) : t.phase = .idle := by
  cases hr : s.pins.rst with
  | true =>
    rw [exec_reset hr] at h
    obtain rfl := Host.Outcome.next.inj h
    rfl
  | false =>
    obtain ⟨hev, rfl⟩ | ⟨e, hev, hrow⟩ := exec_noReset_cases hu hr h
    · exact hp
    · obtain rfl := eventAt_of_idle hp hev
      exact (row_edgeEnds hr hev hrow).2.mpr ((edgeEnds_of_event hr hev).mpr hn)

/-- With N = 0 an edge in IDLE ends an invocation exactly where it accepts a start (R115, R121). -/
theorem edgeEnds_of_empty {i : Instr} {s : State} (hn : i.n = 0) (hp : s.phase = .idle) :
    edgeEnds i s = true ↔ s.pins.start = true ∧ s.pins.rst = false := by
  rw [edgeEnds_iff]
  constructor
  · rintro ⟨hr, e, hev, -⟩
    obtain rfl := eventAt_of_idle hp hev
    obtain ⟨-, hs, -⟩ := eventAt_start.mp hev
    exact ⟨hs, hr⟩
  · rintro ⟨hs, hr⟩
    exact ⟨hr, .start, eventAt_start.mpr ⟨hp, hs, hr⟩, hn⟩

/-- Settles O31: after the environment's moves the edge is one of an idle block with an empty burst. -/
theorem emptyBurstMakesNoTransfer : Obligations.EmptyBurstMakesNoTransfer := by
  intro i s hcfg hu hn hp
  have hu' : (s.present i.dir).unreset = none := by simpa using hu
  have hp' : (s.present i.dir).phase = .idle := by simpa using hp
  obtain ⟨t, ht, hb, hw⟩ := idleMakesNoAccess i (s.present i.dir) hu' hp'
  have hidle : t.phase = .idle := exec_idle_of_empty hu' hn hp' ht
  refine ⟨t, (step_ok hcfg).trans ht, hidle, hb, hw, ?_, ?_, ?_⟩
  · simp [State.outPorts, State.inReady, hidle]
  · simp [State.outPorts, State.outValid, hidle]
  · rw [exec_doneR hu' ht, edgeEnds_of_empty hn hp']

/-! ### start outside IDLE (R121) -/

/-- The state with another level on the start pin. -/
def State.withStart (b : Bool) (s : State) : State := { s with pins := { s.pins with start := b } }

/-- Outside IDLE the event of an edge does not depend on start. -/
theorem eventAt_withStart {d : Dir} {out : Item} {s : State} (b : Bool) (hp : s.phase ≠ .idle) :
    (s.withStart b).eventAt d out = s.eventAt d out := by
  cases hs : s.phase with
  | idle => exact absurd hs hp
  | rd => simp [State.eventAt, State.withStart, State.inHead, State.chanHead, State.driven, hs]
  | wr => simp [State.eventAt, State.withStart, State.outReady, State.outRoom, hs]

/-- A transfer does not depend on start. -/
theorem move_withStart (b : Bool) (s : State) (d : Dir) (e : Event) :
    (s.withStart b).move d e = (s.move d e).withStart b := by
  cases e <;> cases d <;> rfl

/-- A row does not depend on start. -/
theorem row_withStart {i : Instr} {e : Event} {s t : State} (b : Bool) (h : row i e s = .next t) :
    row i e (s.withStart b) = .next (t.withStart b) := by
  cases hd : i.dir with
  | b2w =>
    rw [row_b2w hd] at h ⊢
    obtain ⟨rfl, hn, rfl⟩ | ⟨rfl, hn, rfl⟩ | ⟨v, rfl, hj, rfl⟩ | ⟨v, rfl, hj, rfl⟩ | ⟨v, rfl, hi, rfl⟩ |
      ⟨v, rfl, hi, rfl⟩ := b2wRow_cases h
    · exact if_pos hn
    · exact if_neg hn.ne'
    · exact b2wRow_read_of_lt (s := s.withStart b) _ v hj
    · exact b2wRow_read_of_eq (s := s.withStart b) _ v hj
    · exact endWord_of_lt (s := s.withStart b) hi ..
    · exact endWord_of_eq (s := s.withStart b) hi ..
  | w2b =>
    rw [row_w2b hd] at h ⊢
    obtain ⟨rfl, hn, rfl⟩ | ⟨rfl, hn, rfl⟩ | ⟨v, rfl, rfl⟩ | ⟨v, rfl, hj, rfl⟩ | ⟨v, rfl, hj, hi, rfl⟩ |
      ⟨v, rfl, hj, hi, rfl⟩ := w2bRow_cases h
    · exact if_pos hn
    · exact if_neg hn.ne'
    · rfl
    · exact w2bRow_write_of_lt (s := s.withStart b) _ v hj
    · exact (w2bRow_write_of_eq (s := s.withStart b) _ v hj).trans (endWord_of_lt (s := s.withStart b) hi ..)
    · exact (w2bRow_write_of_eq (s := s.withStart b) _ v hj).trans (endWord_of_eq (s := s.withStart b) hi ..)

/-- Outside IDLE an edge does not depend on start (R121). -/
theorem exec_withStart {i : Instr} {s t : State} (b : Bool) (hu : s.unreset = none) (hp : s.phase ≠ .idle)
    (h : exec i s = .next t) : exec i (s.withStart b) = .next (t.withStart b) := by
  have hsame : (s.withStart b).eventAt i.dir ((s.withStart b).outItem i) = s.eventAt i.dir (s.outItem i) :=
    eventAt_withStart b hp
  cases hr : s.pins.rst with
  | true =>
    rw [exec_reset hr] at h
    obtain rfl := Host.Outcome.next.inj h
    rw [exec_reset (s := s.withStart b) hr, hsame]
    cases s.eventAt i.dir (s.outItem i) with
    | none => rfl
    | some e => simp only [State.moved_some, move_withStart]; rfl
  | false =>
    obtain ⟨hev, rfl⟩ | ⟨e, hev, hrow⟩ := exec_noReset_cases hu hr h
    · exact exec_quiet (s := s.withStart b) hu hr (hsame.trans hev)
    · rw [exec_row (s := s.withStart b) hu hr (hsame.trans hev), move_withStart]
      exact row_withStart b hrow

/-- Settles O30: outside IDLE neither the event nor its row depends on start. -/
theorem startIgnoredWhileBusy : Obligations.StartIgnoredWhileBusy :=
  fun _ _ _ b hu hp h => exec_withStart b hu hp h

/-! ### An edge as a transaction-level step (R117, R127, R133) -/

/-- The event of the transaction level that an edge's event is (R117). -/
def Event.tx : Event → TxEvent
  | .start => .start
  | .read _ => .read
  | .write _ => .write

/-- The event of an edge is enabled at the transaction level, and its step is its transfer and its row (R117). -/
theorem txStep_of_eventAt {i : Instr} {s : State} {e : Event} (h : s.eventAt i.dir (s.outItem i) = some e) :
    txStep i e.tx s = some (row i e (s.move i.dir e)) := by
  cases e with
  | start =>
    obtain ⟨hp, hs, -⟩ := eventAt_start.mp h
    simp [txStep, Event.tx, txEnabled, txItem, State.idle, hp, hs]
  | read v =>
    obtain ⟨hp, -, hv⟩ := eventAt_read.mp h
    simp [txStep, Event.tx, txEnabled, txItem, State.inReady, hp, hv]
  | write v =>
    obtain ⟨hp, hready, rfl⟩ := eventAt_write.mp h
    obtain ⟨-, hroom⟩ : s.pins.accept = true ∧ s.outRoom i.dir = true := by simpa [State.outReady] using hready
    simp [txStep, Event.tx, txEnabled, txItem, State.outValid, hp, hroom]

/-- Without reset an edge with an event is the transaction-level step of the event. -/
theorem txStep_eq_exec {i : Instr} {s : State} {e : Event} (hu : s.unreset = none) (hr : s.pins.rst = false)
    (h : s.eventAt i.dir (s.outItem i) = some e) : txStep i e.tx s = some (exec i s) := by
  rw [txStep_of_eventAt h, exec_row hu hr h]

/-- Reset at the transaction level gives the reset registers (R117). -/
theorem txStep_reset {i : Instr} {s : State} (hr : s.pins.rst = true) :
    txStep i .reset s = some (.next s.resetRegs) := by
  simp [txStep, txEnabled, txItem, hr]

/-- After reset only what is no register is left of a state. -/
theorem resetRegs_congr {s t : State} (hout : s.SameOutside t) (hb : t.byteCh = s.byteCh) (hw : t.wordCh = s.wordCh) :
    t.resetRegs = s.resetRegs := by
  obtain ⟨hcfg, hpins, hscript, htick⟩ := hout
  simp [State.resetRegs, hcfg, hpins, hscript, htick, hb, hw]

/-- At a reset edge an event in R20's ranges is its transaction-level step and then Reset (R127). -/
theorem txStep_reset_eq_exec {i : Instr} {s : State} {e : Event} (hrange : s.InRange i) (hr : s.pins.rst = true)
    (h : s.eventAt i.dir (s.outItem i) = some e) :
    ∃ u, txStep i e.tx s = some (.next u) ∧ some (exec i s) = txStep i .reset u := by
  obtain ⟨u, hrow⟩ : ∃ u, row i e (s.move i.dir e) = .next u := by
    refine row_answers fun he => ?_
    rw [State.move_i, State.move_j]
    exact hrange.counters fun hidle => he (eventAt_of_idle hidle h)
  obtain ⟨hout, -, hb, hw⟩ := row_frame hrow
  have ⟨_, hpins, _⟩ := hout
  refine ⟨u, by rw [txStep_of_eventAt h, hrow], ?_⟩
  have hru : u.pins.rst = true := by simpa [hpins] using hr
  rw [exec_reset hr, txStep_reset hru, resetRegs_congr hout hb hw, h, State.moved_some]

/-- Where no start is requested in IDLE and no handshake happens, there is no event. -/
theorem eventAt_none_of_no_transfer {i : Instr} {s : State} (hs : ¬ (s.phase = .idle ∧ s.pins.start = true))
    (hin : s.transferIn i = false) (hout : s.transferOut i = false) :
    s.eventAt i.dir (s.outItem i) = none := by
  rw [Option.eq_none_iff_forall_ne_some]
  intro e hev
  cases e with
  | start =>
    obtain ⟨hp, hstart, -⟩ := eventAt_start.mp hev
    exact hs ⟨hp, hstart⟩
  | read v => simp [transferIn_iff.mpr ⟨v, hev⟩] at hin
  | write v =>
    obtain ⟨-, -, rfl⟩ := eventAt_write.mp hev
    simp [transferOut_iff.mpr hev] at hout

/-- Settles O38: the handshake of an edge is its event, and the step of the event is the row the edge takes. -/
theorem cycleLevelRefinesTransactions : Obligations.CycleLevelRefinesTransactions := by
  intro i s hrange
  have ⟨hu, _⟩ := hrange
  have hread (hin : s.transferIn i = true) := transferIn_iff (out := s.outItem i).mp hin
  have hwrite (hput : s.transferOut i = true) := transferOut_iff.mp hput
  refine ⟨fun hr hp hs => ?_, fun hr hin => ?_, fun hr hput => ?_, fun hr hs hin hput => ?_, fun hr hin => ?_,
    fun hr hput => ?_, fun hr hin hput => ?_, fun t hr ht => ?_⟩
  · exact txStep_eq_exec hu hr (eventAt_start.mpr ⟨hp, hs, hr⟩)
  · obtain ⟨v, hev⟩ := hread hin
    exact txStep_eq_exec hu hr hev
  · exact txStep_eq_exec hu hr (hwrite hput)
  · exact exec_quiet hu hr (eventAt_none_of_no_transfer hs hin hput)
  · obtain ⟨v, hev⟩ := hread hin
    exact txStep_reset_eq_exec hrange hr hev
  · exact txStep_reset_eq_exec hrange hr (hwrite hput)
  · obtain ⟨-, -, hm⟩ | ⟨hin', -⟩ | ⟨-, hput', -⟩ := moved_cases i s
    · rw [exec_reset hr, hm, txStep_reset hr]
    · simp [hin] at hin'
    · simp [hput] at hput'
  · rw [exec_doneR hu ht]
    simp [edgeEnds, hr]

/-! ### The invocations of a run (R130) -/

/-- How many invocations are in progress. -/
def State.inProgress (s : State) : Nat := if s.phase = .idle then 0 else 1

theorem State.inProgress_idle {s : State} (hp : s.phase = .idle) : s.inProgress = 0 := if_pos hp
theorem State.inProgress_busy {s : State} (hp : s.phase ≠ .idle) : s.inProgress = 1 := if_neg hp

/-- An edge starts an invocation where a start is its event. -/
theorem startCount_edgeLabels (i : Instr) (s : State) :
    startCount (edgeLabels i s) = if s.eventAt i.dir (s.outItem i) = some .start then 1 else 0 := by
  have hdone : startCount (if edgeEnds i s then [.done] else []) = 0 := by split_ifs <;> rfl
  have hreset : startCount (if s.pins.rst then [.reset] else []) = 0 := by split_ifs <;> rfl
  rw [edgeLabels, startCount_append, startCount_append, hdone, hreset]
  cases s.eventAt i.dir (s.outItem i) with
  | none => rfl
  | some e => cases e <;> rfl

/-- An edge counts as the end of an invocation where it ends one. -/
theorem doneCount_edgeLabels (i : Instr) (s : State) :
    doneCount (edgeLabels i s) = if edgeEnds i s then 1 else 0 := by
  have hevent : doneCount ((s.eventAt i.dir (s.outItem i)).toList.map .event) = 0 := by
    cases s.eventAt i.dir (s.outItem i) <;> rfl
  have hreset : doneCount (if s.pins.rst then [.reset] else []) = 0 := by split_ifs <;> rfl
  rw [edgeLabels, doneCount_append, doneCount_append, hevent, hreset]
  split_ifs <;> rfl

/-- Every invocation that an edge starts or finds in progress is ended by the edge, in progress after it, or aborted by a
reset edge (R117, R127, R130). -/
theorem exec_balance {i : Instr} {s t : State} (hu : s.unreset = none) (h : exec i s = .next t) :
    startCount (edgeLabels i s) + s.inProgress =
      doneCount (edgeLabels i s) + t.inProgress + (if s.pins.rst then s.inProgress else 0) := by
  rw [startCount_edgeLabels, doneCount_edgeLabels]
  cases hr : s.pins.rst with
  | true =>
    rw [exec_reset hr] at h
    obtain rfl := Host.Outcome.next.inj h
    simp [edgeEnds_of_rst hr, eventAt_start, hr, State.inProgress]
  | false =>
    obtain ⟨hev, rfl⟩ | ⟨e, hev, hrow⟩ := exec_noReset_cases hu hr h
    · have hsame : (s.setDone false).inProgress = s.inProgress := rfl
      simp [hev, edgeEnds_of_no_event hev, hsame]
    · have hidle := (row_edgeEnds hr hev hrow).2
      have hp := phase_of_eventAt hev
      have hbusy : (if edgeEnds i s = true then 1 else 0) + t.inProgress = 1 := by
        unfold State.inProgress
        cases hends : edgeEnds i s <;> simp [hidle, hends]
      rw [hbusy]
      cases e <;> simp [hev, State.inProgress, hp, Event.phase]

/-- The environment's moves start, end and abort nothing. -/
theorem present_inProgress (s : State) (d : Dir) : (s.present d).inProgress = s.inProgress := by
  simp only [State.inProgress, State.present_phase]

/-- Over a run without reset the invocations started, and one in progress at its start, are those ended, and one in
progress at its end (R130). -/
theorem run_balance_of_noReset {i : Instr} {k : Nat} {s t : State} (hcfg : s.cfg = .ok i) (hu : s.unreset = none)
    (hreset : s.NoReset) (hrun : Reaches k s t) :
    startCount (runLabels i k s) + s.inProgress = doneCount (runLabels i k s) + t.inProgress := by
  refine run_keeps (P := fun ls u => startCount ls + s.inProgress = doneCount ls + u.inProgress) (ls := [])
    (fun ls u v hu' hreset' hexec h => ?_) hcfg hu hreset hrun rfl
  have hedge := exec_balance (by simpa using hu') hexec
  rw [hreset'.present_rst, present_inProgress] at hedge
  simp only [startCount_append, doneCount_append, Bool.false_eq_true, if_false] at hedge ⊢
  omega

/-- A run without reset from IDLE is finished exactly when it ends in IDLE (R130). -/
theorem runFinished_iff_of_noReset {i : Instr} {k : Nat} {s t : State} (hcfg : s.cfg = .ok i) (hu : s.unreset = none)
    (hp : s.phase = .idle) (hreset : s.NoReset) (hrun : Reaches k s t) : RunFinished i k s t ↔ t.phase = .idle := by
  refine ⟨fun ⟨_, _, _, hidle, _⟩ => hidle, fun hidle => ⟨hu, hp, hrun, hidle, ?_⟩⟩
  simpa [State.inProgress_idle hp, State.inProgress_idle hidle] using run_balance_of_noReset hcfg hu hreset hrun

/-- Settles O55: without reset every invocation that was started has ended or is in progress. -/
theorem runWithoutResetFinishesInIdle : Obligations.RunWithoutResetFinishesInIdle := by
  intro i s t k hcfg hinv hp hreset hrun
  obtain ⟨⟨hu, -⟩, -⟩ := hinv
  have hbalance := run_balance_of_noReset hcfg hu hreset hrun
  rw [State.inProgress_idle hp, Nat.add_zero] at hbalance
  exact ⟨hbalance, runFinished_iff_of_noReset hcfg hu hp hreset hrun⟩

/-! ### Runs with a reset (R127, R231) -/

/-- A step keeps the configuration, and that a reset edge has come. -/
theorem step_cfg_unreset {i : Instr} {s t : State} (hcfg : s.cfg = .ok i) (hu : s.unreset = none)
    (h : step s = .next t) : t.cfg = .ok i ∧ t.unreset = none := by
  rw [step_ok hcfg] at h
  obtain ⟨⟨hcfg', -⟩, hu', -⟩ := exec_frame h
  exact ⟨by simpa [hcfg] using hcfg', hu' (by simpa using hu)⟩

/-- Over every run the invocations ended, and one in progress at its end, are among those started, and one in progress at
its start. -/
theorem run_balance_le {i : Instr} {k : Nat} {s t : State} (hcfg : s.cfg = .ok i) (hu : s.unreset = none)
    (hrun : Reaches k s t) :
    doneCount (runLabels i k s) + t.inProgress ≤ startCount (runLabels i k s) + s.inProgress := by
  induction k generalizing s with
  | zero =>
    obtain rfl := reaches_zero.mp hrun
    exact Nat.le_refl _
  | succ k ih =>
    obtain ⟨u, hs, hrest⟩ := reaches_succ.mp hrun
    obtain ⟨hcfg', hu'⟩ := step_cfg_unreset hcfg hu hs
    have hrest := ih hcfg' hu' hrest
    have hedge := exec_balance (by simpa using hu) (step_ok hcfg ▸ hs)
    rw [present_inProgress] at hedge
    rw [runLabels_succ k hs, startCount_append, doneCount_append]
    omega

/-- A run keeps the configuration, and that a reset edge has come. -/
theorem reaches_cfg_unreset {i : Instr} {k : Nat} {s t : State} (hcfg : s.cfg = .ok i) (hu : s.unreset = none)
    (hrun : Reaches k s t) : t.cfg = .ok i ∧ t.unreset = none := by
  induction k generalizing s with
  | zero =>
    obtain rfl := reaches_zero.mp hrun
    exact ⟨hcfg, hu⟩
  | succ k ih =>
    obtain ⟨u, hs, hrest⟩ := reaches_succ.mp hrun
    obtain ⟨hcfg', hu'⟩ := step_cfg_unreset hcfg hu hs
    exact ih hcfg' hu' hrest

/-- The labels of a run made of two runs. -/
theorem runLabels_add {i : Instr} {k m : Nat} {s u : State} (h : Reaches k s u) :
    runLabels i (k + m) s = runLabels i k s ++ runLabels i m u := by
  induction k generalizing s with
  | zero =>
    obtain rfl := reaches_zero.mp h
    simp
  | succ k ih =>
    obtain ⟨v, hs, hrest⟩ := reaches_succ.mp h
    rw [Nat.add_right_comm, runLabels_succ _ hs, runLabels_succ _ hs, ih hrest, List.append_assoc]

/-- A run whose first edge aborts an invocation ends fewer than are started, that one included (R127, R231). -/
theorem run_balance_lt_of_abort {i : Instr} {m : Nat} {u t : State} (hcfg : u.cfg = .ok i) (hu : u.unreset = none)
    (hp : u.phase ≠ .idle) (hr : (u.present i.dir).pins.rst = true) (hrun : Reaches (m + 1) u t) :
    doneCount (runLabels i (m + 1) u) < startCount (runLabels i (m + 1) u) + u.inProgress := by
  obtain ⟨v, hs, hrest⟩ := reaches_succ.mp hrun
  obtain ⟨hcfg', hu'⟩ := step_cfg_unreset hcfg hu hs
  have hrest := run_balance_le hcfg' hu' hrest
  have hedge := exec_balance (by simpa using hu) (step_ok hcfg ▸ hs)
  rw [present_inProgress, if_pos hr, State.inProgress_busy hp] at hedge
  rw [runLabels_succ m hs, startCount_append, doneCount_append, State.inProgress_busy hp]
  omega

/-- Settles O56: the invocation that the reset edge aborts is started before it and never ended. -/
theorem abortedInvocationNeverFinishes : Obligations.AbortedInvocationNeverFinishes := by
  intro i s u t k m hcfg hinv hp hrun hbusy hr hrest
  obtain ⟨⟨hu, -⟩, -⟩ := hinv
  obtain ⟨hcfg', hu'⟩ := reaches_cfg_unreset hcfg hu hrun
  refine ⟨reaches_add hrun hrest, ?_, ?_⟩
  · rintro ⟨-, -, -, -, hcount⟩
    have hbefore := run_balance_le hcfg hu hrun
    have hafter := run_balance_lt_of_abort hcfg' hu' hbusy hr hrest
    rw [runLabels_add hrun, startCount_append, doneCount_append] at hcount
    rw [State.inProgress_idle hp] at hbefore
    omega
  · rintro rfl
    obtain ⟨v, hs, hrest⟩ := reaches_succ.mp hrest
    obtain rfl := reaches_zero.mp hrest
    rw [step_ok hcfg', exec_reset hr] at hs
    obtain rfl := Host.Outcome.next.inj hs
    rfl

/-! ### An item that the producer drives (R120) -/

/-- A byte fits every width. -/
theorem fits_ofByte (wl : WordLen) (b : Byte) : fits wl (ofByte b) = true := by
  have h8 : 2 ^ 8 ≤ 2 ^ wl.bits := Nat.pow_le_pow_right (by decide) (Nat.le_mul_of_pos_right 8 (WordLen_bytes_pos wl))
  have hb : (ofByte b).toNat = b.toNat := by
    rw [ofByte, BitVec.toNat_setWidth, Nat.mod_eq_of_lt (by omega)]
  simpa [fits, hb] using b.isLt.trans_le h8

/-- Nothing is left of an empty channel after a read, as of one that held the item alone (R111). -/
theorem Chan.pop_of_nil {α : Type} {c : Chan α} (h : c.items = []) :
    c.pop = c ∧ ∀ v, Chan.pop { c with items := [v] } = c := by
  obtain ⟨cap, waiting, items, taken⟩ := c
  obtain rfl : items = [] := h
  exact ⟨rfl, fun _ => rfl⟩

section
variable {i : Instr} {s : State} {v : Item} (hp : s.phase = .rd) (hoffer : s.pins.offer = true)
  (hhead : s.inHead i.dir = some v)

include hp hoffer hhead in
/-- An item offered in RD is presented, is the one on the port, and is transferred in (R120). -/
theorem inPorts_of_offer :
    (s.inPorts i).inValid = true ∧ (s.inPorts i).inData = some (toItem i.wl (ofItem i.wl v)) ∧
      s.transferIn i = true := by
  have hvalid : s.inValid i.dir = true := by simp [State.inValid, hoffer, hhead]
  refine ⟨hvalid, by simp [State.inPorts, State.inData, hoffer, hhead], ?_⟩
  simp [State.transferIn, hvalid, State.inReady, hp]

variable (hu : s.unreset = none) (hr : s.pins.rst = false)
include hp hoffer hhead hu hr

/-- An edge in RD at which an item is offered is the row of its read. -/
theorem exec_of_read : exec i s = row i (.read v) (s.move i.dir (.read v)) :=
  exec_row hu hr (eventAt_read.mpr ⟨hp, hoffer, hhead⟩)

/-- A read of the same item, from this channel or from another one, of which the same is left, is the same edge. -/
theorem exec_read_congr {s' : State} (hp' : s'.phase = .rd) (hoffer' : s'.pins.offer = true)
    (hhead' : s'.inHead i.dir = some v) (hu' : s'.unreset = none) (hr' : s'.pins.rst = false)
    (hleft : s.move i.dir (.read v) = s'.move i.dir (.read v)) : exec i s = exec i s' := by
  rw [exec_of_read hp hoffer hhead hu hr, exec_of_read hp' hoffer' hhead' hu' hr', hleft]

end

/-- Settles O54: the head of an empty channel is the driven item, and the read leaves the channel as it is. -/
theorem drivenItemIsTaken : Obligations.DrivenItemIsTaken := by
  intro i s v hrange hp hr hoffer hdrive
  have ⟨hu, _⟩ := hrange
  obtain ⟨t, ht⟩ := hrange.exec_answers
  refine ⟨fun hd hnil => ?_, fun hd hnil => ?_⟩
  · obtain ⟨hpop, hpop'⟩ := Chan.pop_of_nil hnil
    have hhead : s.inHead i.dir = some (ofByte (toByte v)) := by simp [hd, inHead_b2w_nil hnil, hoffer, hdrive]
    have hleft : s.move i.dir (.read (ofByte (toByte v))) = s := by simp [hd, hpop]
    obtain ⟨hvalid, hdata, hin⟩ := inPorts_of_offer hp hoffer hhead
    rw [toItem_ofItem (fits_ofByte _ _)] at hdata
    refine ⟨hvalid, hdata, hin, ?_, t, ht, ?_⟩
    · refine exec_read_congr hp hoffer hhead hu hr hp hoffer (hd ▸ inHead_b2w_cons rfl) hu hr ?_
      rw [hleft, hd, State.move_read_b2w, hpop']
    · rw [exec_of_read hp hoffer hhead hu hr, hleft] at ht
      obtain ⟨-, -, hb, -⟩ := row_frame ht
      exact hb
  · obtain ⟨hpop, hpop'⟩ := Chan.pop_of_nil hnil
    have hhead : s.inHead i.dir = some v := by simp [hd, inHead_w2b_nil hnil, hoffer, hdrive]
    have hleft : s.move i.dir (.read v) = s := by simp [hd, hpop]
    obtain ⟨hvalid, hdata, hin⟩ := inPorts_of_offer hp hoffer hhead
    refine ⟨hvalid, hdata, hin, ?_, t, ht, ?_⟩
    · refine exec_read_congr hp hoffer hhead hu hr hp hoffer (hd ▸ inHead_w2b_cons rfl) hu hr ?_
      rw [hleft, hd, State.move_read_w2b, hpop']
    · rw [exec_of_read hp hoffer hhead hu hr, hleft] at ht
      obtain ⟨-, -, -, hw⟩ := row_frame ht
      exact hw

/-! ### A block left to ready partners (log entry 6) -/

/-- The block is configured as i, a reset edge has come, and its script has ended: from now on reset and start are 0, and
both partners are ready. -/
def State.Quiet (i : Instr) (s : State) : Prop := s.cfg = .ok i ∧ s.unreset = none ∧ s.script = []

/-- p has the registers of s, and its channels after the transfer of an event. -/
def State.MovedTo (d : Dir) (e : Event) (s p : State) : Prop :=
  s.SameRegs p ∧ p.byteCh = (s.move d e).byteCh ∧ p.wordCh = (s.move d e).wordCh

/-- What a transfer does to the channels, finds at their heads and has room for depends on the channels alone. -/
theorem channels_congr {s t : State} (hb : t.byteCh = s.byteCh) (hw : t.wordCh = s.wordCh) (d : Dir) :
    t.chanHead d = s.chanHead d ∧ t.outRoom d = s.outRoom d ∧
      ∀ e, (t.move d e).byteCh = (s.move d e).byteCh ∧ (t.move d e).wordCh = (s.move d e).wordCh := by
  refine ⟨by simp only [State.chanHead, hb, hw], by simp only [State.outRoom, hb, hw], fun e => ?_⟩
  cases e <;> cases d <;> simp [hb, hw]

section
variable {i : Instr} {s : State} (hq : s.Quiet i)
include hq

/-- A block left to its partners stays so. -/
theorem quiet_step {t : State} (h : step s = .next t) : t.Quiet i := by
  obtain ⟨hcfg, hu, hscript⟩ := hq
  obtain ⟨hcfg', hu'⟩ := step_cfg_unreset hcfg hu h
  refine ⟨hcfg', hu', ?_⟩
  rw [script_of_exec_present (step_ok hcfg ▸ h), hscript, List.tail_nil]

/-- A step that has an event is the event's row, and the environment has moved nothing. -/
theorem step_of_event {e : Event} (hev : (s.present i.dir).eventAt i.dir ((s.present i.dir).outItem i) = some e) :
    ∃ p, s.MovedTo i.dir e p ∧ step s = row i e p := by
  obtain ⟨hcfg, hu, hscript⟩ := hq
  obtain ⟨hb, hw⟩ := present_quiet_channels hscript i.dir
  obtain ⟨-, -, hmove⟩ := channels_congr hb hw i.dir
  refine ⟨(s.present i.dir).move i.dir e, ⟨by simp [State.SameRegs], hmove e⟩, ?_⟩
  rw [step_ok hcfg]
  exact exec_row (by simpa using hu) (by rw [present_quiet_pins hscript]) hev

/-- In RD with an item in the channel a step reads it. -/
theorem step_read {v : Item} (hp : s.phase = .rd) (hhead : s.chanHead i.dir = some v) :
    ∃ p, s.MovedTo i.dir (.read v) p ∧ step s = row i (.read v) p := by
  have ⟨_, _, hscript⟩ := hq
  have hpins := present_quiet_pins hscript i.dir
  obtain ⟨hb, hw⟩ := present_quiet_channels hscript i.dir
  obtain ⟨hsame, -⟩ := channels_congr hb hw i.dir
  refine step_of_event hq (eventAt_read.mpr ⟨by simpa using hp, by rw [hpins], ?_⟩)
  rw [inHead_of_not_driven (by rw [hpins]), hsame, hhead]

/-- In WR with room in the channel a step writes the output item. -/
theorem step_write (hp : s.phase = .wr) (hroom : s.outRoom i.dir = true) :
    ∃ p, s.MovedTo i.dir (.write (s.outItem i)) p ∧ step s = row i (.write (s.outItem i)) p := by
  have ⟨_, _, hscript⟩ := hq
  obtain ⟨hb, hw⟩ := present_quiet_channels hscript i.dir
  obtain ⟨-, hsame, -⟩ := channels_congr hb hw i.dir
  refine step_of_event hq (eventAt_write.mpr ⟨by simpa using hp, ?_, (outItem_congr (by simp)).symm⟩)
  rw [State.outReady, present_quiet_pins hscript, hsame, hroom]
  rfl

end

/-- The first step of a block in IDLE whose script is one start: the invocation is entered (R121). -/
theorem step_start {i : Instr} {s : State} (hcfg : s.cfg = .ok i) (hu : s.unreset = none) (hp : s.phase = .idle)
    (hn : 0 < i.n) (hscript : s.script = [⟨⟨false, true, true, true, none⟩, 0, 0⟩]) :
    ∃ u, step s = .next u ∧ u.Quiet i ∧ u.phase = .rd ∧ u.i = 0 ∧ u.j = 0 ∧ (i.dir = .b2w → u.acc = 0#64) ∧
      u.byteCh = s.byteCh ∧ u.wordCh = s.wordCh := by
  obtain ⟨hb, hw⟩ : (s.present i.dir).byteCh = s.byteCh ∧ (s.present i.dir).wordCh = s.wordCh := by
    cases i.dir <;> simp [hscript]
  have hstep : step s = row i .start (s.present i.dir) := by
    rw [step_ok hcfg, exec_row (e := .start) (by simpa using hu) (by simp [hscript])
      (eventAt_start.mpr ⟨by simpa using hp, by simp [hscript], by simp [hscript]⟩), State.move_start]
  rw [row_start, State.startRow, if_neg hn.ne'] at hstep
  refine ⟨_, hstep, ⟨?_, ?_, ?_⟩, rfl, rfl, rfl, fun hd => ?_, hb, hw⟩
  · simpa using hcfg
  · simpa using hu
  · simp [hscript]
  · simp [hd]

/-- A run that begins with a start and ends in IDLE is finished (R130). -/
theorem runFinished_of_start {i : Instr} {m : Nat} {s u t : State} (hcfg : s.cfg = .ok i) (hu : s.unreset = none)
    (hp : s.phase = .idle) (hscript : s.script = [⟨⟨false, true, true, true, none⟩, 0, 0⟩])
    (hsu : step s = .next u) (hrun : Reaches m u t) (hidle : t.phase = .idle) : RunFinished i (1 + m) s t := by
  have hreach : Reaches (1 + m) s t := by
    rw [Nat.add_comm]
    exact reaches_succ.mpr ⟨u, hsu, hrun⟩
  have hreset : s.NoReset := by simp [State.NoReset, hscript]
  exact (runFinished_iff_of_noReset hcfg hu hp hreset hreach).mpr hidle

/-! ### A B2W invocation (R113, R148) -/

/-- A burst that is to go on in the channel, with a word of which only a part is taken, has a byte there. -/
theorem b2wBurst_next {e : Endian} {wl : WordLen} {n : Nat} {part bs rest : List Byte} {ws : List Item}
    (h : b2wBurst e wl (n + 1) (part ++ bs) = some (ws, rest)) (hpart : part.length < wl.bytes) :
    ∃ b bs', bs = b :: bs' := by
  rw [b2wBurst_eq] at h
  split_ifs at h with hlen
  rw [List.length_append, Nat.succ_mul] at hlen
  exact List.exists_cons_of_length_pos (by omega)

/-- A burst whose first word is taken has that word, and goes on behind it. -/
theorem b2wBurst_whole {e : Endian} {wl : WordLen} {n : Nat} {part bs rest : List Byte} {ws : List Item}
    (h : b2wBurst e wl (n + 1) (part ++ bs) = some (ws, rest)) (hpart : part.length = wl.bytes) :
    ∃ ws', ws = b2wWord e wl part :: ws' ∧ b2wBurst e wl n bs = some (ws', rest) := by
  rw [b2wBurst, if_neg (by simp [hpart]), List.drop_left' hpart, List.take_left' hpart] at h
  cases hrest : b2wBurst e wl n bs with
  | none => simp [hrest] at h
  | some p =>
    obtain ⟨rfl, rfl⟩ : b2wWord e wl part :: p.1 = ws ∧ p.2 = rest := by simpa [hrest] using h
    exact ⟨p.1, rfl, rfl⟩

section
variable {i : Instr} {s : State} {part : List Byte}

/-- The row of a byte read in RD: the byte joins the current word (R140). -/
theorem b2wRow_read_holds (b : Byte) (hp : s.phase = .rd) (h : s.B2wHolds i part) :
    ∃ u, b2wRow i.endian i.wl i.n (.read (ofByte b)) s = .next u ∧ u.phase ≠ .idle ∧ u.i = s.i ∧
      u.byteCh = s.byteCh ∧ u.wordCh = s.wordCh ∧ u.B2wHolds i (part ++ [b]) := by
  obtain ⟨hlen, hj, hacc⟩ := (b2wHolds_rd hp).mp h
  have hacc' : toItem i.wl (stepB2W i.endian (s.accW i.wl) (toByte (ofByte b))) =
      b2wWord i.endian i.wl (part ++ [b]) := by
    rw [b2wWord_snoc, ← hacc, toByte_ofByte]
    rfl
  have hlen' : (part ++ [b]).length = s.j + 1 := by simp [hlen]
  obtain hlt | heq := Nat.lt_or_eq_of_le hj
  · refine ⟨_, b2wRow_read_of_lt _ _ hlt, by simp [hp], rfl, rfl, rfl, ?_⟩
    exact (b2wHolds_rd (by exact hp)).mpr ⟨hlen', hlt, hacc'⟩
  · refine ⟨_, b2wRow_read_of_eq _ _ heq, by simp, rfl, rfl, rfl, ?_⟩
    exact (b2wHolds_wr rfl).mpr ⟨hlen'.trans heq, rfl, hacc'⟩

/-- The row of a word written in WR: the next word is begun, or the burst is over (R118). -/
theorem b2wRow_write_holds (v : Item) (hp : s.phase = .wr) (hi : s.i < i.n) (h : s.B2wHolds i part) :
    ∃ u, b2wRow i.endian i.wl i.n (.write v) s = .next u ∧ u.byteCh = s.byteCh ∧ u.wordCh = s.wordCh ∧
      ((s.i + 1 < i.n ∧ u.phase = .rd ∧ u.i = s.i + 1 ∧ u.B2wHolds i []) ∨
        (s.i + 1 = i.n ∧ u.phase = .idle ∧ u.doneR = true)) := by
  obtain ⟨-, hj, -⟩ := (b2wHolds_wr hp).mp h
  obtain hlt | heq := Nat.lt_or_eq_of_le hi
  · refine ⟨_, endWord_of_lt hlt .., rfl, rfl, .inl ⟨hlt, rfl, rfl, ?_⟩⟩
    exact (b2wHolds_rd rfl).mpr ⟨hj.symm, by rw [hj]; exact WordLen_bytes_pos _, (b2wWord_nil ..).symm⟩
  · exact ⟨_, endWord_of_eq heq .., rfl, rfl, .inr ⟨heq, rfl, rfl⟩⟩

end

/-- An invocation of B2W in progress with m edges to go: `part` is taken of the current word, the burst from that word on
gives `ws` and leaves `rest`, and there is room for its words. -/
structure State.B2wDue (i : Instr) (m : Nat) (part rest : List Byte) (ws : List Item) (s : State) : Prop where
  quiet : s.Quiet i
  busy : s.phase ≠ .idle
  inBurst : s.i < i.n
  holds : s.B2wHolds i part
  burst : b2wBurst i.endian i.wl (i.n - s.i) (part ++ s.byteCh.items) = some (ws, rest)
  room : ∀ k, s.wordCh.cap = some k → s.wordCh.items.length + (i.n - s.i) ≤ k
  edges : m + part.length = (i.n - s.i) * (i.wl.bytes + 1)

/-- The end of an invocation of B2W that gives `ws` and leaves `rest`. -/
def State.B2wDone (rest : List Byte) (ws : List Item) (s t : State) : Prop :=
  t.phase = .idle ∧ t.doneR = true ∧ t.byteCh = { s.byteCh with items := rest } ∧
    t.wordCh = { s.wordCh with items := s.wordCh.items ++ ws }

section
variable {i : Instr} {m : Nat} {part rest : List Byte} {ws : List Item} {s : State} (hd : i.dir = .b2w)
include hd

/-- In RD an invocation of B2W in progress takes a byte. -/
theorem b2wDue_read (hp : s.phase = .rd) (h : s.B2wDue i m part rest ws) :
    ∃ u m' b, m = m' + 1 ∧ step s = .next u ∧ u.B2wDue i m' (part ++ [b]) rest ws ∧
      u.byteCh = s.byteCh.pop ∧ u.wordCh = s.wordCh := by
  obtain ⟨hq, -, hi, hholds, hburst, hroom, hedges⟩ := h
  obtain ⟨q, hleft⟩ : ∃ q, i.n - s.i = q + 1 := ⟨i.n - s.i - 1, by omega⟩
  obtain ⟨hlen, hj, -⟩ := (b2wHolds_rd hp).mp hholds
  obtain ⟨b, bs, hitems⟩ := b2wBurst_next (hleft ▸ hburst) (hlen ▸ hj)
  obtain ⟨p, ⟨⟨hacc, hphase, hip, hjp, -⟩, hb, hw⟩, hstep⟩ :=
    step_read hq hp (v := ofByte b) (by simp [hd, State.chanHead, hitems])
  rw [hd] at hb hw
  obtain ⟨u, hrow, hbusy, hiu, hbu, hwu, hu⟩ :=
    b2wRow_read_holds b (hphase.trans hp) ((b2wHolds_congr hphase hacc hjp).mpr hholds)
  have hchan : u.byteCh = s.byteCh.pop := hbu.trans hb
  have hsu : step s = .next u := hstep.trans ((row_b2w hd _ _).trans hrow)
  obtain ⟨m', rfl⟩ : ∃ m', m = m' + 1 := ⟨m - 1, by rw [hleft, Nat.succ_mul] at hedges; omega⟩
  refine ⟨u, m', b, rfl, hsu, ⟨quiet_step hq hsu, hbusy, ?_, hu, ?_, ?_, ?_⟩, hchan, hwu.trans hw⟩
  · rwa [hiu, hip]
  · rw [hiu, hip, hchan, Chan.pop_items, List.append_assoc, ← hburst, hitems]
    rfl
  · rw [hiu, hip, hwu, hw]
    exact hroom
  · rw [hiu, hip, ← hedges, List.length_append, List.length_singleton]
    omega

/-- In WR an invocation of B2W in progress puts out the word, and is over with the last one. -/
theorem b2wDue_write (hp : s.phase = .wr) (h : s.B2wDue i m part rest ws) :
    ∃ u m' v ws', m = m' + 1 ∧ ws = v :: ws' ∧ step s = .next u ∧ u.byteCh = s.byteCh ∧
      u.wordCh = s.wordCh.push v ∧
      (u.B2wDue i m' [] rest ws' ∨
        (m' = 0 ∧ ws' = [] ∧ rest = s.byteCh.items ∧ u.phase = .idle ∧ u.doneR = true)) := by
  obtain ⟨hq, -, hi, hholds, hburst, hroom, hedges⟩ := h
  obtain ⟨q, hleft⟩ : ∃ q, i.n - s.i = q + 1 := ⟨i.n - s.i - 1, by omega⟩
  rw [hleft] at hburst hroom hedges
  obtain ⟨hlen, -⟩ := (b2wHolds_wr hp).mp hholds
  obtain ⟨ws', rfl, hrest⟩ := b2wBurst_whole hburst hlen
  have hspace : s.outRoom i.dir = true := by
    rw [hd]
    exact Chan.room_of_lt fun k hcap => by have := hroom k hcap; omega
  obtain ⟨p, ⟨⟨hacc, hphase, hip, hjp, -⟩, hb, hw⟩, hstep⟩ := step_write hq hp hspace
  have hword : s.outItem i = b2wWord i.endian i.wl part := by
    simpa [State.outItem, hd] using outItem_of_b2wHolds hp hholds
  rw [hd, hword] at hb hw
  obtain ⟨u, hrow, hbu, hwu, hnext⟩ := b2wRow_write_holds (s.outItem i) (hphase.trans hp) (hip ▸ hi)
    ((b2wHolds_congr hphase hacc hjp).mpr hholds)
  have hchan : u.wordCh = s.wordCh.push (b2wWord i.endian i.wl part) := hwu.trans hw
  have hsu : step s = .next u := hstep.trans ((row_b2w hd _ _).trans hrow)
  rw [hlen, Nat.succ_mul] at hedges
  refine ⟨u, q * (i.wl.bytes + 1), _, ws', by omega, rfl, hsu, hbu.trans hb, hchan, ?_⟩
  rw [hip] at hnext
  obtain ⟨hlt, hrd, hiu, hu⟩ | ⟨heq, hidle, hdone⟩ := hnext
  · have hleft' : i.n - u.i = q := by omega
    refine .inl ⟨quiet_step hq hsu, by simp [hrd], by omega, hu, ?_, fun k hcap => ?_, ?_⟩
    · rw [hleft', hbu, hb]
      exact hrest
    · rw [hchan, Chan.push_cap] at hcap
      have := hroom k hcap
      rw [hleft', hchan, Chan.push_items, List.length_append, List.length_singleton]
      omega
    · rw [hleft']
      rfl
  · obtain rfl : q = 0 := by omega
    obtain ⟨rfl, rfl⟩ : [] = ws' ∧ s.byteCh.items = rest := by simpa [b2wBurst] using hrest
    exact .inr ⟨Nat.zero_mul _, rfl, rfl, hidle, hdone⟩

/-- An invocation of B2W in progress ends when its edges are done, with the words of its burst put out (R113). -/
theorem b2wDue_completes (h : s.B2wDue i m part rest ws) : ∃ t, Reaches m s t ∧ s.B2wDone rest ws t := by
  induction m using Nat.strong_induction_on generalizing part ws s with
  | _ m ih =>
    cases hp : s.phase with
    | idle => exact absurd hp h.busy
    | rd =>
      obtain ⟨u, m', b, rfl, hsu, hu, hb, hw⟩ := b2wDue_read hd hp h
      obtain ⟨t, hrun, hidle, hdone, htb, htw⟩ := ih m' (Nat.lt_succ_self m') hu
      exact ⟨t, reaches_succ.mpr ⟨u, hsu, hrun⟩, hidle, hdone, by rw [htb, hb]; rfl, by rw [htw, hw]⟩
    | wr =>
      obtain ⟨u, m', v, ws', rfl, rfl, hsu, hb, hw, hu | ⟨rfl, rfl, rfl, hidle, hdone⟩⟩ := b2wDue_write hd hp h
      · obtain ⟨t, hrun, hidle, hdone, htb, htw⟩ := ih m' (Nat.lt_succ_self m') hu
        refine ⟨t, reaches_succ.mpr ⟨u, hsu, hrun⟩, hidle, hdone, by rw [htb, hb], ?_⟩
        rw [htw, hw, Chan.push, List.append_assoc]
        rfl
      · exact ⟨u, reaches_succ.mpr ⟨u, hsu, reaches_zero.mpr rfl⟩, hidle, hdone, hb, hw⟩

end

/-- Settles O45: the start enters the invocation, whose edges then end it. -/
theorem b2wInvocationCompletes : Obligations.B2wInvocationCompletes := by
  intro i s ws rest hcfg hd hu hp hn hscript hburst hroom
  obtain ⟨u, hsu, hq, hrd, hi, hj, hacc, hb, hw⟩ := step_start hcfg hu hp hn hscript
  have hdue : u.B2wDue i (i.n * (i.wl.bytes + 1)) [] rest ws := by
    refine ⟨hq, by simp [hrd], by omega, ?_, ?_, ?_, ?_⟩
    · exact (b2wHolds_rd hrd).mpr ⟨hj.symm, hj ▸ WordLen_bytes_pos _, by rw [hacc hd, b2wWord_nil]⟩
    · rwa [hi, hb, Nat.sub_zero, List.nil_append]
    · rwa [hi, hw, Nat.sub_zero]
    · rw [hi, Nat.sub_zero]
      rfl
  obtain ⟨t, hrun, hidle, hdone, htb, htw⟩ := b2wDue_completes hd hdue
  exact ⟨t, runFinished_of_start hcfg hu hp hscript hsu hrun hidle, hdone, by rw [htb, hb], by rw [htw, hw]⟩

/-! ### A W2B invocation (R114, R178) -/

/-- A burst that is to go on has a word in the channel, and goes on behind it. -/
theorem w2bBurst_next {e : Endian} {wl : WordLen} {n : Nat} {ws rest : List Item} {bs : List Byte}
    (h : w2bBurst e wl (n + 1) ws = some (bs, rest)) :
    ∃ v ws' bs', ws = v :: ws' ∧ bs = w2bBytes e wl v ++ bs' ∧ w2bBurst e wl n ws' = some (bs', rest) := by
  cases ws with
  | nil => cases h
  | cons v ws =>
    rw [w2bBurst] at h
    cases hrest : w2bBurst e wl n ws with
    | none => simp [hrest] at h
    | some p =>
      obtain ⟨rfl, rfl⟩ : w2bBytes e wl v ++ p.1 = bs ∧ p.2 = rest := by simpa [hrest] using h
      exact ⟨v, ws, p.1, rfl, rfl, hrest⟩

/-- A burst of N words gives N·K bytes (R53). -/
theorem w2bBurst_length {e : Endian} {wl : WordLen} {n : Nat} {ws rest : List Item} {bs : List Byte}
    (h : w2bBurst e wl n ws = some (bs, rest)) : bs.length = n * wl.bytes := by
  rw [w2bBurst_eq] at h
  split_ifs at h with henough
  obtain ⟨rfl, -⟩ : bytesOf e wl (ws.take n) = bs ∧ ws.drop n = rest := by simpa using h
  rw [bytesOf_length, List.length_take_of_le henough]

/-- How many words of its burst a W2B block in an invocation has still to take: in WR the current one is taken. -/
def State.wordsToRead (i : Instr) (s : State) : Nat :=
  match s.phase with
  | .idle => 0
  | .rd => i.n - s.i
  | .wr => i.n - s.i - 1

section
variable {i : Instr} {s : State}

theorem wordsToRead_rd (hp : s.phase = .rd) : s.wordsToRead i = i.n - s.i := by
  simp [State.wordsToRead, hp]

theorem wordsToRead_wr (hp : s.phase = .wr) : s.wordsToRead i = i.n - s.i - 1 := by
  simp [State.wordsToRead, hp]

/-- What is pending and what is still to be taken depends on the registers alone. -/
theorem w2b_congr {p : State} (h : s.SameRegs p) :
    p.w2bPending i = s.w2bPending i ∧ p.wordsToRead i = s.wordsToRead i := by
  obtain ⟨hacc, hphase, hi, hj, -⟩ := h
  simp [State.w2bPending, State.wordsToRead, State.accW, hacc, hphase, hi, hj]

/-- The row of a word read in RD: its bytes are pending, and one word less is to be taken (R178). -/
theorem w2bRow_read_pending (v : Item) (hp : s.phase = .rd) (hi : s.i < i.n) :
    ∃ u, w2bRow i.endian i.wl i.n (.read v) s = .next u ∧ u.byteCh = s.byteCh ∧ u.wordCh = s.wordCh ∧
      u.w2bPending i = w2bBytes i.endian i.wl v ∧ s.wordsToRead i = u.wordsToRead i + 1 ∧
      u.phase ≠ .idle ∧ u.i < i.n ∧ u.j < i.wl.bytes := by
  refine ⟨_, rfl, rfl, rfl, ?_, ?_, by simp, hi, WordLen_bytes_pos _⟩
  · rw [w2bPending_wr rfl, State.accW, ofItem_toItem]
    rfl
  · rw [wordsToRead_rd hp, wordsToRead_wr rfl]
    exact (Nat.sub_add_cancel (Nat.sub_pos_of_lt hi)).symm

/-- The row of a byte written in WR: it was the first one pending; then the invocation goes on or is over (R118, R178). -/
theorem w2bRow_write_pending (v : Item) (hp : s.phase = .wr) (hi : s.i < i.n) (hj : s.j < i.wl.bytes) :
    ∃ u, w2bRow i.endian i.wl i.n (.write v) s = .next u ∧ u.byteCh = s.byteCh ∧ u.wordCh = s.wordCh ∧
      s.w2bPending i = emitW2B i.endian (s.accW i.wl) :: u.w2bPending i ∧ u.wordsToRead i = s.wordsToRead i ∧
      ((u.phase ≠ .idle ∧ u.i < i.n ∧ u.j < i.wl.bytes) ∨ (u.phase = .idle ∧ u.doneR = true)) := by
  obtain hlt | heq := Nat.lt_or_eq_of_le hj
  · refine ⟨_, w2bRow_write_of_lt _ v hlt, rfl, rfl, ?_, ?_, .inl ⟨by simp [hp], hi, hlt⟩⟩
    · rw [w2bPending_eq_cons hp hj, w2bPending_wr (by exact hp), State.accW, State.accW, ofItem_toItem]
    · rw [wordsToRead_wr hp, wordsToRead_wr (by exact hp)]
  · obtain hlt' | heq' := Nat.lt_or_eq_of_le hi
    · refine ⟨_, (w2bRow_write_of_eq _ v heq).trans (endWord_of_lt hlt' ..), rfl, rfl,
        w2bPending_last hp heq (by simp), ?_, .inl ⟨by simp, hlt', WordLen_bytes_pos _⟩⟩
      rw [wordsToRead_wr hp, wordsToRead_rd rfl, Nat.sub_sub]
    · refine ⟨_, (w2bRow_write_of_eq _ v heq).trans (endWord_of_eq heq' ..), rfl, rfl,
        w2bPending_last hp heq (by simp), ?_, .inr ⟨rfl, rfl⟩⟩
      rw [wordsToRead_wr hp, Nat.sub_sub, ← heq', Nat.sub_self]
      rfl

end

/-- An invocation of W2B in progress with m edges to go: the burst of the words still to be taken gives `bs` and leaves
`rest`, and there is room for its bytes behind those of the current word. -/
structure State.W2bDue (i : Instr) (m : Nat) (bs : List Byte) (rest : List Item) (s : State) : Prop where
  quiet : s.Quiet i
  busy : s.phase ≠ .idle
  inBurst : s.i < i.n
  inWord : s.j < i.wl.bytes
  burst : w2bBurst i.endian i.wl (s.wordsToRead i) s.wordCh.items = some (bs, rest)
  room : ∀ k, s.byteCh.cap = some k → s.byteCh.items.length + (s.w2bPending i ++ bs).length ≤ k
  edges : m = (s.w2bPending i).length + s.wordsToRead i * (i.wl.bytes + 1)

/-- The end of an invocation of W2B that gives `bs` and leaves `rest`. -/
def State.W2bDone (bs : List Byte) (rest : List Item) (s t : State) : Prop :=
  t.phase = .idle ∧ t.doneR = true ∧ t.wordCh = { s.wordCh with items := rest } ∧
    t.byteCh = { s.byteCh with items := s.byteCh.items ++ bs }

section
variable {i : Instr} {m : Nat} {bs : List Byte} {rest : List Item} {s : State} (hd : i.dir = .w2b)
include hd

/-- In RD an invocation of W2B in progress takes a word, whose bytes are then pending. -/
theorem w2bDue_read (hp : s.phase = .rd) (h : s.W2bDue i m bs rest) :
    ∃ u m' bs', m = m' + 1 ∧ step s = .next u ∧ u.W2bDue i m' bs' rest ∧ bs = u.w2bPending i ++ bs' ∧
      u.byteCh = s.byteCh ∧ u.wordCh = s.wordCh.pop := by
  obtain ⟨hq, -, hi, -, hburst, hroom, hedges⟩ := h
  have hleft : s.wordsToRead i = i.n - s.i - 1 + 1 := by
    rw [wordsToRead_rd hp]
    omega
  obtain ⟨v, vs, bs', hitems, rfl, hrest⟩ := w2bBurst_next (hleft ▸ hburst)
  obtain ⟨p, ⟨hregs, hb, hw⟩, hstep⟩ := step_read hq hp (v := v) (by simp [hd, State.chanHead, hitems])
  obtain ⟨-, hread⟩ := w2b_congr (i := i) hregs
  obtain ⟨-, hphase, hip, -⟩ := hregs
  obtain ⟨u, hrow, hbu, hwu, hpending, hread', hbusy, hiu, hju⟩ :=
    w2bRow_read_pending v (hphase.trans hp) (hip ▸ hi)
  rw [hd] at hb hw
  have hsu : step s = .next u := hstep.trans ((row_w2b hd _ _).trans hrow)
  have hwords : u.wordCh.items = vs := by rw [hwu, hw, State.move_read_w2b, Chan.pop_items, hitems, List.tail_cons]
  rw [w2bPending_of_ne_wr (by simp [hp]), List.nil_append] at hroom
  rw [w2bPending_of_ne_wr (by simp [hp]), ← hread, hread', Nat.succ_mul, List.length_nil] at hedges
  rw [← hpending] at hroom ⊢
  refine ⟨u, (u.w2bPending i).length + u.wordsToRead i * (i.wl.bytes + 1), bs', ?_, hsu,
    ⟨quiet_step hq hsu, hbusy, hiu, hju, ?_, ?_, rfl⟩, rfl, hbu.trans hb, hwu.trans hw⟩
  · rw [hpending, w2bBytes_length]
    omega
  · have hleft' : u.wordsToRead i = i.n - s.i - 1 := by omega
    rwa [hwords, hleft']
  · rw [hbu, hb]
    exact hroom

/-- In WR an invocation of W2B in progress puts out a byte, and is over with the last one. -/
theorem w2bDue_write (hp : s.phase = .wr) (h : s.W2bDue i m bs rest) :
    ∃ u m' b, m = m' + 1 ∧ step s = .next u ∧ s.w2bPending i = b :: u.w2bPending i ∧
      u.byteCh = s.byteCh.push b ∧ u.wordCh = s.wordCh ∧
      (u.W2bDue i m' bs rest ∨
        (m' = 0 ∧ u.w2bPending i = [] ∧ bs = [] ∧ rest = s.wordCh.items ∧ u.phase = .idle ∧ u.doneR = true)) := by
  obtain ⟨hq, -, hi, hj, hburst, hroom, hedges⟩ := h
  have hspace : s.outRoom i.dir = true := by
    rw [hd]
    refine Chan.room_of_lt fun k hcap => ?_
    have := hroom k hcap
    rw [w2bPending_eq_cons hp hj, List.cons_append, List.length_cons] at this
    omega
  obtain ⟨p, ⟨hregs, hb, hw⟩, hstep⟩ := step_write hq hp hspace
  obtain ⟨hpp, hrp⟩ := w2b_congr (i := i) hregs
  obtain ⟨hacc, hphase, hip, hjp, -⟩ := hregs
  obtain ⟨u, hrow, hbu, hwu, hpending, hread, hnext⟩ :=
    w2bRow_write_pending (s.outItem i) (hphase.trans hp) (hip ▸ hi) (hjp ▸ hj)
  have hbyte : toByte (s.outItem i) = emitW2B i.endian (p.accW i.wl) := by
    simp [State.outItem, hd, State.accW, hacc]
  rw [hd, State.move_write_w2b, hbyte] at hb
  rw [hd, State.move_write_w2b] at hw
  rw [hpp] at hpending
  rw [hrp] at hread
  have hsu : step s = .next u := hstep.trans ((row_w2b hd _ _).trans hrow)
  rw [hpending, List.length_cons] at hedges
  refine ⟨u, (u.w2bPending i).length + s.wordsToRead i * (i.wl.bytes + 1), _, by omega, hsu, hpending, hbu.trans hb,
    hwu.trans hw, ?_⟩
  obtain ⟨hbusy, hiu, hju⟩ | ⟨hidle, hdone⟩ := hnext
  · refine .inl ⟨quiet_step hq hsu, hbusy, hiu, hju, ?_, fun k hcap => ?_, ?_⟩
    · rw [hread, hwu, hw]
      exact hburst
    · rw [hbu, hb, Chan.push_cap] at hcap
      have := hroom k hcap
      rw [hpending, List.cons_append, List.length_cons] at this
      rw [hbu, hb, Chan.push_items, List.length_append, List.length_singleton]
      omega
    · rw [hread]
  · have hnone : s.wordsToRead i = 0 := by
      rw [← hread]
      simp [State.wordsToRead, hidle]
    rw [hnone] at hburst
    obtain ⟨rfl, rfl⟩ : [] = bs ∧ s.wordCh.items = rest := by simpa [w2bBurst] using hburst
    have hempty : u.w2bPending i = [] := w2bPending_of_ne_wr (by simp [hidle])
    exact .inr ⟨by simp [hnone, hempty], hempty, rfl, rfl, hidle, hdone⟩

/-- An invocation of W2B in progress ends when its edges are done, with the pending bytes and those of its burst put out
(R114). -/
theorem w2bDue_completes (h : s.W2bDue i m bs rest) :
    ∃ t, Reaches m s t ∧ s.W2bDone (s.w2bPending i ++ bs) rest t := by
  induction m using Nat.strong_induction_on generalizing bs s with
  | _ m ih =>
    cases hp : s.phase with
    | idle => exact absurd hp h.busy
    | rd =>
      obtain ⟨u, m', bs', rfl, hsu, hu, rfl, hb, hw⟩ := w2bDue_read hd hp h
      obtain ⟨t, hrun, hidle, hdone, htw, htb⟩ := ih m' (Nat.lt_succ_self m') hu
      refine ⟨t, reaches_succ.mpr ⟨u, hsu, hrun⟩, hidle, hdone, by rw [htw, hw]; rfl, ?_⟩
      rw [htb, hb, w2bPending_of_ne_wr (by simp [hp] : s.phase ≠ .wr), List.nil_append]
    | wr =>
      obtain ⟨u, m', b, rfl, hsu, hpending, hb, hw, hu | ⟨rfl, hempty, rfl, rfl, hidle, hdone⟩⟩ :=
        w2bDue_write hd hp h
      · obtain ⟨t, hrun, hidle, hdone, htw, htb⟩ := ih m' (Nat.lt_succ_self m') hu
        refine ⟨t, reaches_succ.mpr ⟨u, hsu, hrun⟩, hidle, hdone, by rw [htw, hw], ?_⟩
        rw [htb, hb, hpending, Chan.push, List.append_assoc]
        rfl
      · refine ⟨u, reaches_succ.mpr ⟨u, hsu, reaches_zero.mpr rfl⟩, hidle, hdone, hw, ?_⟩
        rw [hb, hpending, hempty]
        rfl

end

/-- Settles O46: the start enters the invocation, whose edges then end it. -/
theorem w2bInvocationCompletes : Obligations.W2bInvocationCompletes := by
  intro i s bs rest hcfg hd hu hp hn hscript hburst hroom
  obtain ⟨u, hsu, hq, hrd, hi, hj, -, hb, hw⟩ := step_start hcfg hu hp hn hscript
  have hpending : u.w2bPending i = [] := w2bPending_of_ne_wr (by simp [hrd])
  have hread : u.wordsToRead i = i.n := by rw [wordsToRead_rd hrd, hi, Nat.sub_zero]
  have hdue : u.W2bDue i (i.n * (i.wl.bytes + 1)) bs rest := by
    refine ⟨hq, by simp [hrd], by omega, hj ▸ WordLen_bytes_pos _, ?_, ?_, ?_⟩
    · rwa [hread, hw]
    · rwa [hpending, hb, List.nil_append, w2bBurst_length hburst]
    · rw [hpending, hread, List.length_nil, Nat.zero_add]
  obtain ⟨t, hrun, hidle, hdone, htw, htb⟩ := w2bDue_completes hd hdue
  rw [hpending, List.nil_append] at htb
  exact ⟨t, runFinished_of_start hcfg hu hp hscript hsu hrun hidle, hdone, by rw [htw, hw], by rw [htb, hb]⟩

end Sys2Proof.Machine
end

section
/-! PROOFS for the family of spec/41_bytes_to_word.md. First the accumulator as a sum of its lanes, the bytes of words
that are read in the other byte order and the corner words; then the edges of B2W row by row, and the output that
waits. -/

namespace Sys2Proof.Machine

/-! ### A word as the sum of its lanes (R54) -/

/-- Every lane of the word 0 is 0. -/
@[simp] theorem laneByte_zero_word (w m : Nat) : laneByte 0#w m = 0#8 := by
  simp [laneByte]

section
variable {k : Nat} (e : Endian)

/-- The low lanes of a word, as the number they spell. -/
theorem toNat_mod_eq_sum_laneByte {w : Nat} (v : BitVec w) (m : Nat) :
    v.toNat % 2 ^ (8 * m) = ∑ s ∈ Finset.range m, (laneByte v s).toNat * 2 ^ (8 * s) := by
  induction m with
  | zero => simp [Nat.mod_one]
  | succ m ih =>
    have hlane : (laneByte v m).toNat = v.toNat / 2 ^ (8 * m) % 2 ^ 8 := by
      rw [laneByte, BitVec.extractLsb'_toNat, Nat.shiftRight_eq_div_pow]
    rw [Finset.sum_range_succ, ← ih, hlane, Nat.mul_succ, Nat.pow_add, Nat.mod_mul, Nat.mul_comm (2 ^ (8 * m))]

/-- A word is the sum of its lanes, taken in either byte order. -/
theorem toNat_eq_sum_laneByte_lane (v : BitVec (8 * k)) :
    v.toNat = ∑ s ∈ Finset.range k, (laneByte v (lane e k s)).toNat * 2 ^ (8 * lane e k s) := by
  have hsum := toNat_mod_eq_sum_laneByte v k
  rw [Nat.mod_eq_of_lt v.isLt] at hsum
  cases e with
  | little => exact hsum
  | big => exact hsum.trans (Finset.sum_range_reflect _ k).symm

/-! ### What the accumulator holds after any bytes (R140, R143, R144, R145) -/

theorem shiftTimes_little {w : Nat} (t : Nat) (acc : BitVec w) : shiftTimes .little t acc = acc >>> (8 * t) := by
  induction t with
  | zero => simp
  | succ t ih => rw [shiftTimes_succ', ih, shiftW2B, ← BitVec.shiftRight_add, Nat.mul_succ]

theorem shiftTimes_big {w : Nat} (t : Nat) (acc : BitVec w) : shiftTimes .big t acc = acc <<< (8 * t) := by
  induction t with
  | zero => simp
  | succ t ih => rw [shiftTimes_succ', ih, shiftW2B, ← BitVec.shiftLeft_add, Nat.mul_succ]

theorem shiftW2B_or {w : Nat} (a b : BitVec w) : shiftW2B e (a ||| b) = shiftW2B e a ||| shiftW2B e b := by
  cases e with
  | little => exact BitVec.ushiftRight_or_distrib ..
  | big => exact BitVec.shiftLeft_or_distrib ..

/-- The start value is shifted out as the bytes come in, and the bytes stand where they would in an empty
accumulator. -/
theorem assemble_eq_or (a : BitVec (8 * k)) (bs : List Byte) :
    assemble e a bs = shiftTimes e bs.length a ||| assemble e 0#(8 * k) bs := by
  induction bs using List.reverseRecOn with
  | nil => simp
  | append_singleton bs b ih =>
    simp only [assemble_append, assemble_cons, assemble_nil, List.length_append, List.length_singleton,
      shiftTimes_succ', stepB2W_eq_or]
    rw [ih, shiftW2B_or, BitVec.or_assoc]

/-- The s-th byte read of a whole word is at its serial index. -/
theorem laneByte_assemble_word {s : Nat} {bs : List Byte} (hlen : bs.length = k) (hs : s < k) (a : BitVec (8 * k)) :
    laneByte (assemble e a bs) (lane e k s) = bs.getD s 0#8 := by
  have h := laneByte_assemble e hlen.le (hlen.symm ▸ hs) a
  rw [hlen, Nat.sub_self, Nat.zero_add] at h
  rw [List.getD_eq_getElem?_getD, h, Option.getD_some]

/-- A whole word does not depend on what stood in the accumulator before it. -/
theorem assemble_word_congr {bs : List Byte} (hlen : bs.length = k) (a a' : BitVec (8 * k)) :
    assemble e a bs = assemble e a' bs :=
  eq_of_laneByte_lane e fun _ hs =>
    (laneByte_assemble_word e hlen hs a).trans (laneByte_assemble_word e hlen hs a').symm

/-- Bytes read into an empty accumulator make the sum of them at the last serial indices. -/
theorem toNat_assemble_zero {bs : List Byte} (hlen : bs.length ≤ k) :
    (assemble e 0#(8 * k) bs).toNat =
      ∑ s ∈ Finset.range bs.length, (bs.getD s 0#8).toNat * 2 ^ (8 * lane e k (k - bs.length + s)) := by
  have hsplit : k = k - bs.length + bs.length := by omega
  have hrange : Finset.range k = Finset.range (k - bs.length + bs.length) := congrArg _ hsplit
  rw [toNat_eq_sum_laneByte_lane e, hrange, Finset.sum_range_add, Finset.sum_eq_zero, Nat.zero_add]
  · refine Finset.sum_congr rfl fun s hs => ?_
    have hbyte := laneByte_assemble e hlen (Finset.mem_range.mp hs) 0#(8 * k)
    rw [List.getD_eq_getElem?_getD, hbyte, Option.getD_some]
  · intro s hs
    have hold : s + bs.length < k := by have := Finset.mem_range.mp hs; omega
    rw [laneByte_assemble_old e hold]
    simp

/-- The closed form of the accumulator after at most K bytes, in either byte order. -/
theorem assemble_eq_or_sum {bs : List Byte} (hlen : bs.length ≤ k) (a : BitVec (8 * k)) :
    assemble e a bs = shiftTimes e bs.length a ||| BitVec.ofNat (8 * k)
      (∑ s ∈ Finset.range bs.length, (bs.getD s 0#8).toNat * 2 ^ (8 * lane e k (k - bs.length + s))) := by
  rw [assemble_eq_or, ← toNat_assemble_zero e hlen, BitVec.ofNat_toNat, BitVec.setWidth_eq]

/-- The number that K bytes make from any start value. -/
theorem toNat_assemble_word {bs : List Byte} (hlen : bs.length = k) (a : BitVec (8 * k)) :
    (assemble e a bs).toNat = ∑ s ∈ Finset.range k, (bs.getD s 0#8).toNat * 2 ^ (8 * lane e k s) := by
  rw [toNat_eq_sum_laneByte_lane e]
  refine Finset.sum_congr rfl fun s hs => ?_
  rw [laneByte_assemble_word e hlen (Finset.mem_range.mp hs)]

end

/-- Settles O8: the closed form with the little-endian lanes, where serial index s is lane s. -/
theorem littleEndianAccumulator : Obligations.LittleEndianAccumulator := by
  refine fun k a bs hlen => ⟨?_, fun hk => ⟨toNat_assemble_word .little hk a, fun s hs => ?_⟩⟩
  · rw [assemble_eq_or_sum .little hlen, shiftTimes_little]
    simp only [lane, Nat.mul_add, Nat.mul_sub]
  · exact laneByte_assemble_word .little hk hs a

/-- Settles O9: the closed form with the big-endian lanes, where serial index s is lane K - 1 - s. -/
theorem bigEndianAccumulator : Obligations.BigEndianAccumulator := by
  refine fun k a bs hlen => ⟨?_, fun hk => ⟨toNat_assemble_word .big hk a, fun s hs => ?_⟩⟩
  · have hlane (s : Nat) : lane .big k (k - bs.length + s) = bs.length - 1 - s := by simp only [lane]; omega
    rw [assemble_eq_or_sum .big hlen, shiftTimes_big]
    simp only [hlane]
  · exact laneByte_assemble_word .big hk hs a

/-- Settles O10: K bytes fill every lane. -/
theorem wordIgnoresStartValue : Obligations.WordIgnoresStartValue :=
  fun _ e a a' _ hlen => assemble_word_congr e hlen a a'

/-- Settles O13: the one step fills an accumulator of one byte. -/
theorem singleByteWordIsPassThrough : Obligations.SingleByteWordIsPassThrough :=
  fun e a b => ⟨stepB2W_byte e a b, congrArg (toItem .k1) (stepB2W_byte e _ b)⟩

/-! ### Words read in the other byte order (R237) -/

/-- The serial indices of one byte order are those of the other one from the end (R54). -/
theorem lane_of_ne {e e' : Endian} (h : e ≠ e') {k s : Nat} (hs : s < k) : lane e k s = lane e' k (k - 1 - s) := by
  cases e with
  | little =>
    cases e' with
    | little => exact absurd rfl h
    | big => simp only [lane]; omega
  | big =>
    cases e' with
    | little => rfl
    | big => exact absurd rfl h

/-- The bytes of a word in one byte order are those in the other one, reversed. -/
theorem w2bBytes_eq_reverse {e e' : Endian} (h : e ≠ e') (wl : WordLen) (v : Item) :
    w2bBytes e wl v = (w2bBytes e' wl v).reverse := by
  refine List.ext_getElem? fun s => ?_
  obtain hs | hs := Nat.lt_or_ge s wl.bytes
  · rw [List.getElem?_reverse (by simpa using hs), w2bBytes_length, w2bBytes_getElem? e wl v hs,
      w2bBytes_getElem? e' wl v (by omega), lane_of_ne h hs]
  · rw [List.getElem?_eq_none (by simpa using hs), List.getElem?_eq_none (by simpa using hs)]

/-- The word of K bytes has those bytes. -/
theorem w2bBytes_b2wWord (e : Endian) {wl : WordLen} {bs : List Byte} (hlen : bs.length = wl.bytes) :
    w2bBytes e wl (b2wWord e wl bs) = bs := by
  refine List.ext_getElem? fun s => ?_
  obtain hs | hs := Nat.lt_or_ge s wl.bytes
  · rw [w2bBytes_getElem? e wl _ hs, laneByte_b2wWord e wl hlen hs]
  · rw [List.getElem?_eq_none (by simpa using hs), List.getElem?_eq_none (hlen ▸ hs)]

/-- Settles O18: the word read has, in the order it is read in, the bytes that were written. -/
theorem endiannessMismatchReversesBytes : Obligations.EndiannessMismatchReversesBytes := by
  intro e e' wl v h
  rw [w2bBytes_eq_reverse h wl (b2wWord e' wl _), w2bBytes_b2wWord e' (w2bBytes_length e wl v)]

/-! ### The corner words (R141, R173, R174) -/

section
variable {wl : WordLen} {x y : Byte}

/-- The bytes of a word all of whose lanes are alike. -/
theorem w2bBytes_eq_replicate (e : Endian) {v : BitVec wl.bits} (h : ∀ m < wl.bytes, laneByte v m = x) :
    w2bBytes e wl (toItem wl v) = List.replicate wl.bytes x := by
  refine List.eq_replicate_iff.mpr ⟨w2bBytes_length .., fun b hb => ?_⟩
  obtain ⟨s, hs, rfl⟩ := List.mem_iff_getElem.mp hb
  rw [w2bBytes_length] at hs
  refine Option.some.inj ((List.getElem?_eq_getElem _).symm.trans ?_)
  rw [w2bBytes_getElem? e wl _ hs, ofItem_toItem, h _ (lane_lt e hs)]

/-- The bytes of a word all of whose lanes but the top one are alike. -/
theorem w2bBytes_of_top {v : BitVec wl.bits} (h : ∀ m < wl.bytes, laneByte v m = if m = wl.bytes - 1 then y else x) :
    w2bBytes .little wl (toItem wl v) = List.replicate (wl.bytes - 1) x ++ [y] ∧
      w2bBytes .big wl (toItem wl v) = y :: List.replicate (wl.bytes - 1) x := by
  have hK := WordLen_bytes_pos wl
  have hlittle : w2bBytes .little wl (toItem wl v) = List.replicate (wl.bytes - 1) x ++ [y] := by
    refine List.ext_getElem? fun s => ?_
    obtain hs | hs := Nat.lt_or_ge s wl.bytes
    · rw [w2bBytes_getElem? .little wl _ hs, ofItem_toItem, lane, h s hs]
      obtain hlt | heq := Nat.lt_or_eq_of_le (Nat.le_sub_one_of_lt hs)
      · rw [if_neg hlt.ne, List.getElem?_append_left (by simpa using hlt), List.getElem?_replicate_of_lt hlt]
      · rw [if_pos heq, heq, List.getElem?_append_right (by simp)]
        simp
    · rw [List.getElem?_eq_none (by simpa using hs), List.getElem?_eq_none (by simp; omega)]
  refine ⟨hlittle, ?_⟩
  rw [w2bBytes_eq_reverse (e' := .little) (by decide), hlittle]
  simp

end

section
variable {k m : Nat} (hm : m < k)
include hm

theorem laneByte_not (v : BitVec (8 * k)) : laneByte (~~~v) m = ~~~laneByte v m := by
  apply BitVec.eq_of_getLsbD_eq
  intro x hx
  have hin : 8 * m + x < 8 * k := by omega
  simp [laneByte, hx, hin]

/-- The least signed word has its sign bit alone. -/
theorem laneByte_ofInt_min :
    laneByte (BitVec.ofInt (8 * k) (-(2 ^ (8 * k - 1)))) m = if m = k - 1 then 0x80#8 else 0x00#8 := by
  rw [← BitVec.intMin_eq_neg_two_pow]
  apply BitVec.eq_of_getLsbD_eq
  intro x hx
  have hbit : (laneByte (BitVec.intMin (8 * k)) m).getLsbD x = decide (8 * m + x + 1 = 8 * k) := by
    rw [laneByte, BitVec.getLsbD_extractLsb', BitVec.getLsbD_intMin, decide_eq_true hx, Bool.true_and]
  rw [hbit]
  split
  · have hsign : ∀ x < 8, decide (x = 7) = (0x80#8).getLsbD x := by decide
    rw [← hsign x hx, decide_eq_decide]
    omega
  · rw [decide_eq_false (by omega), BitVec.getLsbD_zero]

end

/-- The pattern of -1 - v is the complement of the pattern of v. -/
theorem ofInt_neg_one_sub (w : Nat) (v : Int) : BitVec.ofInt w (-1 - v) = ~~~BitVec.ofInt w v := by
  rw [sub_eq_neg_add, BitVec.ofInt_add, BitVec.ofInt_neg, BitVec.ofInt_neg, BitVec.not_eq_neg_add,
    BitVec.sub_eq_add_neg]
  rfl

theorem ofInt_neg_one (w : Nat) : BitVec.ofInt w (-1) = ~~~0#w :=
  ofInt_neg_one_sub w 0

section
variable (wl : WordLen)

/-- The bytes of the signed word -1. -/
theorem w2bBytes_neg_one (e : Endian) : w2bBytes e wl (patternW wl (-1)) = List.replicate wl.bytes 0xFF#8 := by
  refine w2bBytes_eq_replicate e fun m hm => ?_
  rw [ofInt_neg_one]
  exact (laneByte_not hm _).trans (congrArg (~~~·) (laneByte_zero_word ..))

/-- The bytes of the least signed word. -/
theorem w2bBytes_min :
    w2bBytes .little wl (patternW wl (-(2 ^ (wl.bits - 1)))) = List.replicate (wl.bytes - 1) 0x00#8 ++ [0x80#8] ∧
      w2bBytes .big wl (patternW wl (-(2 ^ (wl.bits - 1)))) = 0x80#8 :: List.replicate (wl.bytes - 1) 0x00#8 :=
  w2bBytes_of_top fun _ hm => laneByte_ofInt_min hm

/-- The bytes of the greatest signed word, the complement of the least one. -/
theorem w2bBytes_max :
    w2bBytes .little wl (patternW wl (2 ^ (wl.bits - 1) - 1)) = List.replicate (wl.bytes - 1) 0xFF#8 ++ [0x7F#8] ∧
      w2bBytes .big wl (patternW wl (2 ^ (wl.bits - 1) - 1)) = 0x7F#8 :: List.replicate (wl.bytes - 1) 0xFF#8 := by
  refine w2bBytes_of_top fun m hm => ?_
  have hneg : (2 ^ (wl.bits - 1) - 1 : Int) = -1 - -(2 ^ (wl.bits - 1)) := by omega
  rw [hneg, ofInt_neg_one_sub]
  refine (laneByte_not hm _).trans ((congrArg (~~~·) (laneByte_ofInt_min hm)).trans ?_)
  split <;> rfl

/-- The word of K bytes 0x00. -/
theorem unsignedOf_zeros (e : Endian) : unsignedOf wl (b2wWord e wl (List.replicate wl.bytes 0x00#8)) = 0 := by
  have hbytes : w2bBytes e wl (toItem wl 0#wl.bits) = List.replicate wl.bytes 0x00#8 :=
    w2bBytes_eq_replicate e fun m _ => laneByte_zero_word ..
  rw [← hbytes, b2wWord_w2bBytes (fits_toItem ..), unsignedOf, ofItem_toItem]
  rfl

/-- The word of K bytes 0xFF is the pattern of -1. -/
theorem unsignedOf_ones (e : Endian) :
    unsignedOf wl (b2wWord e wl (List.replicate wl.bytes 0xFF#8)) = 2 ^ wl.bits - 1 := by
  have hword : b2wWord e wl (List.replicate wl.bytes 0xFF#8) = patternW wl (-1) := by
    rw [← w2bBytes_neg_one wl e, b2wWord_w2bBytes (by simp [patternW])]
  rw [hword, unsignedOf, patternW, ofItem_toItem, ofInt_neg_one, BitVec.toNat_not]
  rfl

end

/-- Settles O19: the bytes of a corner word are its lanes, and K equal bytes make the word that has them. -/
theorem cornerWordsAndBytes : Obligations.CornerWordsAndBytes := by
  intro e wl
  obtain ⟨hminLittle, hminBig⟩ := w2bBytes_min wl
  obtain ⟨hmaxLittle, hmaxBig⟩ := w2bBytes_max wl
  exact ⟨w2bBytes_neg_one wl e, hminLittle, hminBig, hmaxLittle, hmaxBig, unsignedOf_zeros wl e,
    unsignedOf_ones wl e⟩

/-! ### The rows of B2W (R148) -/

section
variable {s : State} {wl : WordLen} {n : Nat}

/-- B2W writes a word that is not the last one of its burst. -/
theorem b2wRow_write_of_lt (e : Endian) (v : Item) (hi : s.i + 1 < n) :
    b2wRow e wl n (.write v) s = .next { s with i := s.i + 1, acc := 0#64, phase := .rd, doneR := false } :=
  endWord_of_lt hi ..

/-- B2W writes the last word of a burst. -/
theorem b2wRow_write_of_eq (e : Endian) (v : Item) (hi : s.i + 1 = n) :
    b2wRow e wl n (.write v) s = .next { s with phase := .idle, doneR := true } :=
  endWord_of_eq hi ..

end

section
variable {i : Instr} {s : State} (hu : s.unreset = none) (hr : s.pins.rst = false)
include hu hr

/-- An edge without reset waits where no start is requested in IDLE and its phase's handshake does not happen. -/
theorem exec_waits (hidle : s.phase = .idle → s.pins.start = false) (hrd : s.phase = .rd → s.inValid i.dir = false)
    (hwr : s.phase = .wr → s.outReady i.dir = false) : exec i s = .next { s with doneR := false } :=
  exec_quiet hu hr (eventAt_none.mpr ⟨fun hp => by simp [hidle hp], hrd, hwr⟩)

/-- An edge without reset in IDLE at which a start is requested is the Start row. -/
theorem exec_of_start (hp : s.phase = .idle) (hs : s.pins.start = true) : exec i s = row i .start s :=
  exec_row hu hr (eventAt_start.mpr ⟨hp, hs, hr⟩)

variable (hd : i.dir = .b2w)
include hd

/-- A B2W edge at which a byte is transferred in is the row of its read. -/
theorem exec_b2w_read {b : Byte} (hp : s.phase = .rd) (hv : s.inValid .b2w = true)
    (hhead : s.inHead .b2w = some (ofByte b)) :
    exec i s = b2wRow i.endian i.wl i.n (.read (ofByte b)) (s.move .b2w (.read (ofByte b))) := by
  have hoffer : s.pins.offer = true := (Bool.and_eq_true_iff.mp hv).1
  rw [exec_of_read hp hoffer (hd ▸ hhead) hu hr, row_b2w hd, hd]

/-- A B2W edge at which a word is transferred out is the row of the write of the accumulator. -/
theorem exec_b2w_write (hp : s.phase = .wr) (hready : s.outReady .b2w = true) (hfit : fits i.wl s.acc = true) :
    exec i s = b2wRow i.endian i.wl i.n (.write s.acc) (s.move .b2w (.write s.acc)) := by
  have hout : s.outItem i = s.acc := by simp [State.outItem, hd, State.accW, toItem_ofItem hfit]
  rw [exec_row hu hr (eventAt_write.mpr ⟨hp, hd ▸ hready, rfl⟩), row_b2w hd, hout, hd]

end

/-- Settles O22: where nothing is transferred the block waits, and each transfer is its row. -/
theorem b2wStateMachine : Obligations.B2wStateMachine := by
  intro i s hd hu hr
  refine ⟨fun hp hs => ?_, fun hp hs hn => ?_, fun hp hs hn => ?_, fun hp hv => ?_, fun b hp hv hhead hj => ?_,
    fun b hp hv hhead hj => ?_, fun hp hready => ?_, fun hp hready hfit hi => ?_, fun hp hready hfit hi => ?_⟩
  · exact exec_waits hu hr (fun _ => hs) (by simp [hp]) (by simp [hp])
  · rw [exec_of_start hu hr hp hs, row_b2w hd]
    exact if_pos hn
  · rw [exec_of_start hu hr hp hs, row_b2w hd]
    exact if_neg hn.ne'
  · exact exec_waits hu hr (by simp [hp]) (fun _ => hd ▸ hv) (by simp [hp])
  · rw [exec_b2w_read hu hr hd hp hv hhead, b2wRow_read_of_lt _ _ (by simpa using hj), toByte_ofByte]
    rfl
  · rw [exec_b2w_read hu hr hd hp hv hhead, b2wRow_read_of_eq _ _ (by simpa using hj), toByte_ofByte]
    rfl
  · exact exec_waits hu hr (by simp [hp]) (by simp [hp]) (fun _ => hd ▸ hready)
  · rw [exec_b2w_write hu hr hd hp hready hfit, b2wRow_write_of_lt _ _ (by simpa using hi)]
    rfl
  · rw [exec_b2w_write hu hr hd hp hready hfit, b2wRow_write_of_eq _ _ (by simpa using hi)]
    rfl

/-! ### An output that waits (R123) -/

/-- Settles O35: without its handshake a block in WR waits, and the environment's moves leave phase and accumulator. -/
theorem waitingOutputIsStable : Obligations.WaitingOutputIsStable := by
  intro i s hcfg hu hvalid hr hout
  have hp : s.phase = .wr := by simpa [State.outPorts, State.outValid] using hvalid
  have hready : (s.present i.dir).outReady i.dir = false := by
    simpa [State.transferOut, State.outValid, hp] using hout
  refine ⟨{ s.present i.dir with doneR := false }, ?_, ?_, ?_⟩
  · rw [step_ok hcfg]
    exact exec_waits (by rw [State.present_unreset, hu]) hr (by simp [hp]) (by simp [hp]) (fun _ => hready)
  · simp [State.outPorts, State.outValid, hp]
  · rw [outData_of_valid (by simp [State.outValid, hp]), outData_of_valid hvalid]
    exact outItem_congr (State.present_acc s i.dir)

end Sys2Proof.Machine
end

section
/-! PROOFS for the family of spec/42_word_to_bytes.md. First what the accumulator holds and emits as a word is shifted
out, in either byte order; then the edges of W2B row by row, and the two signednesses. -/

namespace Sys2Proof.Machine

/-! ### What is emitted of a word (R170, R175, R177, R180) -/

section
variable {k : Nat} (e : Endian)

/-- The byte at the front of the accumulator after t emissions is the one of serial index t. -/
theorem emitW2B_shiftTimes {t : Nat} (ht : t < k) (w : BitVec (8 * k)) :
    emitW2B e (shiftTimes e t w) = laneByte w (lane e k t) := by
  rw [emitW2B_eq_laneByte, laneByte_shiftTimes e (by omega), Nat.zero_add]

/-- Once K bytes are emitted nothing of the word is left. -/
theorem shiftTimes_all (w : BitVec (8 * k)) : shiftTimes e k w = 0#(8 * k) := by
  cases e with
  | little => rw [shiftTimes_little, BitVec.ushiftRight_eq_zero le_rfl]
  | big => rw [shiftTimes_big, BitVec.shiftLeft_eq_zero le_rfl]

/-- The bytes emitted in one byte order are those emitted in the other one, reversed: serial index s of the one is
serial index K - 1 - s of the other. For every K, where `w2bBytes_eq_reverse` is of the admitted widths. -/
theorem emitBytes_eq_reverse {e e' : Endian} (h : e ≠ e') (w : BitVec (8 * k)) :
    emitBytes e k w = (emitBytes e' k w).reverse := by
  refine List.ext_getElem? fun s => ?_
  obtain hs | hs := Nat.lt_or_ge s k
  · rw [List.getElem?_reverse (by simpa using hs), emitBytes_length, emitBytes_getElem?_eq_laneByte e hs,
      emitBytes_getElem?_eq_laneByte e' (by omega), lane_of_ne h hs]
  · rw [List.getElem?_eq_none (by simpa using hs), List.getElem?_eq_none (by simpa using hs)]

end

/-- Settles O11: each emission shifts the accumulator by one lane and puts out its lane at serial index 0. -/
theorem emissionFollowsLanes : Obligations.EmissionFollowsLanes :=
  fun _ w t _ => ⟨shiftTimes_little t w, shiftTimes_big t w, fun ht e =>
    ⟨emitW2B_shiftTimes e ht w, emitBytes_getElem?_eq_laneByte e ht w⟩⟩

/-- Settles O12: K shifts by a lane discard all K lanes, and the one lane of a word of one byte is the word. -/
theorem emissionDrainsAccumulator : Obligations.EmissionDrainsAccumulator :=
  ⟨fun _ e w => shiftTimes_all e w, fun e w => congrArg (· :: []) (emitW2B_byte e w)⟩

/-- Settles O14: the two byte orders take the lanes from opposite ends. -/
theorem endiannessSymmetry : Obligations.EndiannessSymmetry :=
  fun _ w => emitBytes_eq_reverse (by decide) w

/-! ### The rows of W2B (R178) -/

section
variable {s : State} {wl : WordLen} {n : Nat} (e : Endian) (v : Item) (hj : s.j + 1 = wl.bytes)
include hj

/-- W2B writes the last byte of a word that is not the last one of its burst. -/
theorem w2bRow_write_next_word (hi : s.i + 1 < n) :
    w2bRow e wl n (.write v) s = .next { s with
      acc := toItem wl (shiftW2B e (s.accW wl)), j := 0, i := s.i + 1, phase := .rd, doneR := false } :=
  (w2bRow_write_of_eq e v hj).trans (endWord_of_lt hi ..)

/-- W2B writes the last byte of a burst. -/
theorem w2bRow_write_last_word (hi : s.i + 1 = n) :
    w2bRow e wl n (.write v) s = .next { s with
      acc := toItem wl (shiftW2B e (s.accW wl)), phase := .idle, doneR := true } :=
  (w2bRow_write_of_eq e v hj).trans (endWord_of_eq hi ..)

end

section
variable {i : Instr} {s : State} (hu : s.unreset = none) (hr : s.pins.rst = false) (hd : i.dir = .w2b)
include hu hr hd

/-- A W2B edge at which a word is transferred in is the row of its read. -/
theorem exec_w2b_read {v : Item} (hp : s.phase = .rd) (hv : s.inValid .w2b = true) (hhead : s.inHead .w2b = some v) :
    exec i s = w2bRow i.endian i.wl i.n (.read v) { s with wordCh := s.wordCh.pop } := by
  have hoffer : s.pins.offer = true := (Bool.and_eq_true_iff.mp hv).1
  rw [exec_of_read hp hoffer (hd ▸ hhead) hu hr, row_w2b hd, hd, State.move_read_w2b]

/-- A W2B edge at which a byte is transferred out is the row of the write of the byte emitted (R35). -/
theorem exec_w2b_write (hp : s.phase = .wr) (hready : s.outReady .w2b = true) :
    exec i s = w2bRow i.endian i.wl i.n (.write (ofByte (emitW2B i.endian (s.accW i.wl))))
      { s with byteCh := s.byteCh.push (emitW2B i.endian (s.accW i.wl)) } := by
  have hout : s.outItem i = ofByte (emitW2B i.endian (s.accW i.wl)) := by simp [State.outItem, hd]
  rw [exec_row hu hr (eventAt_write.mpr ⟨hp, hd ▸ hready, rfl⟩), row_w2b hd, hout, hd, State.move_write_w2b,
    toByte_ofByte]

end

/-- Settles O23: where nothing is transferred the block waits, and each transfer is its row. -/
theorem w2bStateMachine : Obligations.W2bStateMachine := by
  intro i s hd hu hr
  refine ⟨fun hp hs => ?_, fun hp hs hn => ?_, fun hp hs hn => ?_, fun hp hv => ?_, fun v hp hv hhead => ?_,
    fun hp hready => ?_, fun hp hready hj => ?_, fun hp hready hj hi => ?_, fun hp hready hj hi => ?_⟩
  · exact exec_waits hu hr (fun _ => hs) (by simp [hp]) (by simp [hp])
  · rw [exec_of_start hu hr hp hs, row_w2b hd]
    exact if_pos hn
  · rw [exec_of_start hu hr hp hs, row_w2b hd]
    exact if_neg hn.ne'
  · exact exec_waits hu hr (by simp [hp]) (fun _ => hd ▸ hv) (by simp [hp])
  · exact exec_w2b_read hu hr hd hp hv hhead
  · exact exec_waits hu hr (by simp [hp]) (by simp [hp]) (fun _ => hd ▸ hready)
  · exact (exec_w2b_write hu hr hd hp hready).trans (w2bRow_write_of_lt _ _ hj)
  · exact (exec_w2b_write hu hr hd hp hready).trans (w2bRow_write_next_word _ _ hj hi)
  · exact (exec_w2b_write hu hr hd hp hready).trans (w2bRow_write_last_word _ _ hj hi)

/-! ### Signedness (R176) -/

/-- Settles O32: the signed and the unsigned instruction of a byte order have one block, the same rows and the same output
item, since the rows read the accumulator's pattern and no sign. -/
theorem signednessChangesNothing : Obligations.SignednessChangesNothing :=
  fun _ _ _ _ => ⟨exec_congr rfl rfl rfl, exec_congr rfl rfl rfl⟩

end Sys2Proof.Machine
end

section
/-! PROOFS for the family of spec/60_exceptions.md. First the one event of a phase, and that no step traps; then a
stalled block left alone; last the blocks of a system, what one edge of them leaves unchanged, and the two that carry
words through a byte channel. -/

namespace Sys2Proof.Machine

/-! ### The event of a phase (R117, R208) -/

/-- The one event other than Reset that can be enabled in a phase. -/
def Phase.event : Phase → TxEvent
  | .idle => .start
  | .rd => .read
  | .wr => .write

/-- An event other than Reset is enabled in its own phase only. -/
theorem eq_event_of_txEnabled {i : Instr} {s : State} {ev : TxEvent} (hne : ev ≠ .reset)
    (h : txEnabled i s ev = true) : ev = s.phase.event := by
  cases ev with
  | start =>
    obtain ⟨hp, -⟩ : s.phase = .idle ∧ s.pins.start = true := by simpa [txEnabled, State.idle] using h
    rw [hp, Phase.event]
  | read =>
    obtain ⟨hp, -⟩ : s.phase = .rd ∧ _ := by simpa [txEnabled, State.inReady] using h
    rw [hp, Phase.event]
  | write =>
    obtain ⟨hp, -⟩ : s.phase = .wr ∧ _ := by simpa [txEnabled, State.outValid] using h
    rw [hp, Phase.event]
  | reset => exact absurd rfl hne

/-- Settles O37: each of the two is the event of the phase. -/
theorem atMostOneEventEnabled : Obligations.AtMostOneEventEnabled := by
  intro i s a b _ ha hb hea heb
  rw [eq_event_of_txEnabled ha hea, eq_event_of_txEnabled hb heb]

/-! ### No step traps (R200) -/

/-- Settles O43: the environment's moves keep the invariant, and in the ranges of R20 an edge answers. -/
theorem noRuntimeException : Obligations.NoRuntimeException := by
  refine ⟨?_, fun _ _ hrange => hrange.exec_answers⟩
  rintro s ⟨i, hcfg, hinv⟩
  obtain ⟨hrange, -⟩ := present_invFor hinv i.dir
  rw [step_ok hcfg]
  exact hrange.exec_answers

/-! ### A stalled block (R202, R203, R211) -/

/-- A stalled block is in an invocation. -/
theorem State.Stalled.busy {i : Instr} {s : State} (h : s.Stalled i) : s.phase ≠ .idle := by
  obtain ⟨hp, -⟩ | ⟨hp, -⟩ := h <;> simp [hp]

/-- In an invocation, stalled means that no event but Reset is enabled (R117). -/
theorem stalled_iff_txNone {i : Instr} {s : State} (hp : s.phase ≠ .idle) : s.Stalled i ↔ txNone i s = true := by
  cases hphase : s.phase with
  | idle => exact absurd hphase hp
  | rd => simp [State.Stalled, txNone, txEnabled, State.idle, State.inReady, State.outValid, hphase]
  | wr => simp [State.Stalled, txNone, txEnabled, State.idle, State.inReady, State.outValid, hphase]

/-- An edge without reset leaves a stalled block as it is, but for done_r. -/
theorem exec_of_stalled {i : Instr} {s : State} (hu : s.unreset = none) (h : s.Stalled i) (hr : s.pins.rst = false) :
    exec i s = .next { s with doneR := false } := by
  refine exec_waits hu hr (fun hp => absurd hp h.busy) (fun hp => ?_) (fun hp => ?_)
  · obtain ⟨-, hhead⟩ | ⟨hwr, -⟩ := h
    · simp [State.inValid, hhead]
    · simp [hp] at hwr
  · obtain ⟨hrd, -⟩ | ⟨-, hroom⟩ := h
    · simp [hp] at hrd
    · simp [State.outReady, hroom]

/-- All of R20's items but done_r, and both channels, are those of s. -/
def State.Held (s t : State) : Prop :=
  t.phase = s.phase ∧ t.acc = s.acc ∧ t.i = s.i ∧ t.j = s.j ∧ t.byteCh = s.byteCh ∧ t.wordCh = s.wordCh

theorem State.Held.refl (s : State) : s.Held s := ⟨rfl, rfl, rfl, rfl, rfl, rfl⟩

theorem State.Held.trans {s t u : State} (h : s.Held t) (h' : t.Held u) : s.Held u := by
  obtain ⟨hp, hacc, hi, hj, hb, hw⟩ := h
  obtain ⟨hp', hacc', hi', hj', hb', hw'⟩ := h'
  exact ⟨hp'.trans hp, hacc'.trans hacc, hi'.trans hi, hj'.trans hj, hb'.trans hb, hw'.trans hw⟩

section
variable {i : Instr} {s : State} (hq : s.Quiet i)
include hq

/-- With a quiet environment the edge to come is stalled exactly where the input channel is empty in RD, or the output
channel full in WR. -/
theorem stalled_present_iff : (s.present i.dir).Stalled i ↔
    (s.phase = .rd ∧ s.chanHead i.dir = none) ∨ (s.phase = .wr ∧ s.outRoom i.dir = false) := by
  obtain ⟨-, -, hscript⟩ := hq
  obtain ⟨hb, hw⟩ := present_quiet_channels hscript i.dir
  obtain ⟨hhead, hroom, -⟩ := channels_congr hb hw i.dir
  rw [State.Stalled, State.present_phase, inHead_of_not_driven (by rw [present_quiet_pins hscript]), hhead, hroom]

/-- What is held decides whether the edge to come is stalled. -/
theorem stalled_present_congr {t : State} (hqt : t.Quiet i) (h : s.Held t) :
    (t.present i.dir).Stalled i ↔ (s.present i.dir).Stalled i := by
  obtain ⟨hp, -, -, -, hb, hw⟩ := h
  obtain ⟨hhead, hroom, -⟩ := channels_congr hb hw i.dir
  rw [stalled_present_iff hq, stalled_present_iff hqt, hp, hhead, hroom]

/-- With a quiet environment a step leaves a stalled block stalled. -/
theorem step_of_stalled (h : (s.present i.dir).Stalled i) :
    ∃ t, step s = .next t ∧ t.Quiet i ∧ (t.present i.dir).Stalled i ∧ s.Held t ∧ t.doneR = false := by
  have ⟨hcfg, hu, hscript⟩ := hq
  obtain ⟨hb, hw⟩ := present_quiet_channels hscript i.dir
  have hstep : step s = .next { s.present i.dir with doneR := false } := by
    rw [step_ok hcfg]
    exact exec_of_stalled (by simpa using hu) h (by rw [present_quiet_pins hscript])
  have hheld : s.Held { s.present i.dir with doneR := false } := by
    refine ⟨?_, ?_, ?_, ?_, hb, hw⟩ <;> simp
  have hqt := quiet_step hq hstep
  exact ⟨_, hstep, hqt, (stalled_present_congr hq hqt hheld).mpr h, hheld, rfl⟩

/-- With a quiet environment a stalled block is stalled after any number of steps, and holds its state. -/
theorem reaches_of_stalled (h : (s.present i.dir).Stalled i) (k : Nat) :
    ∃ t, Reaches k s t ∧ t.Quiet i ∧ (t.present i.dir).Stalled i ∧ s.Held t ∧ (0 < k → t.doneR = false) := by
  induction k with
  | zero => exact ⟨s, reaches_zero.mpr rfl, hq, h, .refl s, by simp⟩
  | succ k ih =>
    obtain ⟨t, hrun, hqt, hstall, hheld, -⟩ := ih
    obtain ⟨u, hstep, hqu, hstall', hheld', hdone⟩ := step_of_stalled hqt hstall
    have hlast : Reaches 1 t u := reaches_succ.mpr ⟨u, hstep, reaches_zero.mpr rfl⟩
    exact ⟨u, reaches_add hrun hlast, hqu, hstall', hheld.trans hheld', fun _ => hdone⟩

end

/-- Settles O36: a stalled edge has no event, so nothing moves until the environment does. -/
theorem stallWaitsWithoutLimit : Obligations.StallWaitsWithoutLimit := by
  refine ⟨fun _ _ _ hp => stalled_iff_txNone hp, fun _ _ hu h hr => exec_of_stalled hu h hr, ?_⟩
  intro i s k hcfg hu h hscript
  obtain ⟨t, hrun, -, hstall, hheld, hdone⟩ := reaches_of_stalled ⟨hcfg, hu, hscript⟩ h k
  obtain ⟨hp, hacc, hi, hj, hb, hw⟩ := hheld
  refine ⟨t, hrun, hstall, ?_, hp, hacc, hi, hj, hb, hw, hdone⟩
  rintro m r ⟨-, -, -, hidle, -⟩
  exact hstall.busy (by rw [State.present_phase, hidle])

/-! ### One block of a system (R210) -/

/-- The byte channel a block is bound to. -/
def Inst.byteId (x : Inst) : Nat :=
  match x.dir with
  | .b2w => x.inId
  | .w2b => x.outId

/-- The word channel a block is bound to. -/
def Inst.wordId (x : Inst) : Nat :=
  match x.dir with
  | .b2w => x.outId
  | .w2b => x.inId

/-- A block is loaded with its configuration and the two channels it is bound to. -/
theorem load_eq_some {sys : System} {x : Inst} {s : State} :
    sys.load x = some s ↔ ∃ b w, sys.byteChs[x.byteId]? = some b ∧ sys.wordChs[x.wordId]? = some w ∧
      s = { x.st with cfg := .ok x.cfg, byteCh := b, wordCh := w } := by
  unfold System.load Inst.byteId Inst.wordId
  cases x.dir with
  | b2w => cases sys.byteChs[x.inId]? <;> cases sys.wordChs[x.outId]? <;> simp [eq_comm]
  | w2b => cases sys.wordChs[x.inId]? <;> cases sys.byteChs[x.outId]? <;> simp [eq_comm]

@[simp] theorem Inst.byteId_withSt (x : Inst) (t : State) : ({ x with st := t } : Inst).byteId = x.byteId := rfl
@[simp] theorem Inst.wordId_withSt (x : Inst) (t : State) : ({ x with st := t } : Inst).wordId = x.wordId := rfl

/-- Storing a block sets the block and the two channels it is bound to. -/
theorem store_eq (sys : System) (k : Nat) (x : Inst) (t : State) :
    sys.store k x t = { insts := sys.insts.set k { x with st := t }
                        byteChs := sys.byteChs.set x.byteId t.byteCh
                        wordChs := sys.wordChs.set x.wordId t.wordCh } := by
  unfold System.store Inst.byteId Inst.wordId
  cases x.dir <;> rfl

/-- Settles O51: the edge stores one block and the two channels it is bound to. -/
theorem instancesAreIndependent : Obligations.InstancesAreIndependent := by
  intro sys sys' k x hx hstep
  obtain ⟨y, -, t, hy, -, -, rfl⟩ := stepInst_cases hstep
  obtain rfl := Option.some.inj (hx.symm.trans hy)
  rw [store_eq]
  exact ⟨List.length_set, fun _ hm => List.getElem?_set_ne hm.symm, fun _ hb => List.getElem?_set_ne (Ne.symm hb),
    fun _ hw => List.getElem?_set_ne (Ne.symm hw)⟩

/-! ### A run of one block of a system (R210) -/

section
variable {sys : System} {k : Nat} {x : Inst} {s t : State}

/-- What a block is loaded with after it was stored is the state stored. -/
theorem load_store (hl : sys.load x = some s) (hcfg : t.cfg = .ok x.cfg) :
    (sys.store k x t).load { x with st := t } = some t := by
  obtain ⟨b, w, hb, hw, -⟩ := load_eq_some.mp hl
  obtain ⟨hb, -⟩ := List.getElem?_eq_some_iff.mp hb
  obtain ⟨hw, -⟩ := List.getElem?_eq_some_iff.mp hw
  rw [store_eq]
  refine load_eq_some.mpr ⟨t.byteCh, t.wordCh, List.getElem?_set_self hb, List.getElem?_set_self hw, ?_⟩
  rw [← hcfg]

/-- Of two states of one block the second one stored stays. -/
theorem store_store (u : State) : (sys.store k x t).store k { x with st := t } u = sys.store k x u := by
  simp [store_eq]

/-- The edge of a block is the step of its state. -/
theorem stepInst_of_step (hx : sys.insts[k]? = some x) (hl : sys.load x = some s) (h : step s = .next t) :
    sys.stepInst k = .next (sys.store k x t) := by
  simp [System.stepInst, hx, hl, h]

/-- A step keeps the configuration (R21). -/
theorem step_cfg {i : Instr} (hcfg : s.cfg = .ok i) (h : step s = .next t) : t.cfg = .ok i := by
  rw [step_ok hcfg] at h
  obtain ⟨⟨hcfg', -⟩, -⟩ := exec_frame h
  rw [hcfg', State.present_cfg, hcfg]

/-- A run of one block alone is the run of its state. -/
theorem run_replicate {m : Nat} (hx : sys.insts[k]? = some x) (hl : sys.load x = some s) (hrun : Reaches (m + 1) s t) :
    System.run (List.replicate (m + 1) k) sys = .next (sys.store k x t) := by
  induction m generalizing sys x s with
  | zero =>
    obtain ⟨u, hstep, hu⟩ := reaches_succ.mp hrun
    obtain rfl := reaches_zero.mp hu
    exact run_cons.mpr ⟨_, stepInst_of_step hx hl hstep, rfl⟩
  | succ m ih =>
    obtain ⟨u, hstep, hrest⟩ := reaches_succ.mp hrun
    have hcfg : s.cfg = .ok x.cfg := by
      obtain ⟨b, w, -, -, rfl⟩ := load_eq_some.mp hl
      rfl
    have hx' : (sys.store k x u).insts[k]? = some { x with st := u } := by
      obtain ⟨hk, -⟩ := List.getElem?_eq_some_iff.mp hx
      rw [store_eq]
      exact List.getElem?_set_self hk
    have hrun' := ih hx' (load_store hl (step_cfg hcfg hstep)) hrest
    rw [store_store] at hrun'
    exact run_cons.mpr ⟨_, stepInst_of_step hx hl hstep, hrun'⟩

end

/-! ### Whole invocations of any length (R113, R114, R115) -/

section
variable {i : Instr} {s : State} {bs : List Byte} {ws : List Item} (hcfg : s.cfg = .ok i) (hu : s.unreset = none)
  (hp : s.phase = .idle) (hscript : s.script = [⟨⟨false, true, true, true, none⟩, 0, 0⟩])
include hcfg hu hp hscript

/-- An empty burst that is started takes one edge and leaves the channels as they are (R115). -/
theorem reaches_of_empty (hn : i.n = 0) :
    ∃ t, Reaches 1 s t ∧ t.phase = .idle ∧ t.byteCh = s.byteCh ∧ t.wordCh = s.wordCh := by
  obtain ⟨t, hstep, hidle, hb, hw, -⟩ := emptyBurstMakesNoTransfer i s hcfg hu hn hp
  have hsame : (s.present i.dir).byteCh = s.byteCh ∧ (s.present i.dir).wordCh = s.wordCh := by
    cases i.dir <;> simp [hscript]
  exact ⟨t, reaches_succ.mpr ⟨t, hstep, reaches_zero.mpr rfl⟩, hidle, hb.trans hsame.1, hw.trans hsame.2⟩

/-- A started W2B whose burst takes all its words has put their bytes out and is in IDLE again (R114). -/
theorem w2b_reaches_idle (hd : i.dir = .w2b) (hcap : s.byteCh.cap = none)
    (hburst : w2bBurst i.endian i.wl i.n s.wordCh.items = some (bs, [])) :
    ∃ t, Reaches (1 + i.n * (i.wl.bytes + 1)) s t ∧ t.phase = .idle ∧
      t.wordCh = { s.wordCh with items := [] } ∧ t.byteCh = { s.byteCh with items := s.byteCh.items ++ bs } := by
  obtain hn | hn := Nat.eq_zero_or_pos i.n
  · obtain ⟨t, hrun, hidle, hb, hw⟩ := reaches_of_empty hcfg hu hp hscript hn
    obtain ⟨rfl, hitems⟩ : [] = bs ∧ s.wordCh.items = [] := by simpa [hn, w2bBurst] using hburst
    refine ⟨t, by rwa [hn, Nat.zero_mul], hidle, ?_, ?_⟩
    · rw [hw, ← hitems]
    · rw [hb, List.append_nil]
  · obtain ⟨t, ⟨-, -, hrun, hidle, -⟩, -, hw, hb⟩ :=
      w2bInvocationCompletes i s bs [] hcfg hd hu hp hn hscript hburst (by simp [hcap])
    exact ⟨t, hrun, hidle, hw, hb⟩

/-- A started B2W whose burst takes all its bytes has put their words out and is in IDLE again (R113). -/
theorem b2w_reaches_idle (hd : i.dir = .b2w) (hcap : s.wordCh.cap = none)
    (hburst : b2wBurst i.endian i.wl i.n s.byteCh.items = some (ws, [])) :
    ∃ t, Reaches (1 + i.n * (i.wl.bytes + 1)) s t ∧ t.phase = .idle ∧
      t.byteCh = { s.byteCh with items := [] } ∧ t.wordCh = { s.wordCh with items := s.wordCh.items ++ ws } := by
  obtain hn | hn := Nat.eq_zero_or_pos i.n
  · obtain ⟨t, hrun, hidle, hb, hw⟩ := reaches_of_empty hcfg hu hp hscript hn
    obtain ⟨rfl, hitems⟩ : [] = ws ∧ s.byteCh.items = [] := by simpa [hn, b2wBurst] using hburst
    refine ⟨t, by rwa [hn, Nat.zero_mul], hidle, ?_, ?_⟩
    · rw [hb, ← hitems]
    · rw [hw, List.append_nil]
  · obtain ⟨t, ⟨-, -, hrun, hidle, -⟩, -, hb, hw⟩ :=
      b2wInvocationCompletes i s ws [] hcfg hd hu hp hn hscript hburst (by simp [hcap])
    exact ⟨t, hrun, hidle, hb, hw⟩

end

/-! ### Two blocks joined by a byte channel (R66, R179) -/

section
variable (e : Endian) (sign : Sign) (wl : WordLen) (b : BurstLen) (ws : List Item)

/-- The W2B of the joined pair. -/
def sender : Inst := ⟨.ofFields .w2b e sign wl b, .starter (.ofFields .w2b e sign wl b), 0, 0⟩

/-- The B2W of the joined pair. -/
def receiver : Inst := ⟨.ofFields .b2w e .unsigned wl b, .starter (.ofFields .b2w e .unsigned wl b), 0, 1⟩

@[simp] theorem sender_cfg : (sender e sign wl b).cfg = .ofFields .w2b e sign wl b := rfl
@[simp] theorem receiver_cfg : (receiver e wl b).cfg = .ofFields .b2w e .unsigned wl b := rfl
@[simp] theorem sender_st : (sender e sign wl b).st = .starter (.ofFields .w2b e sign wl b) := rfl
@[simp] theorem receiver_st : (receiver e wl b).st = .starter (.ofFields .b2w e .unsigned wl b) := rfl
@[simp] theorem sender_dir : (sender e sign wl b).dir = .w2b := Instr.ofFields_dir ..
@[simp] theorem receiver_dir : (receiver e wl b).dir = .b2w := Instr.ofFields_dir ..
@[simp] theorem sender_byteId : (sender e sign wl b).byteId = 0 := by rw [Inst.byteId, sender_dir]; rfl
@[simp] theorem sender_wordId : (sender e sign wl b).wordId = 0 := by rw [Inst.wordId, sender_dir]; rfl
@[simp] theorem receiver_byteId : (receiver e wl b).byteId = 0 := by rw [Inst.byteId, receiver_dir]; rfl
@[simp] theorem receiver_wordId : (receiver e wl b).wordId = 1 := by rw [Inst.wordId, receiver_dir]; rfl

theorem roundTrip_eq : System.roundTrip e sign wl b ws =
    ⟨[sender e sign wl b, receiver e wl b], [.empty], [{ Chan.empty with items := ws }, .empty]⟩ := rfl

section
variable (insts : List Inst) (bc : Chan Byte) (wc wc' : Chan Item)

/-- The sender is loaded with the byte channel and the first word channel. -/
theorem load_sender : System.load ⟨insts, [bc], [wc, wc']⟩ (sender e sign wl b) =
    some { State.starter (sender e sign wl b).cfg with byteCh := bc, wordCh := wc } :=
  load_eq_some.mpr ⟨bc, wc, by simp, by simp, rfl⟩

/-- The receiver is loaded with the byte channel and the second word channel. -/
theorem load_receiver : System.load ⟨insts, [bc], [wc, wc']⟩ (receiver e wl b) =
    some { State.starter (receiver e wl b).cfg with byteCh := bc, wordCh := wc' } :=
  load_eq_some.mpr ⟨bc, wc', by simp, by simp, rfl⟩

end

/-- In the joined pair the sender feeds the receiver, and nothing else feeds anything. -/
theorem feeds_joined :
    (sender e sign wl b).feeds (receiver e wl b) = true ∧ (sender e sign wl b).feeds (sender e sign wl b) = false ∧
      (receiver e wl b).feeds (sender e sign wl b) = false ∧ (receiver e wl b).feeds (receiver e wl b) = false := by
  have hin : (receiver e wl b).inId = (sender e sign wl b).outId := rfl
  have hout : (receiver e wl b).outId ≠ (sender e sign wl b).inId := Nat.one_ne_zero
  simp [Inst.feeds, hin, hout]

/-- The outside neither writes to the joint of the pair nor takes from it (R71). -/
theorem joint_closed : (System.roundTrip e sign wl b ws).noOutsideProducer (receiver e wl b) = true ∧
    (sender e sign wl b).noOutsideConsumer = true := by
  simp [System.noOutsideProducer, Inst.noOutsideConsumer, roundTrip_eq, load_receiver, State.starter, Chan.empty]

/-- The joined pair is built: its channels exist, the joint has one producer and one consumer, and it is a byte channel,
at which no word widths meet (R29, R71). -/
theorem build_roundTrip :
    System.build (System.roundTrip e sign wl b ws) = .ok (System.roundTrip e sign wl b ws) := by
  obtain ⟨hjoint, hss, hrs, hrr⟩ := feeds_joined e sign wl b
  obtain ⟨hproducer, hconsumer⟩ := joint_closed e sign wl b ws
  have hinsts : (System.roundTrip e sign wl b ws).insts = [sender e sign wl b, receiver e wl b] := rfl
  have hbound : (System.roundTrip e sign wl b ws).insts.any
      (fun x => ((System.roundTrip e sign wl b ws).load x).isNone) = false := by
    simp [roundTrip_eq, load_sender, load_receiver]
  have hprod : (System.roundTrip e sign wl b ws).twoProducers = false := by
    simp [System.twoProducers, hinsts, anyPair, Inst.sameOut, hss, hrs, hproducer]
  have hcons : (System.roundTrip e sign wl b ws).twoConsumers = false := by
    simp [System.twoConsumers, hinsts, anyPair, Inst.sameIn, hss, hrs, hrr, hconsumer]
  have hwidth : (System.roundTrip e sign wl b ws).widthClash = false := by
    simp [System.widthClash, hinsts, hrs, hrr]
  simp [System.build, hbound, hprod, hcons, hwidth]

variable {e sign wl b ws}

/-- The sender alone, with only its words in its channel, puts their bytes into the byte channel (R114). -/
theorem sender_sends {bs : List Byte} (hburst : w2bBurst e wl b.n ws = some (bs, [])) :
    ∃ t, System.run (List.replicate (1 + b.n * (wl.bytes + 1)) 0) (System.roundTrip e sign wl b ws) =
        .next ⟨[{ sender e sign wl b with st := t }, receiver e wl b], [{ Chan.empty with items := bs }],
          [.empty, .empty]⟩ ∧
      t.phase = .idle := by
  obtain ⟨t, hrun, hidle, hw, hb⟩ := w2b_reaches_idle (bs := bs)
    (s := { State.starter (sender e sign wl b).cfg with byteCh := .empty, wordCh := { Chan.empty with items := ws } })
    rfl rfl rfl rfl (sender_dir e sign wl b) rfl (by simpa using hburst)
  refine ⟨t, ?_, hidle⟩
  rw [Nat.add_comm] at hrun ⊢
  rw [roundTrip_eq, run_replicate (x := sender e sign wl b) rfl (load_sender ..) (by simpa using hrun), store_eq,
    hw, hb]
  simp [Chan.empty]

/-- The receiver alone, with the bytes of its words in the byte channel, puts the words into the second word channel
(R113). -/
theorem receiver_receives {bs : List Byte} (x : Inst) (hburst : b2wBurst e wl b.n bs = some (ws, [])) :
    ∃ t, System.run (List.replicate (1 + b.n * (wl.bytes + 1)) 1)
        ⟨[x, receiver e wl b], [{ Chan.empty with items := bs }], [.empty, .empty]⟩ =
        .next ⟨[x, { receiver e wl b with st := t }], [.empty], [.empty, { Chan.empty with items := ws }]⟩ ∧
      t.phase = .idle := by
  obtain ⟨t, hrun, hidle, hb, hw⟩ := b2w_reaches_idle (ws := ws)
    (s := { State.starter (receiver e wl b).cfg with byteCh := { Chan.empty with items := bs }, wordCh := .empty })
    rfl rfl rfl rfl (receiver_dir e wl b) rfl (by simpa using hburst)
  refine ⟨t, ?_, hidle⟩
  rw [Nat.add_comm] at hrun ⊢
  rw [run_replicate (x := receiver e wl b) rfl (load_receiver ..) (by simpa using hrun), store_eq, hw, hb]
  simp [Chan.empty]

end

/-- Settles O53: the sender alone puts the bytes of its words out, and then the receiver the words of those bytes, which
are the words again. -/
theorem joinedInstancesCarryWords : Obligations.JoinedInstancesCarryWords := by
  intro e sign wl b ws hn hfit
  obtain ⟨bs, hsent, hreceived⟩ := burst_roundTrip (e := e) hfit
  rw [← hn] at hsent hreceived ⊢
  obtain ⟨t, hsend, ht⟩ := sender_sends (sign := sign) hsent
  obtain ⟨u, hreceive, hu⟩ := receiver_receives { sender e sign wl b with st := t } hreceived
  exact ⟨build_roundTrip e sign wl b ws, _, run_append hsend hreceive, rfl, rfl, by simp [ht, hu]⟩

end Sys2Proof.Machine
end

section
/-! PROOFS for the family of spec/70_reset_and_hazards.md. First a step that brings reset and what it establishes from
any registers; then a step while the first reset edge since power-up is still to come. -/

namespace Sys2Proof.Machine

/-! ### One reset edge (R230, R235) -/

/-- The registers of a reset edge are those of State.reset (R33). -/
theorem reset_sameRegs_resetRegs (s : State) : State.reset.SameRegs s.resetRegs := ⟨rfl, rfl, rfl, rfl, rfl⟩

/-- The channels' half of the invariant, with the words of the word side in one list. -/
theorem chansOk_of_words {wl : WordLen} {s : State} (hb : s.byteCh.InCap) (hw : s.wordCh.InCap)
    (hfit : ∀ v ∈ s.wordCh.items ++ s.wordCh.waiting ++ s.wordCh.taken, fits wl v = true) : s.ChansOk wl := by
  simp only [List.forall_mem_append] at hfit
  obtain ⟨⟨hitems, hwaiting⟩, htaken⟩ := hfit
  exact ⟨⟨hitems, hwaiting, htaken⟩, hb, hw⟩

section
variable {i : Instr} {s : State} (hcfg : s.cfg = .ok i)

include hcfg

/-- A step with reset asserted answers the reset registers, after the transfer of its edge (R126, R127). -/
theorem step_reset (hr : (s.present i.dir).pins.rst = true) :
    step s = .next ((s.present i.dir).moved i.dir
      ((s.present i.dir).eventAt i.dir ((s.present i.dir).outItem i))).resetRegs := by
  rw [step_ok hcfg, exec_reset hr]

/-- A step with reset asserted needs only sound channels to meet the invariant: nothing is asked of the registers, nor
whether a reset edge has come before (R230, R235). -/
theorem step_reset_establishes_inv (hr : (s.present i.dir).pins.rst = true) (hc : s.ChansOk i.wl) :
    ∃ t, step s = .next t ∧ t.Inv ∧ t.phase = .idle ∧ State.reset.SameRegs t := by
  have hstep := step_reset hcfg hr
  have hchans := exec_chansOk (present_chansOk hc i.dir) (step_ok hcfg ▸ hstep)
  have hinv := invFor_iff.mpr ⟨resetRegs_regsOk i _, hchans⟩
  exact ⟨_, hstep, ⟨i, step_cfg hcfg hstep, hinv⟩, rfl, reset_sameRegs_resetRegs _⟩

end

/-- Settles O44: power-up changes neither the channels nor the reset to come, so its registers are a case of any. -/
theorem oneResetEdgeEstablishesInvariant : Obligations.OneResetEdgeEstablishesInvariant := by
  intro i s hcfg hr hb hw hfit
  have hc := chansOk_of_words hb hw hfit
  refine ⟨step_reset_establishes_inv hcfg hr hc, fun draw => ?_⟩
  have hr' : ((s.powerUp draw).present i.dir).pins.rst = true := by simpa using hr
  exact step_reset_establishes_inv (s := s.powerUp draw) hcfg hr' ((chansOk_congr rfl rfl).mpr hc)

/-! ### Before the first reset edge (R233) -/

/-- The draws depend on the configuration and the cycle alone, so drawing again in one cycle draws the same. -/
theorem drawRegs_sameRegs_drawRegs (draw : Nat) (s : State) :
    ((s.drawRegs draw).drawRegs draw).SameRegs (s.drawRegs draw) := ⟨rfl, rfl, rfl, rfl, rfl⟩

/-- Until the first reset edge, an edge without reset draws every register anew, after the transfer of its event. -/
theorem exec_unreset {i : Instr} {s : State} {draw : Nat} (hu : s.unreset = some draw) (hr : s.pins.rst = false) :
    exec i s = .next ((s.moved i.dir (s.eventAt i.dir (s.outItem i))).drawRegs draw) := by
  simp [exec_eq_edge, State.edge, hr, hu]

/-- A step counts one cycle. -/
theorem step_tick {i : Instr} {s t : State} (hcfg : s.cfg = .ok i) (h : step s = .next t) : t.tick = s.tick + 1 := by
  rw [step_ok hcfg] at h
  obtain ⟨⟨-, -, -, htick⟩, -⟩ := exec_frame h
  simpa using htick

/-- Settles O57: power-up writes the registers alone, and a step draws them anew unless it brings the reset edge. -/
theorem beforeFirstResetRegistersAreFree : Obligations.BeforeFirstResetRegistersAreFree := by
  refine ⟨fun draw s => ⟨rfl, ⟨rfl, rfl, rfl, rfl, rfl⟩, ⟨rfl, rfl, rfl, rfl⟩⟩, fun i s draw hcfg hu => ?_⟩
  cases hr : (s.present i.dir).pins.rst with
  | true =>
    have hstep := step_reset hcfg hr
    exact ⟨_, hstep, step_tick hcfg hstep, (step_cfg hcfg hstep).trans hcfg.symm, by simp,
      fun _ => ⟨rfl, reset_sameRegs_resetRegs _⟩⟩
  | false =>
    have hu' : (s.present i.dir).unreset = some draw := by simpa using hu
    have hstep := (step_ok hcfg).trans (exec_unreset hu' hr)
    obtain ⟨-, hmoved⟩ := moved_frame (s.present i.dir) i.dir
      ((s.present i.dir).eventAt i.dir ((s.present i.dir).outItem i))
    exact ⟨_, hstep, step_tick hcfg hstep, (step_cfg hcfg hstep).trans hcfg.symm,
      fun _ => ⟨hmoved.trans hu', drawRegs_sameRegs_drawRegs draw _, rfl⟩, by simp⟩

end Sys2Proof.Machine
end

section
/-! PROOFS for the form of a step: the environment's moves and then one edge of the configured instruction, also where
the configuration comes of a word and an N (log entries 6 and 11, both DESIGN CHOICE). -/

namespace Sys2Proof.Machine

/-- A step of an instance built from a word runs the instruction the word decodes to: building the instance and the
environment's moves commute. -/
theorem step_instantiate_ok {s : State} {nMax n : Nat} {cw : BitVec 8} {i : Instr} (h : decode nMax cw n = .ok i) :
    step (s.instantiate nMax cw n) = exec i ((s.present i.dir).instantiate nMax cw n) := by
  have hcfg : (s.instantiate nMax cw n).cfg = .ok i := (s.instantiate_cfg nMax cw n).trans h
  rw [step_ok hcfg, State.present_instantiate]

/-- Settles O39: a typed configuration runs by `step_ok`, a decoded one by `step_instantiate_ok`. -/
theorem stepRunsTheDecodedInstruction : Obligations.StepRunsTheDecodedInstruction :=
  ⟨fun _ _ => step_ok, fun _ _ _ _ _ => step_instantiate_ok⟩

end Sys2Proof.Machine
end
